-- ==== Sys2Proof/Word.lean ====
section
/-! DEFINITION. The widths GBP-RX computes in (00_scope.md rules R10 and R16): bytes, 16-bit lengths and checksums, 32-bit
idle time and operation words. All are unsigned; there is no sign extension anywhere in the block. -/

namespace Sys2Proof

/-- A byte, 0..255 (R10). -/
abbrev Byte := BitVec 8

/-- A u16: payload length, payload index, checksum (R8, R16). -/
abbrev Half := BitVec 16

/-- A u32: the idle time in milliseconds (R16). -/
abbrev Millis := BitVec 32

/-- A 32-bit operation word of the glue (30_encoding.md rule R110). -/
abbrev OpWord := BitVec 32

end Sys2Proof
end

