-- ==== Sys2Proof/Config.lean ====
section
/-! DEFINITION. The construction parameters of a GBP-RX instance (00_scope.md rule R7). They are fixed when the instance is
constructed and no operation changes one (70_reset_and_hazards.md rule R361). They stand in the state as plain data, so that a
statement over all states holds for every legal value of every parameter (log entries 1 and 2). What a legal value is stands in
WellFormed.lean; what the two function-valued parameters answer stands in Machine/Operands.lean. -/

namespace Sys2Proof

/-- Which clock transitions sample a bit (R7 `EDGE_MODE`, 40_bit_receiver.md rule R130). -/
inductive EdgeMode where
  | allEdges
  | risingOnly
  deriving DecidableEq, Repr

/-- Order in which the bits of a byte cross the line (R7 `BIT_ORDER`, 20_memory.md rule R65). -/
inductive BitOrder where
  | msbFirst
  | lsbFirst
  deriving DecidableEq, Repr

/-- Offsets of the PRINT payload fields (R7 `PRINT_LAYOUT`, 44_status_codec.md rules R295 and R296). -/
inductive PrintLayout where
  | nibbleMargins
  | byteMargins
  deriving DecidableEq, Repr

/-- The two kinds of run a control byte begins (30_encoding.md rule R100). -/
inductive RunKind where
  | literal
  | repeated
  deriving DecidableEq, Repr

/-- The four BitReceiver elements (10_state.md rule R21). They are declared here because `TX_POLICY` is a function of exactly
these four (R136). -/
structure RxRegs where
  /-- `rx_bit_index`, u3: bits of the current byte already sampled. -/
  bitIndex : BitVec 3
  /-- `rx_acc`, u8: the byte being assembled. -/
  acc : Byte
  /-- `tx_shift`, u8: the transmit shift register. -/
  txShift : Byte
  /-- `rx_response`, u1: the response bit last driven. -/
  response : Bool
  deriving DecidableEq, Repr

/-- `TX_POLICY` (R7, R136): any function from the four BitReceiver elements to a byte, written as a default and the rows that
differ from it. The domain is finite, so every function has such a table (DEDUCED, log entry 2). -/
structure TxPolicy where
  base : Byte
  rows : List (RxRegs × Byte)
  deriving DecidableEq, Repr

/-- What a control byte decodes to: the kind of run and its count, 1..255 (R7 `RLE_DECODE`). -/
structure Run where
  kind : RunKind
  count : Byte
  deriving DecidableEq, Repr

/-- `RLE_DECODE` (R7): the default profile `RLE_DOC` (R100), the alternative `RLE_GB` (R102), or any other function from a byte
to a run, written as a default and the rows that differ from it (DEDUCED, log entry 2). -/
inductive RleDecode where
  | doc
  | gb
  | table (base : Run) (rows : List (Byte × Run))
  deriving DecidableEq, Repr

/-- `CMD_CODE` (R7): the command byte of each of the five commands (30_encoding.md rule R94). -/
structure CmdCodes where
  init : Byte
  print : Byte
  data : Byte
  brk : Byte
  inquiry : Byte
  deriving DecidableEq, Repr

/-- The parameters of R7. The field widths are the ranges R7 gives: `FB_CAP <= 255`, `PAYLOAD_CAP <= 65535`. -/
structure Params where
  fbCap : Byte
  payloadCap : Half
  timeoutMs : Millis
  edgeMode : EdgeMode
  bitOrder : BitOrder
  txPolicy : TxPolicy
  cmdCode : CmdCodes
  rleDecode : RleDecode
  printLayout : PrintLayout
  rxResetOnTimeout : Bool
  deriving DecidableEq, Repr

/-- Profile `CMD_DOC`, the default of `CMD_CODE` (R94; DATA is the source's, the rest decision D3). -/
def cmdDoc : CmdCodes := { init := 0x01, print := 0x04, data := 0x02, brk := 0x08, inquiry := 0x0F }

/-- Profile `CMD_GB_WIRE`, the alternative of `CMD_CODE` (R94). -/
def cmdGbWire : CmdCodes := { init := 0x01, print := 0x02, data := 0x04, brk := 0x08, inquiry := 0x0F }

/-- The parameter values of `State.reset`. The six decided ones are R7's; `FB_CAP`, `PAYLOAD_CAP`, `TIMEOUT_MS` and `EDGE_MODE`
are OPEN in the spec and take the values of 95_test_vectors.md (DESIGN CHOICE, unsafe, log entry 1). -/
def defaultParams : Params where
  fbCap := 32
  payloadCap := 640
  timeoutMs := 500
  edgeMode := .risingOnly
  bitOrder := .msbFirst
  txPolicy := { base := 0x00, rows := [] }
  cmdCode := cmdDoc
  rleDecode := .doc
  printLayout := .nibbleMargins
  rxResetOnTimeout := false

end Sys2Proof
end

