-- ==== Sys2Proof/Syntax.lean ====
section
/-! DEFINITION. The instructions of GBP-RX: one constructor per row of spec/opcode_table.json. The table has three spaces
(30_encoding.md rule R90): the 26 operation words of the glue (R112), the run-length control byte (R100, R102) and the command
byte (R94). -/

namespace Sys2Proof

/-- The record F of eight named flags (44_status_codec.md rules R290 and R291), in the listed order. -/
structure StatusFlags where
  lowBattery : Bool
  errorOther : Bool
  paperJam : Bool
  packetError : Bool
  unprocessedData : Bool
  printBufferFull : Bool
  printerBusy : Bool
  checksumError : Bool
  deriving DecidableEq, Repr

inductive Instr where
  /-- EDGE `c, d` (R132): clock level after the transition, data level. -/
  | edge (c d : Bool)
  /-- FB_PUSH `#imm8` (R150). -/
  | fbPush (b : Byte)
  /-- FB_POP (R151). -/
  | fbPop
  /-- FB_PEEK `#off16` (R152). -/
  | fbPeek (off : Half)
  /-- FB_COUNT (R153). -/
  | fbCount
  /-- FB_CAPACITY (R154). -/
  | fbCapacity
  /-- FB_MAXFILL (R155). -/
  | fbMaxfill
  /-- FB_OVERFLOW (R156). -/
  | fbOverflow
  /-- FB_CLEAR_OVF (R157). -/
  | fbClearOvf
  /-- TM_TICK `#ms24` (R170). -/
  | tmTick (ms : BitVec 24)
  /-- PP_PROCESS `#imm8` (R190). -/
  | ppProcess (b : Byte)
  /-- PP_READY (R196). -/
  | ppReady
  /-- PP_TAKE (R197). -/
  | ppTake
  /-- DEC_FEED (R250). -/
  | decFeed
  /-- DEC_PENDING (R256). -/
  | decPending
  /-- TILE_READY (R257). -/
  | tileReady
  /-- TILE_TAKE (R258). -/
  | tileTake
  /-- SC_ENCODE (R291): the operand is the record F. -/
  | scEncode (f : StatusFlags)
  /-- SC_DECODE `#imm8` (R292). -/
  | scDecode (v : Byte)
  /-- HS_WRITE `#imm8` (R294). -/
  | hsWrite (v : Byte)
  /-- PR_SHEETS (R297). -/
  | prSheets
  /-- PR_MARGIN_PRE (R298). -/
  | prMarginPre
  /-- PR_MARGIN_POST (R299). -/
  | prMarginPost
  /-- PR_PALETTE (R300). -/
  | prPalette
  /-- PR_DENSITY (R301). -/
  | prDensity
  /-- RESET (R360). -/
  | reset
  /-- RLE_DOC.LITERAL (R100): bit 6 is ignored and kept, `n` is count-1. -/
  | rleDocLiteral (ignored : Bool) (n : BitVec 6)
  /-- RLE_DOC.REPEAT (R100): bit 6 is ignored and kept, `n` is count-1. -/
  | rleDocRepeat (ignored : Bool) (n : BitVec 6)
  /-- RLE_GB.LITERAL (R102): `n` is count-1. -/
  | rleGbLiteral (n : BitVec 7)
  /-- RLE_GB.REPEAT (R102): `n` is count-2. -/
  | rleGbRepeat (n : BitVec 7)
  /-- CMD.INIT (R94). -/
  | cmdInit
  /-- CMD.PRINT (R94). -/
  | cmdPrint
  /-- CMD.DATA (R94). -/
  | cmdData
  /-- CMD.BREAK (R94). -/
  | cmdBreak
  /-- CMD.INQUIRY (R94). -/
  | cmdInquiry
  /-- CMD.UNKNOWN (R94): any byte no other CMD row matches, kept as received. -/
  | cmdUnknown (raw : Byte)
  deriving DecidableEq, Repr

end Sys2Proof
end

