-- ==== Sys2Proof/WellFormed.lean ====
section
/-! DEFINITION. What is well formed: an instruction, and a choice of parameters. The operand types already hold every operand in
its field's range (30_encoding.md rule R114), so the one check on an instruction is CMD.UNKNOWN's: it stands for a byte that no
other CMD row matches (R94). The checks on the parameters are the legal values of 00_scope.md rule R7. -/

namespace Sys2Proof

/-- The five command bytes of the opcode table (profile `CMD_DOC`, R94). -/
def tableCommandBytes : List Byte := [0x01, 0x04, 0x02, 0x08, 0x0F]

/-- An instruction is well formed unless it is a CMD.UNKNOWN over a byte another CMD row matches. -/
def Instr.wf : Instr → Bool
  | .cmdUnknown raw => !tableCommandBytes.contains raw
  | _ => true

/-- `CMD_CODE` is injective (R7, R192). -/
def CmdCodes.distinct (c : CmdCodes) : Bool := decide [c.init, c.print, c.data, c.brk, c.inquiry].Nodup

/-- Every run an `RLE_DECODE` table answers has a count of at least 1 (R7, R252); the two named profiles do by their form. -/
def RleDecode.positive : RleDecode → Bool
  | .doc => true
  | .gb => true
  | .table base rows => base.count != 0 && rows.all (fun row => row.2.count != 0)

/-- `FB_CAP` is 1..255 (R7). -/
def Params.fbCapLegal (p : Params) : Bool := p.fbCap != 0

/-- `TIMEOUT_MS` is 1..2^32-2 (R7). -/
def Params.timeoutLegal (p : Params) : Bool := p.timeoutMs != 0 && p.timeoutMs != 0xFFFFFFFF

/-- Every parameter has a legal value (R7); the other fields' types hold only legal values. -/
def Params.legal (p : Params) : Bool :=
  p.fbCapLegal && p.timeoutLegal && p.cmdCode.distinct && p.rleDecode.positive

end Sys2Proof
end

