-- ==== Sys2Proof/Decode.lean ====
section
/-! DEFINITION. Decoding and encoding (30_encoding.md). The decoder is total on every bit pattern of each of the three spaces of
the opcode table and rejects by name; the encoder, after it, is written from the same format table (R111, R112). -/

namespace Sys2Proof

/-- A unit of the opcode table, with its space: an operation word of the glue (R110), a control byte read under one of the two
named profiles (R100, R102), or a command byte read under a choice of command codes (R94). -/
inductive CodeUnit where
  | opWord (w : OpWord)
  | rleDocByte (c : Byte)
  | rleGbByte (c : Byte)
  | cmdByte (b : Byte)
  deriving DecidableEq, Repr

/-- Why a word spells no operation (R113). Both are the spec's reason `ILLEGAL_OP`. -/
inductive Reject where
  /-- The opcode is not in the map of R112. -/
  | unassignedOpcode
  /-- A bit outside the operand field of the word's format is 1. -/
  | reservedBits
  deriving DecidableEq, Repr

inductive Decoded where
  | instr (i : Instr)
  | rejected (r : Reject)
  deriving DecidableEq, Repr

/-! ### Operand assembly (R111, R114) -/

/-- Bits 31:24. -/
def opcodeOf (w : OpWord) : Byte := w.extractLsb' 24 8

/-- `imm8 = word[7:0]`. -/
def imm8Of (w : OpWord) : Byte := w.extractLsb' 0 8

/-- `off16 = word[15:0]`. -/
def off16Of (w : OpWord) : Half := w.extractLsb' 0 16

/-- `ms24 = word[23:0]`. -/
def ms24Of (w : OpWord) : BitVec 24 := w.extractLsb' 0 24

/-- `i` if the bits outside the operand field are all 0, a rejection if not (R113). -/
def ifReservedZero (zero : Bool) (i : Instr) : Decoded := if zero then .instr i else .rejected .reservedBits

/-- Format N: bits 23:0 are 0. -/
def decodeN (w : OpWord) (i : Instr) : Decoded := ifReservedZero (w.extractLsb' 0 24 == 0) i

/-- Format B: bits 23:8 are 0. -/
def decodeB (w : OpWord) (f : Byte → Instr) : Decoded := ifReservedZero (w.extractLsb' 8 16 == 0) (f (imm8Of w))

/-- Format E: bits 23:2 are 0; `c` is bit 1 and `d` bit 0. -/
def decodeE (w : OpWord) (f : Bool → Bool → Instr) : Decoded :=
  ifReservedZero (w.extractLsb' 2 22 == 0) (f (w.getLsbD 1) (w.getLsbD 0))

/-- Format O: bits 23:16 are 0. -/
def decodeO (w : OpWord) (f : Half → Instr) : Decoded := ifReservedZero (w.extractLsb' 16 8 == 0) (f (off16Of w))

/-- Format T: bits 23:0 are the operand. -/
def decodeT (w : OpWord) (f : BitVec 24 → Instr) : Decoded := .instr (f (ms24Of w))

/-- The flag record of a byte, in the status layout (44_status_codec.md rule R290): low_battery is bit 7, checksum_error bit 0. -/
def statusUnpack (v : Byte) : StatusFlags where
  lowBattery := v.getLsbD 7
  errorOther := v.getLsbD 6
  paperJam := v.getLsbD 5
  packetError := v.getLsbD 4
  unprocessedData := v.getLsbD 3
  printBufferFull := v.getLsbD 2
  printerBusy := v.getLsbD 1
  checksumError := v.getLsbD 0

/-- The byte of a flag record, in the status layout (R290, R291). -/
def statusPack (f : StatusFlags) : Byte :=
  BitVec.ofBool f.lowBattery ++ BitVec.ofBool f.errorOther ++ BitVec.ofBool f.paperJam ++ BitVec.ofBool f.packetError ++
    BitVec.ofBool f.unprocessedData ++ BitVec.ofBool f.printBufferFull ++ BitVec.ofBool f.printerBusy ++
    BitVec.ofBool f.checksumError

/-! ### The opcode map (R112) -/

/-- The operation an operation word spells, or why it spells none (R112, R113). -/
def decodeOp (w : OpWord) : Decoded :=
  match opcodeOf w with
  | 0x01#8 => decodeE w .edge
  | 0x02#8 => decodeB w .fbPush
  | 0x10#8 => decodeN w .fbPop
  | 0x11#8 => decodeO w .fbPeek
  | 0x12#8 => decodeN w .fbCount
  | 0x13#8 => decodeN w .fbCapacity
  | 0x14#8 => decodeN w .fbMaxfill
  | 0x15#8 => decodeN w .fbOverflow
  | 0x16#8 => decodeN w .fbClearOvf
  | 0x20#8 => decodeT w .tmTick
  | 0x30#8 => decodeB w .ppProcess
  | 0x31#8 => decodeN w .ppReady
  | 0x32#8 => decodeN w .ppTake
  | 0x40#8 => decodeN w .decFeed
  | 0x41#8 => decodeN w .decPending
  | 0x42#8 => decodeN w .tileReady
  | 0x43#8 => decodeN w .tileTake
  | 0x50#8 => decodeB w (fun v => .scEncode (statusUnpack v))
  | 0x51#8 => decodeB w .scDecode
  | 0x52#8 => decodeB w .hsWrite
  | 0x60#8 => decodeN w .prSheets
  | 0x61#8 => decodeN w .prMarginPre
  | 0x62#8 => decodeN w .prMarginPost
  | 0x63#8 => decodeN w .prPalette
  | 0x64#8 => decodeN w .prDensity
  | 0xF0#8 => decodeN w .reset
  | _ => .rejected .unassignedOpcode

/-! ### The wire bytes -/

/-- The `RLE_DOC` row of a control byte: bit 7 is the mode, bit 6 is ignored, bits 5:0 are count-1 (R100). -/
def decodeRleDoc (c : Byte) : Instr :=
  if c.getLsbD 7 then .rleDocRepeat (c.getLsbD 6) (c.extractLsb' 0 6) else .rleDocLiteral (c.getLsbD 6) (c.extractLsb' 0 6)

/-- The `RLE_GB` row of a control byte: bit 7 is the mode, bits 6:0 the count field (R102). -/
def decodeRleGb (c : Byte) : Instr :=
  if c.getLsbD 7 then .rleGbRepeat (c.extractLsb' 0 7) else .rleGbLiteral (c.extractLsb' 0 7)

/-- The row of a command byte under the codes `codes`: all eight bits are compared, and a byte that is no code is UNKNOWN
(R94, R192). -/
def decodeCmd (codes : CmdCodes) (b : Byte) : Instr :=
  if b = codes.init then .cmdInit
  else if b = codes.print then .cmdPrint
  else if b = codes.data then .cmdData
  else if b = codes.brk then .cmdBreak
  else if b = codes.inquiry then .cmdInquiry
  else .cmdUnknown b

/-- The row of a control byte under a profile; a table of the glue's own has no row in the opcode table. -/
def decodeRle (p : RleDecode) (c : Byte) : Option Instr :=
  match p with
  | .doc => some (decodeRleDoc c)
  | .gb => some (decodeRleGb c)
  | .table _ _ => none

/-- The decoder of the whole opcode table. Command bytes are read under the table's profile `CMD_DOC`. -/
def decode : CodeUnit → Decoded
  | .opWord w => decodeOp w
  | .rleDocByte c => .instr (decodeRleDoc c)
  | .rleGbByte c => .instr (decodeRleGb c)
  | .cmdByte b => .instr (decodeCmd cmdDoc b)

/-- The instruction read from `nbits` bits `w` alone. An 8-bit row's bits do not tell its space, so the row with the most fixed
bits is read, and of equals the first in the table: a byte that is one of the five command codes is that command, every other
byte is an `RLE_DOC` control byte (DESIGN CHOICE, safe, log entry 10). -/
def decodeTableWord (nbits w : Nat) : Option Instr :=
  match nbits with
  | 32 =>
    match decodeOp (BitVec.ofNat 32 w) with
    | .instr i => some i
    | .rejected _ => none
  | 8 =>
    if tableCommandBytes.contains (BitVec.ofNat 8 w) then some (decodeCmd cmdDoc (BitVec.ofNat 8 w))
    else some (decodeRleDoc (BitVec.ofNat 8 w))
  | _ => none

/-! ### The encoder (R111, R112) -/

/-- `opcode<<24`. -/
def encodeN (op : Byte) : OpWord := op.setWidth 32 <<< 24

/-- `opcode<<24 | imm8`. -/
def encodeB (op imm8 : Byte) : OpWord := (op.setWidth 32 <<< 24) ||| imm8.setWidth 32

/-- `opcode<<24 | c<<1 | d`. -/
def encodeE (op : Byte) (c d : Bool) : OpWord :=
  (op.setWidth 32 <<< 24) ||| ((BitVec.ofBool c).setWidth 32 <<< 1) ||| (BitVec.ofBool d).setWidth 32

/-- `opcode<<24 | off16`. -/
def encodeO (op : Byte) (off16 : Half) : OpWord := (op.setWidth 32 <<< 24) ||| off16.setWidth 32

/-- `opcode<<24 | ms24`. -/
def encodeT (op : Byte) (ms24 : BitVec 24) : OpWord := (op.setWidth 32 <<< 24) ||| ms24.setWidth 32

/-- An `RLE_DOC` control byte: the mode at bit 7, the ignored bit at 6, the count field below (R100). -/
def encodeRleDoc (mode ignored : Bool) (n : BitVec 6) : Byte :=
  ((BitVec.ofBool mode).setWidth 8 <<< 7) ||| ((BitVec.ofBool ignored).setWidth 8 <<< 6) ||| n.setWidth 8

/-- An `RLE_GB` control byte: the mode at bit 7, the count field below (R102). -/
def encodeRleGb (mode : Bool) (n : BitVec 7) : Byte := ((BitVec.ofBool mode).setWidth 8 <<< 7) ||| n.setWidth 8

/-- The unit that spells an instruction. -/
def encode : Instr → CodeUnit
  | .edge c d => .opWord (encodeE 0x01 c d)
  | .fbPush b => .opWord (encodeB 0x02 b)
  | .fbPop => .opWord (encodeN 0x10)
  | .fbPeek off => .opWord (encodeO 0x11 off)
  | .fbCount => .opWord (encodeN 0x12)
  | .fbCapacity => .opWord (encodeN 0x13)
  | .fbMaxfill => .opWord (encodeN 0x14)
  | .fbOverflow => .opWord (encodeN 0x15)
  | .fbClearOvf => .opWord (encodeN 0x16)
  | .tmTick ms => .opWord (encodeT 0x20 ms)
  | .ppProcess b => .opWord (encodeB 0x30 b)
  | .ppReady => .opWord (encodeN 0x31)
  | .ppTake => .opWord (encodeN 0x32)
  | .decFeed => .opWord (encodeN 0x40)
  | .decPending => .opWord (encodeN 0x41)
  | .tileReady => .opWord (encodeN 0x42)
  | .tileTake => .opWord (encodeN 0x43)
  | .scEncode f => .opWord (encodeB 0x50 (statusPack f))
  | .scDecode v => .opWord (encodeB 0x51 v)
  | .hsWrite v => .opWord (encodeB 0x52 v)
  | .prSheets => .opWord (encodeN 0x60)
  | .prMarginPre => .opWord (encodeN 0x61)
  | .prMarginPost => .opWord (encodeN 0x62)
  | .prPalette => .opWord (encodeN 0x63)
  | .prDensity => .opWord (encodeN 0x64)
  | .reset => .opWord (encodeN 0xF0)
  | .rleDocLiteral ignored n => .rleDocByte (encodeRleDoc false ignored n)
  | .rleDocRepeat ignored n => .rleDocByte (encodeRleDoc true ignored n)
  | .rleGbLiteral n => .rleGbByte (encodeRleGb false n)
  | .rleGbRepeat n => .rleGbByte (encodeRleGb true n)
  | .cmdInit => .cmdByte 0x01
  | .cmdPrint => .cmdByte 0x04
  | .cmdData => .cmdByte 0x02
  | .cmdBreak => .cmdByte 0x08
  | .cmdInquiry => .cmdByte 0x0F
  | .cmdUnknown raw => .cmdByte raw

end Sys2Proof
end

