-- ==== Sys2Proof/Machine/State.lean ====
section
/-! DEFINITION. The state of GBP-RX as plain data: every element of 10_state.md, grouped by the component that owns it (rule R20),
the instance's construction parameters (R41, 00_scope.md rule R7), the operations issued and not yet run (R22), and what the last
operation handed back. The reset values are the reset columns of 10_state.md. -/

namespace Sys2Proof.Machine

/-- The contexts an operation is issued from (00_scope.md rule R14, 60_exceptions.md rule R340). -/
inductive Ctx where
  | int
  | main
  | host
  deriving DecidableEq, Repr

/-- The context tag of an operation (30_encoding.md rule R112); `any` is INT or MAIN. -/
inductive Tag where
  | int
  | main
  | any
  | host
  deriving DecidableEq, Repr

/-- The three storage spaces (20_memory.md rule R60). -/
inductive Space where
  | fb
  | payload
  | tile
  deriving DecidableEq, Repr

/-- `pp_state`, its values in the numbered order of rule R28. Values 11..15 are never reached and have no constructor (log
entry 12). -/
inductive ParserState where
  | awaitSync0
  | awaitSync1
  | command
  | compression
  | lengthLow
  | lengthHigh
  | payload
  | checksumLow
  | checksumHigh
  | keepalive
  | done
  deriving DecidableEq, Repr

/-- `pkt_command` (R32); values 6 and 7 are never written and have no constructor (log entry 12). -/
inductive Command where
  | init
  | print
  | data
  | brk
  | inquiry
  | unknown
  deriving DecidableEq, Repr

/-- `dec_mode` (R37). -/
inductive DecMode where
  | control
  | literal
  | repeatByte
  | repeatEmit
  deriving DecidableEq, Repr

/-- The events (60_exceptions.md rule R321), each with the information the rule records. -/
inductive Event where
  | framingDesync
  | checksumError (received computed : Half)
  | bufferOverflow (dropped : Byte)
  | payloadTooLarge (declared : Half)
  | sessionTimeout
  deriving DecidableEq, Repr

/-- A Packet value, a copy of the Packet register (R40, 42_packet_parser.md rule R198). -/
structure PacketValue where
  command : Command
  commandRaw : Byte
  compression : Bool
  payloadLength : Half
  payload : List Byte
  status : Byte
  checksumOk : Bool
  deriving DecidableEq, Repr

/-- The value of a result with tag VALUE (30_encoding.md rule R115): a bit or a boolean, a byte, a count, a Packet value, a Tile
value (its 16 bytes in index order, R40) or a flag record. -/
inductive Value where
  | bit (b : Bool)
  | byte (v : Byte)
  | count (n : Byte)
  | packet (p : PacketValue)
  | tile (t : List Byte)
  | flags (f : StatusFlags)
  deriving DecidableEq, Repr

/-- The (tag, value) pair an operation returns (R13, R115). -/
inductive Result where
  | value (v : Value)
  | ok
  | empty
  | outOfRange
  | overflow
  | notReady
  deriving DecidableEq, Repr

/-- The reasons of a refusal in the spec's sense (60_exceptions.md rule R326). -/
inductive RefuseReason where
  | illegalOp
  | wrongContext
  deriving DecidableEq, Repr

/-- What the last operation gave back to its caller: a result, or nothing because it was refused (R326; log entry 5). -/
inductive Reply where
  | returned (r : Result)
  | refused (why : RefuseReason)
  deriving DecidableEq, Repr

/-- The FrameBuffer (R23, R24, R25). `data` is the storage space FB, index and byte. -/
structure FrameBuffer where
  data : List Host.Cell
  head : Byte
  tail : Byte
  count : Byte
  maxFill : Byte
  overflow : Bool
  deriving DecidableEq, Repr

/-- The TimeoutMonitor (R27). -/
structure TimeoutMonitor where
  idle : Millis
  armed : Bool
  deriving DecidableEq, Repr

/-- The PacketParser's framing state, working registers and ready flag (R28, R29, R30). -/
structure Parser where
  state : ParserState
  index : Half
  sum : Half
  chk : Half
  ready : Bool
  deriving DecidableEq, Repr

/-- The Packet register (R31). `payload` is the storage space PAYLOAD. -/
structure Packet where
  command : Command
  commandRaw : Byte
  compression : Bool
  length : Half
  payload : List Host.Cell
  stored : Half
  status : Byte
  checksumOk : Bool
  deriving DecidableEq, Repr

/-- The DecompressorState (R37). -/
structure Decompressor where
  mode : DecMode
  remaining : Byte
  repeatByte : Byte
  inPos : Half
  deriving DecidableEq, Repr

/-- The TileAccumulator (R38). `buf` is the storage space TILE. -/
structure TileAccumulator where
  buf : List Host.Cell
  cursor : BitVec 5
  deriving DecidableEq, Repr

/-- One operation the glue has issued: its word and the context it was issued from (R110, R340). -/
structure Issue where
  ctx : Ctx
  word : OpWord
  deriving DecidableEq, Repr

structure State where
  /-- The construction parameters (00_scope.md rule R7); no operation changes them (R361). -/
  cfg : Params
  /-- BitReceiver (R21). -/
  rx : RxRegs
  /-- FrameBuffer (R23 to R26). -/
  fb : FrameBuffer
  /-- TimeoutMonitor (R27). -/
  tm : TimeoutMonitor
  /-- PacketParser (R28 to R30). -/
  pp : Parser
  /-- Packet register (R31 to R35). -/
  pkt : Packet
  /-- `hs_status` (R36). -/
  hsStatus : Byte
  /-- DecompressorState (R37). -/
  dec : Decompressor
  /-- TileAccumulator (R38). -/
  tile : TileAccumulator
  /-- The operations issued and not yet run, oldest first: one interleaving of the two contexts (20_memory.md rule R71;
  log entry 3). -/
  ops : List Issue
  /-- The context the operation now running was issued from (log entry 4). -/
  ctx : Ctx
  /-- What the last operation handed back (log entry 5). -/
  reply : Reply
  /-- The event the last operation raised (R12, R321; log entry 5). -/
  event : Option Event
  /-- The `refused` mark (R45). -/
  refused : Bool
  deriving DecidableEq, Repr

/-- Why a step stops. The hardware has no fault (60_exceptions.md rule R320). -/
inductive Fault where
  /-- An access to an index outside storage space `sp`. 20_memory.md rule R68 says none occurs; the storage operations of
  Machine/Ops.lean raise it in states that meet no invariant of 10_state.md (safe, log entry 8). -/
  | outsideSpace (sp : Space)
  deriving DecidableEq, Repr

/-- Why a step has no meaning. A refusal in the spec's sense (R326) is a next state with the `refused` mark set, not one of
these (log entry 6). -/
inductive Refusal where
  /-- The arm of `exec` for an instruction that has no meaning yet raises it (safe); no arm does now. -/
  | notModelled (mnemonic : String)
  deriving DecidableEq, Repr

/-- The answer of one operation or step. -/
abbrev Step := Host.Outcome State Fault Refusal

/-- The state RESET leaves in a fresh instance with parameters `p` (70_reset_and_hazards.md rules R360 and R361, the reset
columns of 10_state.md). The storage arrays list nothing (R44; DESIGN CHOICE, log entry 7). -/
def State.resetWith (p : Params) : State where
  cfg := p
  rx := { bitIndex := 0, acc := 0x00, txShift := 0x00, response := false }
  fb := { data := [], head := 0, tail := 0, count := 0, maxFill := 0, overflow := false }
  tm := { idle := 0, armed := false }
  pp := { state := .awaitSync0, index := 0, sum := 0, chk := 0, ready := false }
  pkt := { command := .unknown, commandRaw := 0x00, compression := false, length := 0, payload := [], stored := 0,
           status := 0x00, checksumOk := false }
  hsStatus := 0x00
  dec := { mode := .control, remaining := 0, repeatByte := 0x00, inPos := 0 }
  tile := { buf := [], cursor := 0 }
  ops := []
  ctx := .main
  reply := .returned .ok
  event := none
  refused := false

/-- The machine right after reset, with the parameters of log entry 1. -/
def State.reset : State := State.resetWith defaultParams

end Sys2Proof.Machine
end

