-- ==== Sys2Proof/Machine/Ops.lean ====
section
/-! DEFINITION. The named operations on the state: the one-byte accesses to a storage space (20_memory.md rule R63), how an
operation ends (00_scope.md rules R12 and R13), the refusal (60_exceptions.md rule R326) and the access discipline (R340).
GBP-RX takes no exceptions and returns from none (R320), so there is no entry operation; `raising` is the spec's `raise`. -/

namespace Sys2Proof.Machine

/-! ### Storage spaces (R60 to R63) -/

/-- What a byte of storage that nothing has written reads as (R44 lets a model choose; DESIGN CHOICE, unsafe, log entry 7). -/
def unwritten : Byte := 0x00

/-- The byte at index `a`. -/
def memGet (m : List Host.Cell) (a : Nat) : Byte :=
  match m with
  | [] => unwritten
  | (k, v) :: rest => if k = a then v else memGet rest a

/-- The cells with the byte `b` at index `a`, before the cells `rest` of higher indices: no cell is listed for the value an
unlisted index reads as. -/
def memCons (a : Nat) (b : Byte) (rest : List Host.Cell) : List Host.Cell :=
  if b = unwritten then rest else (a, b) :: rest

/-- The memory after writing `b` at index `a`. -/
def memSet (m : List Host.Cell) (a : Nat) (b : Byte) : List Host.Cell :=
  match m with
  | [] => memCons a b []
  | (k, v) :: rest =>
    if a < k then memCons a b ((k, v) :: rest)
    else if a = k then memCons a b rest
    else (k, v) :: memSet rest a b

/-- The canonical form: indices strictly rising from above `lo`, no cell equal to what an unlisted index reads as. -/
def memWfFrom (lo : Nat) (m : List Host.Cell) : Bool :=
  match m with
  | [] => true
  | (k, v) :: rest => decide (lo ≤ k) && v != unwritten && memWfFrom (k + 1) rest

/-- The canonical form of a storage space of `size` bytes: `memWfFrom 0`, and every listed index is within the space. -/
def memWf (size : Nat) (m : List Host.Cell) : Bool := memWfFrom 0 m && m.all (fun c => decide (c.1 < size))

/-- `MemRead(space, i, 1)` on a space of `size` bytes; none outside it (R11, R68). -/
def spaceRead (size : Nat) (m : List Host.Cell) (i : Nat) : Option Byte := if i < size then some (memGet m i) else none

/-- `MemWrite(space, i, 1, b)` on a space of `size` bytes; none outside it (R11, R68). -/
def spaceWrite (size : Nat) (m : List Host.Cell) (i : Nat) (b : Byte) : Option (List Host.Cell) :=
  if i < size then some (memSet m i b) else none

/-- The bytes at indices `0 .. n-1` in index order; none when they do not all lie in the space. -/
def spaceRun (size : Nat) (m : List Host.Cell) (n : Nat) : Option (List Byte) :=
  if n ≤ size then some ((List.range n).map (memGet m)) else none

/-- The tile size, 16 bytes (00_scope.md rule R8). -/
def tileSize : Nat := 16

/-! ### The bytes of a u16 (20_memory.md rule R64) -/

/-- `v[15:8]`. -/
def highByte (v : Half) : Byte := (v >>> 8).setWidth 8

/-- `v[7:0]`. -/
def lowByte (v : Half) : Byte := v.setWidth 8

/-- `{hi, lo}`. -/
def joinBytes (hi lo : Byte) : Half := (hi.setWidth 16 <<< 8) ||| lo.setWidth 16

/-! ### How an operation ends -/

/-- `raise e` and `return r`: the operation completes with its event recorded (R12, R320, R321). -/
def raising (e : Option Event) (r : Result) (s : State) : Step :=
  .next { s with reply := .returned r, event := e }

/-- `return r`, no event raised. -/
def returning (r : Result) (s : State) : Step := raising none r s

/-- `return (VALUE, v)`. -/
def returningValue (v : Value) (s : State) : Step := returning (.value v) s

/-- `refuse why` (R326): no state changes, nothing is returned, and the `refused` mark is set for good (DEDUCED, log entry 6). -/
def refuse (why : RefuseReason) (s : State) : Step :=
  .next { s with reply := .refused why, event := none, refused := true }

/-- Whether an operation with tag `t` may be issued from context `c` (R340). -/
def permits (t : Tag) (c : Ctx) : Bool :=
  match t, c with
  | .int, .int => true
  | .main, .main => true
  | .any, .int => true
  | .any, .main => true
  | .host, .host => true
  | _, _ => false

/-- Run `k` if the operation was issued from a context its tag names, refuse with `WRONG_CONTEXT` if not (R14, R340). -/
def inContext (t : Tag) (s : State) (k : Step) : Step :=
  if permits t s.ctx then k else refuse .wrongContext s

/-! ### The operation stream (R22, R110) -/

/-- The next operation issued, with the state once it is taken from the stream and its context is the running one; none when the
glue has issued nothing more (R363). -/
def fetchIssue (s : State) : Option (OpWord × State) :=
  match s.ops with
  | [] => none
  | e :: rest => some (e.word, { s with ops := rest, ctx := e.ctx })

/-- The stream with `word`, issued from `c`, put before every operation still waiting. -/
def placeFirst (c : Ctx) (word : OpWord) (s : State) : State := { s with ops := { ctx := c, word := word } :: s.ops }

end Sys2Proof.Machine
end

