-- ==== Sys2Proof/Machine/Operands.lean ====
section
/-! DEFINITION. What the operands and the parameters stand for: counted edges, the transmit byte, the command of a command byte,
the run of a control byte, the fields of a PRINT payload, and the context tag of each operation word. -/

namespace Sys2Proof.Machine

/-- The context tag of each instruction (30_encoding.md rule R112). A command byte reaches the block through PP_PROCESS and a
control byte through DEC_FEED, both MAIN (log entry 9). -/
def tagOf : Instr → Tag
  | .edge _ _ => .int
  | .fbPush _ => .int
  | .fbPop => .main
  | .fbPeek _ => .main
  | .fbCount => .main
  | .fbCapacity => .any
  | .fbMaxfill => .main
  | .fbOverflow => .main
  | .fbClearOvf => .main
  | .tmTick _ => .main
  | .ppProcess _ => .main
  | .ppReady => .main
  | .ppTake => .main
  | .decFeed => .main
  | .decPending => .main
  | .tileReady => .main
  | .tileTake => .main
  | .scEncode _ => .any
  | .scDecode _ => .any
  | .hsWrite _ => .main
  | .prSheets => .main
  | .prMarginPre => .main
  | .prMarginPost => .main
  | .prPalette => .main
  | .prDensity => .main
  | .reset => .host
  | .rleDocLiteral _ _ => .main
  | .rleDocRepeat _ _ => .main
  | .rleGbLiteral _ => .main
  | .rleGbRepeat _ => .main
  | .cmdInit => .main
  | .cmdPrint => .main
  | .cmdData => .main
  | .cmdBreak => .main
  | .cmdInquiry => .main
  | .cmdUnknown _ => .main

/-- The context the glue issues an operation with tag `t` from. -/
def homeContext : Tag → Ctx
  | .int => .int
  | .main => .main
  | .any => .main
  | .host => .host

/-! ### BitReceiver (R130, R136) -/

/-- `counted(c)`: whether an edge to clock level `c` samples a bit (R130). -/
def counted (m : EdgeMode) (c : Bool) : Bool :=
  match m with
  | .allEdges => true
  | .risingOnly => c

/-- The value of a finite table with default `base` at `x`: the first row for `x`, else the default. -/
def tableAt {α β : Type} [DecidableEq α] (base : β) (rows : List (α × β)) (x : α) : β :=
  match rows with
  | [] => base
  | (k, v) :: rest => if k = x then v else tableAt base rest x

/-- `TX_POLICY` on the four BitReceiver elements (R136). -/
def txByte (p : TxPolicy) (r : RxRegs) : Byte := tableAt p.base p.rows r

/-! ### Commands (R94, R192) -/

/-- `CmdDecode(b)`: the command whose code is `b`, UNKNOWN when there is none (R192). -/
def cmdDecode (codes : CmdCodes) (b : Byte) : Command :=
  if b = codes.init then .init
  else if b = codes.print then .print
  else if b = codes.data then .data
  else if b = codes.brk then .brk
  else if b = codes.inquiry then .inquiry
  else .unknown

/-! ### Control bytes (R100, R102, R252) -/

/-- Profile `RLE_DOC`: bit 7 the kind of run, bit 6 ignored, count `c[5:0] + 1` (R100). -/
def rleDoc (c : Byte) : Run where
  kind := if c.getLsbD 7 then .repeated else .literal
  count := (c.extractLsb' 0 6).setWidth 8 + 1

/-- Profile `RLE_GB`: bit 7 the kind of run, count `c[6:0] + 1` of a literal and `c[6:0] + 2` of a repeat (R102). -/
def rleGb (c : Byte) : Run where
  kind := if c.getLsbD 7 then .repeated else .literal
  count := (c.extractLsb' 0 7).setWidth 8 + (if c.getLsbD 7 then 2 else 1)

/-- `RLE_DECODE(c)` (R252). -/
def rleRun (p : RleDecode) (c : Byte) : Run :=
  match p with
  | .doc => rleDoc c
  | .gb => rleGb c
  | .table base rows => tableAt base rows c

/-! ### PRINT fields (R295, R296) -/

/-- The parts of the PRINT record (R99). -/
inductive PrintField where
  | sheets
  | marginPre
  | marginPost
  | palette
  | density
  deriving DecidableEq, Repr

/-- The offset of a field in the payload (R295, R296). -/
def printOffset (l : PrintLayout) (f : PrintField) : Nat :=
  match l, f with
  | _, .sheets => 0
  | _, .marginPre => 1
  | .nibbleMargins, .marginPost => 1
  | .byteMargins, .marginPost => 2
  | .nibbleMargins, .palette => 2
  | .byteMargins, .palette => 3
  | .nibbleMargins, .density => 3
  | .byteMargins, .density => 4

/-- The bits of a field in its byte: the margins of `NIBBLE_MARGINS` are `[7:4]` and `[3:0]`, every other field is `[7:0]`
(R295, R296). -/
def printBits (l : PrintLayout) (f : PrintField) (v : Byte) : Byte :=
  match l, f with
  | .nibbleMargins, .marginPre => (v.extractLsb' 4 4).setWidth 8
  | .nibbleMargins, .marginPost => (v.extractLsb' 0 4).setWidth 8
  | _, _ => v

end Sys2Proof.Machine
end

