-- ==== Sys2Proof/Machine/Flags.lean ====
section
/-! DEFINITION. The flag computations (10_state.md rule R42, 44_status_codec.md rule R290), the conditions the operations test, and
the numeric codes the spec gives its enumerations. -/

namespace Sys2Proof.Machine

/-! ### The packet status byte (R34, R290, R293) -/

/-- `pkt_status[4]`, packet-error. -/
def packetErrorBit : Byte := 0x10

/-- `pkt_status[0]`, checksum-error. -/
def checksumErrorBit : Byte := 0x01

/-- The bits of `hs_status` that a packet's status takes: all but bits 4 and 0 (R293). -/
def hostStatusMask : Byte := 0xEE

/-- The status with packet-error set if the declared length exceeds the storage (R190 LENGTH_HIGH, R199). -/
def statusAtLength (status : Byte) (tooLarge : Bool) : Byte := if tooLarge then status ||| packetErrorBit else status

/-- The status with checksum-error set if the checksum mismatches (R190 CHECKSUM_HIGH, R200). -/
def statusAtChecksum (status : Byte) (match? : Bool) : Byte := if match? then status else status ||| checksumErrorBit

/-- The status at the KEEPALIVE byte: `pkt_status | (hs_status & 0xEE)` (R293). -/
def statusAtKeepalive (status hs : Byte) : Byte := status ||| (hs &&& hostStatusMask)

/-! ### Conditions -/

/-- `tile_cursor = 16`: a completed tile is not yet taken (R38, R42). -/
def tileFull (t : TileAccumulator) : Bool := t.cursor == 16

/-- `dec_in_pos < pkt_stored`: a stored payload byte is not yet read (R253). -/
def inputLeft (s : State) : Bool := decide (s.dec.inPos.toNat < s.pkt.stored.toNat)

/-- The condition DEC_PENDING answers: a DEC_FEED now would make progress (R256). -/
def feedPending (s : State) : Bool :=
  if tileFull s.tile then true
  else if s.pkt.command != .data then false
  else if !s.pkt.compression then inputLeft s
  else if s.dec.mode == .repeatEmit then true
  else inputLeft s

/-! ### Idle time (R16, R170) -/

/-- `min(tm_idle + zext_32(ms), 2^32 - 1)`. -/
def idleAfter (idle : Millis) (ms : BitVec 24) : Millis := BitVec.ofNat 32 (min (idle.toNat + ms.toNat) (2 ^ 32 - 1))

/-- `tm_idle > TIMEOUT_MS`, strict. -/
def idleExceeds (idle limit : Millis) : Bool := decide (limit.toNat < idle.toNat)

/-! ### Codes -/

/-- The number of each `pp_state` (R28). -/
def parserStateCode : ParserState → BitVec 4
  | .awaitSync0 => 0
  | .awaitSync1 => 1
  | .command => 2
  | .compression => 3
  | .lengthLow => 4
  | .lengthHigh => 5
  | .payload => 6
  | .checksumLow => 7
  | .checksumHigh => 8
  | .keepalive => 9
  | .done => 10

/-- The number of each `pkt_command` (R32). -/
def commandCode : Command → BitVec 3
  | .init => 0
  | .print => 1
  | .data => 2
  | .brk => 3
  | .inquiry => 4
  | .unknown => 5

/-- The number of each `dec_mode` (R37). -/
def decModeCode : DecMode → BitVec 2
  | .control => 0
  | .literal => 1
  | .repeatByte => 2
  | .repeatEmit => 3

/-- The tag code of each result (R115). -/
def resultTag : Result → Nat
  | .value _ => 0
  | .ok => 1
  | .empty => 2
  | .outOfRange => 3
  | .overflow => 4
  | .notReady => 5

/-- The code of each event; 0 is "no event" (R321). -/
def eventCode : Option Event → Nat
  | none => 0
  | some .framingDesync => 1
  | some (.checksumError _ _) => 2
  | some (.bufferOverflow _) => 3
  | some (.payloadTooLarge _) => 4
  | some .sessionTimeout => 5

end Sys2Proof.Machine
end

