-- ==== Sys2Proof/Machine/FrameBuffer.lean ====
section
/-! DEFINITION. The FrameBuffer operations (41_frame_buffer.md rules R150 to R159). -/

namespace Sys2Proof.Machine

/-- The outcome of a push: the byte stored, the byte dropped because the buffer is full, or an access outside the storage. -/
inductive Pushed where
  | stored (fb : FrameBuffer)
  | dropped (fb : FrameBuffer)
  | outside
  deriving DecidableEq, Repr

/-- `(i + 1) mod FB_CAP` (R150, R151). -/
def ringNext (cap i : Byte) : Byte := BitVec.ofNat 8 ((i.toNat + 1) % cap.toNat)

/-- The body of FB_PUSH, which the BitReceiver runs too (R150, R132). -/
def pushByte (cap : Byte) (b : Byte) (fb : FrameBuffer) : Pushed :=
  if fb.count = cap then .dropped { fb with overflow := true }
  else
    match spaceWrite cap.toNat fb.data fb.tail.toNat b with
    | none => .outside
    | some data =>
      let count := fb.count + 1
      .stored { fb with data := data, tail := ringNext cap fb.tail, count := count,
                        maxFill := if fb.maxFill < count then count else fb.maxFill }

/-- FB_PUSH (R150). -/
def execFbPush (b : Byte) (s : State) : Step :=
  inContext .int s <|
    match pushByte s.cfg.fbCap b s.fb with
    | .stored fb => returning .ok { s with fb := fb }
    | .dropped fb => raising (some (.bufferOverflow b)) .overflow { s with fb := fb }
    | .outside => .fault (.outsideSpace .fb)

/-- `TmNoteArrival()`: a byte taken out of the FrameBuffer restarts the idle period and arms the monitor (R171). -/
def tmNoteArrival : TimeoutMonitor := { idle := 0, armed := true }

/-- FB_POP (R151). -/
def execFbPop (s : State) : Step :=
  inContext .main s <|
    if s.fb.count = 0 then returning .empty s
    else
      match spaceRead s.cfg.fbCap.toNat s.fb.data s.fb.head.toNat with
      | none => .fault (.outsideSpace .fb)
      | some b =>
        returningValue (.byte b)
          { s with fb := { s.fb with head := ringNext s.cfg.fbCap s.fb.head, count := s.fb.count - 1 }, tm := tmNoteArrival }

/-- The index of the stored byte at distance `off` from the oldest (R26, R152). -/
def ringIndex (cap head : Byte) (off : Nat) : Nat := (head.toNat + off) % cap.toNat

/-- FB_PEEK (R152). -/
def execFbPeek (off : Half) (s : State) : Step :=
  inContext .main s <|
    if s.fb.count.toNat ≤ off.toNat then returning .outOfRange s
    else
      match spaceRead s.cfg.fbCap.toNat s.fb.data (ringIndex s.cfg.fbCap s.fb.head off.toNat) with
      | none => .fault (.outsideSpace .fb)
      | some b => returningValue (.byte b) s

/-- FB_COUNT (R153). -/
def execFbCount (s : State) : Step := inContext .main s <| returningValue (.count s.fb.count) s

/-- FB_CAPACITY (R154). -/
def execFbCapacity (s : State) : Step := inContext .any s <| returningValue (.count s.cfg.fbCap) s

/-- FB_MAXFILL (R155). -/
def execFbMaxfill (s : State) : Step := inContext .main s <| returningValue (.count s.fb.maxFill) s

/-- FB_OVERFLOW (R156): reading does not clear the flag. -/
def execFbOverflow (s : State) : Step := inContext .main s <| returningValue (.bit s.fb.overflow) s

/-- FB_CLEAR_OVF (R157). -/
def execFbClearOvf (s : State) : Step :=
  inContext .main s <| returning .ok { s with fb := { s.fb with overflow := false } }

end Sys2Proof.Machine
end

