-- ==== Sys2Proof/Machine/BitReceiver.lean ====
section
/-! DEFINITION. The BitReceiver (40_bit_receiver.md rules R130 to R140). -/

namespace Sys2Proof.Machine

/-- At the first counted edge of a byte the transmit register takes the byte of `TX_POLICY` (R132, R136). -/
def rxLoad (p : TxPolicy) (r : RxRegs) : RxRegs :=
  if r.bitIndex = 0 then { r with txShift := txByte p r } else r

/-- One counted edge: the response bit leaves the transmit register and the sampled bit enters the accumulator, both in
`BIT_ORDER` (R132, 20_memory.md rule R65). -/
def rxShift (o : BitOrder) (d : Bool) (r : RxRegs) : RxRegs :=
  match o with
  | .msbFirst =>
    { r with response := r.txShift.getLsbD 7, txShift := r.txShift.extractLsb' 0 7 ++ 0#1,
             acc := r.acc.extractLsb' 0 7 ++ BitVec.ofBool d }
  | .lsbFirst =>
    { r with response := r.txShift.getLsbD 0, txShift := 0#1 ++ r.txShift.extractLsb' 1 7,
             acc := BitVec.ofBool d ++ r.acc.extractLsb' 1 7 }

/-- The registers once the eighth bit has been pushed (R132, R133). -/
def rxNextByte (r : RxRegs) : RxRegs := { r with bitIndex := 0, acc := 0x00 }

/-- EDGE (R132). -/
def execEdge (c d : Bool) (s : State) : Step :=
  inContext .int s <|
    if !counted s.cfg.edgeMode c then returningValue (.bit s.rx.response) s
    else
      let r := rxShift s.cfg.bitOrder d (rxLoad s.cfg.txPolicy s.rx)
      if s.rx.bitIndex = 7 then
        match pushByte s.cfg.fbCap r.acc s.fb with
        | .stored fb => returningValue (.bit r.response) { s with rx := rxNextByte r, fb := fb }
        | .dropped fb =>
          raising (some (.bufferOverflow r.acc)) (.value (.bit r.response)) { s with rx := rxNextByte r, fb := fb }
        | .outside => .fault (.outsideSpace .fb)
      else returningValue (.bit r.response) { s with rx := { r with bitIndex := s.rx.bitIndex + 1 } }

/-- `RxClear()` (R140). -/
def rxClear : RxRegs := { bitIndex := 0, acc := 0x00, txShift := 0x00, response := false }

end Sys2Proof.Machine
end

