-- ==== Sys2Proof/Machine/PacketParser.lean ====
section
/-! DEFINITION. The PacketParser (42_packet_parser.md rules R190 to R202, R230). -/

namespace Sys2Proof.Machine

/-- The first synchronisation byte (00_scope.md rule R8, 30_encoding.md rule R93). -/
def sync0 : Byte := 0x88

/-- The second synchronisation byte (R8, R93). -/
def sync1 : Byte := 0x33

/-- The Packet register with every field cleared but the payload storage, which keeps its bytes (R191, R230). -/
def packetCleared (p : Packet) : Packet :=
  { p with command := .unknown, commandRaw := 0x00, compression := false, length := 0, stored := 0, status := 0x00,
           checksumOk := false }

/-- The parser's working registers cleared (R191, R230). -/
def parserCleared (p : Parser) : Parser := { p with index := 0, sum := 0, chk := 0 }

/-- `FrameStart()` (R191). -/
def frameStart (s : State) : State :=
  { s with pkt := packetCleared s.pkt, pp := parserCleared s.pp, dec := { s.dec with inPos := 0 } }

/-- `pp_sum + b`, wrapping modulo 2^16 (R16, R193). -/
def sumAdd (sum : Half) (b : Byte) : Half := sum + b.setWidth 16

/-- The parser in state `t`. -/
def goTo (t : ParserState) (s : State) : State := { s with pp := { s.pp with state := t } }

/-- The parser in state `t` with `b` added to the running checksum. -/
def sumGoTo (b : Byte) (t : ParserState) (s : State) : State :=
  { s with pp := { s.pp with state := t, sum := sumAdd s.pp.sum b } }

/-- PP_PROCESS's answer 0: no packet became ready on this byte. -/
def notReadyYet (s : State) : Step := returningValue (.bit false) s

/-- R190, AWAIT_SYNC_0. -/
def parseSync0 (b : Byte) (s : State) : Step :=
  notReadyYet (if b = sync0 then goTo .awaitSync1 s else s)

/-- R190, AWAIT_SYNC_1: the byte that fails as SYNC1 is tested again as SYNC0 (R194). -/
def parseSync1 (b : Byte) (s : State) : Step :=
  if b = sync1 then notReadyYet (goTo .command (frameStart s))
  else if b = sync0 then raising (some .framingDesync) (.value (.bit false)) (goTo .awaitSync1 s)
  else raising (some .framingDesync) (.value (.bit false)) (goTo .awaitSync0 s)

/-- R190, COMMAND: the byte `b`, which decodes to `k`, enters the Packet register and the checksum. -/
def takeCommand (k : Command) (b : Byte) (s : State) : Step :=
  notReadyYet (sumGoTo b .compression { s with pkt := { s.pkt with commandRaw := b, command := k } })

/-- R190, COMPRESSION: bits 7:1 are ignored (30_encoding.md rule R95). -/
def parseCompression (b : Byte) (s : State) : Step :=
  notReadyYet (sumGoTo b .lengthLow { s with pkt := { s.pkt with compression := b.getLsbD 0 } })

/-- R190, LENGTH_LOW: `{pkt_length[15:8], b}`. -/
def parseLengthLow (b : Byte) (s : State) : Step :=
  notReadyYet (sumGoTo b .lengthHigh { s with pkt := { s.pkt with length := joinBytes (highByte s.pkt.length) b } })

/-- R190, LENGTH_HIGH: `{b, pkt_length[7:0]}`, and packet-error if the declared length exceeds the storage (R199). -/
def parseLengthHigh (b : Byte) (s : State) : Step :=
  let length := joinBytes b (lowByte s.pkt.length)
  let tooLarge := decide (s.cfg.payloadCap.toNat < length.toNat)
  raising (if tooLarge then some (.payloadTooLarge length) else none) (.value (.bit false))
    (sumGoTo b (if length = 0 then .checksumLow else .payload)
      { s with pkt := { s.pkt with length := length, status := statusAtLength s.pkt.status tooLarge } })

/-- The Packet register once payload byte `b` has arrived at index `i`: stored within the capacity, not stored beyond it
(R33, R68, R199). -/
def storePayload (cap i : Half) (b : Byte) (p : Packet) : Packet :=
  match spaceWrite cap.toNat p.payload i.toNat b with
  | some m => { p with payload := m, stored := i + 1 }
  | none => p

/-- R190, PAYLOAD. -/
def parsePayload (b : Byte) (s : State) : Step :=
  let index := s.pp.index + 1
  notReadyYet
    { s with
        pkt := storePayload s.cfg.payloadCap s.pp.index b s.pkt
        pp := { s.pp with sum := sumAdd s.pp.sum b, index := index,
                          state := if index = s.pkt.length then .checksumLow else .payload } }

/-- R190, CHECKSUM_LOW: `{pp_chk[15:8], b}`. -/
def parseChecksumLow (b : Byte) (s : State) : Step :=
  notReadyYet { s with pp := { s.pp with chk := joinBytes (highByte s.pp.chk) b, state := .checksumHigh } }

/-- R190, CHECKSUM_HIGH: `{b, pp_chk[7:0]}` is compared with the running sum (R97, R193, R200). -/
def parseChecksumHigh (b : Byte) (s : State) : Step :=
  let chk := joinBytes b (lowByte s.pp.chk)
  let good := chk == s.pp.sum
  raising (if good then none else some (.checksumError chk s.pp.sum)) (.value (.bit false))
    { s with pp := { s.pp with chk := chk, state := .keepalive }
             pkt := { s.pkt with checksumOk := good, status := statusAtChecksum s.pkt.status good } }

/-- R190, KEEPALIVE: the byte's value is not used (30_encoding.md rule R98); the packet is ready and 1 is returned. -/
def parseKeepalive (s : State) : Step :=
  returningValue (.bit true)
    { s with pkt := { s.pkt with status := statusAtKeepalive s.pkt.status s.hsStatus }
             pp := { s.pp with ready := true, state := .done } }

/-- The first byte after a completed frame clears `pp_ready` and is read as in AWAIT_SYNC_0 (R190, R195). -/
def leaveDone (s : State) : State := { s with pp := { s.pp with ready := false, state := .awaitSync0 } }

/-- The body of PP_PROCESS (R190), one arm per framing state. -/
def processByte (b : Byte) (s : State) : Step :=
  match s.pp.state with
  | .awaitSync0 => parseSync0 b s
  | .awaitSync1 => parseSync1 b s
  | .command => takeCommand (cmdDecode s.cfg.cmdCode b) b s
  | .compression => parseCompression b s
  | .lengthLow => parseLengthLow b s
  | .lengthHigh => parseLengthHigh b s
  | .payload => parsePayload b s
  | .checksumLow => parseChecksumLow b s
  | .checksumHigh => parseChecksumHigh b s
  | .keepalive => parseKeepalive s
  | .done => parseSync0 b (leaveDone s)

/-- PP_PROCESS (R190). -/
def execPpProcess (b : Byte) (s : State) : Step := inContext .main s (processByte b s)

/-- PP_READY (R196). -/
def execPpReady (s : State) : Step := inContext .main s <| returningValue (.bit s.pp.ready) s

/-- The Packet value over the payload view `payload` (R40, R198). -/
def packetValue (p : Packet) (payload : List Byte) : PacketValue where
  command := p.command
  commandRaw := p.commandRaw
  compression := p.compression
  payloadLength := p.length
  payload := payload
  status := p.status
  checksumOk := p.checksumOk

/-- The payload view `pkt_payload[0 .. pkt_stored-1]` (R33, R40). -/
def payloadView (s : State) : Option (List Byte) :=
  spaceRun s.cfg.payloadCap.toNat s.pkt.payload s.pkt.stored.toNat

/-- PP_TAKE (R197). -/
def execPpTake (s : State) : Step :=
  inContext .main s <|
    if !s.pp.ready then returning .notReady s
    else
      match payloadView s with
      | none => .fault (.outsideSpace .payload)
      | some v => returningValue (.packet (packetValue s.pkt v)) { s with pp := { s.pp with ready := false } }

/-- `ParserSessionReset()` (R230): a completed packet not yet taken is kept. -/
def parserSessionReset (s : State) : State :=
  if s.pp.ready then s
  else { s with pp := { parserCleared s.pp with state := .awaitSync0 }, pkt := packetCleared s.pkt }

end Sys2Proof.Machine
end

