-- ==== Sys2Proof/Machine/TileDecompressor.lean ====
section
/-! DEFINITION. The TileDecompressor and the TileAccumulator (43_tile_decompressor.md rules R250 to R270). The loop of DEC_FEED
makes at most three passes (CONTROL, REPEAT_BYTE, REPEAT_EMIT), so it is written as those passes in turn. -/

namespace Sys2Proof.Machine

/-- `NextIn()`: the next input byte, and the state with `dec_in_pos` advanced; none outside the payload storage (R253). -/
def nextIn (s : State) : Option (Byte × State) :=
  match spaceRead s.cfg.payloadCap.toNat s.pkt.payload s.dec.inPos.toNat with
  | some v => some (v, { s with dec := { s.dec with inPos := s.dec.inPos + 1 } })
  | none => none

/-- `Emit(v)`; none outside the tile buffer (R251). -/
def emit (v : Byte) (s : State) : Option State :=
  match spaceWrite tileSize s.tile.buf s.tile.cursor.toNat v with
  | some m => some { s with tile := { buf := m, cursor := s.tile.cursor + 1 } }
  | none => none

/-- `return (VALUE, tile_cursor == 16)`. -/
def reportTile (s : State) : Step := returningValue (.bit (tileFull s.tile)) s

/-- DEC_FEED's answer 0. -/
def noTile (s : State) : Step := returningValue (.bit false) s

/-- `dec_remaining - 1`, and CONTROL when none is left (R250). -/
def runStep (d : Decompressor) : Decompressor :=
  { d with remaining := d.remaining - 1, mode := if d.remaining - 1 = 0 then .control else d.mode }

/-- One output byte of the current run: emit it, count it, report the tile (R250 LITERAL and REPEAT_EMIT). -/
def emitOfRun (v : Byte) (s : State) : Step :=
  match emit v s with
  | none => .fault (.outsideSpace .tile)
  | some t => reportTile { t with dec := runStep t.dec }

/-- With an input byte taken by `NextIn()`, continue as `k`; with none left, answer 0 and change nothing (R250). -/
def withInput (s : State) (k : Byte → State → Step) : Step :=
  if s.dec.inPos = s.pkt.stored then noTile s
  else
    match nextIn s with
    | none => .fault (.outsideSpace .payload)
    | some (v, t) => k v t

/-- R250, REPEAT_EMIT. -/
def feedRepeatEmit (s : State) : Step := emitOfRun s.dec.repeatByte s

/-- R250, LITERAL. -/
def feedLiteral (s : State) : Step := withInput s emitOfRun

/-- R250, REPEAT_BYTE: the byte is latched and the loop goes on to emit it. -/
def feedRepeatByte (s : State) : Step :=
  withInput s fun v t => feedRepeatEmit { t with dec := { t.dec with repeatByte := v, mode := .repeatEmit } }

/-- R250, CONTROL, once the control byte has been read and decoded to `r`: the run begins and the loop goes on (R252). -/
def beginRun (r : Run) (s : State) : Step :=
  match r.kind with
  | .literal => feedLiteral { s with dec := { s.dec with remaining := r.count, mode := .literal } }
  | .repeated => feedRepeatByte { s with dec := { s.dec with remaining := r.count, mode := .repeatByte } }

/-- R250, CONTROL. -/
def feedControl (s : State) : Step := withInput s fun c t => beginRun (rleRun t.cfg.rleDecode c) t

/-- R250, pass-through of a payload that is not compressed (R254). -/
def feedRaw (s : State) : Step :=
  if !inputLeft s then reportTile s
  else
    match nextIn s with
    | none => .fault (.outsideSpace .payload)
    | some (v, t) =>
      match emit v t with
      | none => .fault (.outsideSpace .tile)
      | some u => reportTile u

/-- The body of DEC_FEED (R250). -/
def feed (s : State) : Step :=
  if tileFull s.tile then returningValue (.bit true) s
  else if s.pkt.command ≠ .data then noTile s
  else if !s.pkt.compression then feedRaw s
  else
    match s.dec.mode with
    | .control => feedControl s
    | .literal => feedLiteral s
    | .repeatByte => feedRepeatByte s
    | .repeatEmit => feedRepeatEmit s

/-- DEC_FEED (R250). -/
def execDecFeed (s : State) : Step := inContext .main s (feed s)

/-- DEC_PENDING (R256). -/
def execDecPending (s : State) : Step := inContext .main s <| returningValue (.bit (feedPending s)) s

/-- TILE_READY (R257). -/
def execTileReady (s : State) : Step := inContext .main s <| returningValue (.bit (tileFull s.tile)) s

/-- The sixteen bytes of the tile buffer in index order (R258). -/
def tileBytes (t : TileAccumulator) : List Byte := (List.range tileSize).map (memGet t.buf)

/-- TILE_TAKE (R258). -/
def execTileTake (s : State) : Step :=
  inContext .main s <|
    if s.tile.cursor < 16 then returning .notReady s
    else returningValue (.tile (tileBytes s.tile)) { s with tile := { s.tile with cursor := 0 } }

/-- `DecSessionReset()` (R270): the run state is cleared, the input position moves to the end of the stored payload, a partial
tile is discarded and a full one kept. -/
def decSessionReset (s : State) : State :=
  { s with dec := { mode := .control, remaining := 0, repeatByte := 0x00, inPos := s.pkt.stored }
           tile := if s.tile.cursor < 16 then { s.tile with cursor := 0 } else s.tile }

end Sys2Proof.Machine
end

