-- ==== Sys2Proof/Machine/Timeout.lean ====
section
/-! DEFINITION. The TimeoutMonitor (41_frame_buffer.md rules R170 to R173). -/

namespace Sys2Proof.Machine

/-- `RxClear()` when `RX_RESET_ON_TIMEOUT` (R172). -/
def rxSessionReset (s : State) : State := if s.cfg.rxResetOnTimeout then { s with rx := rxClear } else s

/-- `SessionTimeout()` (R172): the parser first, since the decompressor's reset reads the `pkt_stored` it leaves. The FrameBuffer
is not touched (R159). -/
def sessionTimeout (s : State) : State := rxSessionReset (decSessionReset (parserSessionReset s))

/-- TM_TICK (R170). -/
def execTmTick (ms : BitVec 24) (s : State) : Step :=
  inContext .main s <|
    if !s.tm.armed then returningValue (.bit false) s
    else
      let idle := idleAfter s.tm.idle ms
      if idleExceeds idle s.cfg.timeoutMs then
        raising (some .sessionTimeout) (.value (.bit true)) (sessionTimeout { s with tm := { idle := idle, armed := false } })
      else returningValue (.bit false) { s with tm := { s.tm with idle := idle } }

end Sys2Proof.Machine
end

