-- ==== Sys2Proof/Machine/Reset.lean ====
section
/-! DEFINITION. RESET (70_reset_and_hazards.md rule R360). -/

namespace Sys2Proof.Machine

/-- The hardware state RESET leaves. The parameters, the storage arrays and the `refused` mark are not written (R360, R361). -/
def resetState (s : State) : State :=
  { s with
      rx := rxClear
      fb := { s.fb with head := 0, tail := 0, count := 0, overflow := false, maxFill := 0 }
      tm := { idle := 0, armed := false }
      pp := { state := .awaitSync0, ready := false, index := 0, sum := 0, chk := 0 }
      pkt := packetCleared s.pkt
      hsStatus := 0x00
      dec := { mode := .control, remaining := 0, repeatByte := 0x00, inPos := 0 }
      tile := { s.tile with cursor := 0 } }

/-- RESET (R360). -/
def execReset (s : State) : Step := inContext .host s <| returning .ok (resetState s)

end Sys2Proof.Machine
end

