-- ==== Sys2Proof/Machine/StatusCodec.lean ====
section
/-! DEFINITION. The StatusCodec, the host status register and the PRINT accessors (44_status_codec.md rules R290 to R302). -/

namespace Sys2Proof.Machine

/-- SC_ENCODE (R291). -/
def execScEncode (f : StatusFlags) (s : State) : Step := inContext .any s <| returningValue (.byte (statusPack f)) s

/-- SC_DECODE (R292). -/
def execScDecode (v : Byte) (s : State) : Step := inContext .any s <| returningValue (.flags (statusUnpack v)) s

/-- HS_WRITE (R294). -/
def execHsWrite (v : Byte) (s : State) : Step := inContext .main s <| returning .ok { s with hsStatus := v }

/-- `field(off, hi, lo)`: 0 when the stored payload is not longer than the field's offset (R302); none outside the storage. -/
def printField (f : PrintField) (s : State) : Option Byte :=
  if printOffset s.cfg.printLayout f < s.pkt.stored.toNat then
    (spaceRead s.cfg.payloadCap.toNat s.pkt.payload (printOffset s.cfg.printLayout f)).map (printBits s.cfg.printLayout f)
  else some 0

/-- A PRINT accessor: it reads the Packet register whatever the command is, and writes no state (R302). -/
def readField (f : PrintField) (s : State) : Step :=
  inContext .main s <|
    match printField f s with
    | none => .fault (.outsideSpace .payload)
    | some v => returningValue (.byte v) s

/-- PR_SHEETS (R297). -/
def execPrSheets (s : State) : Step := readField .sheets s

/-- PR_MARGIN_PRE (R298). -/
def execPrMarginPre (s : State) : Step := readField .marginPre s

/-- PR_MARGIN_POST (R299). -/
def execPrMarginPost (s : State) : Step := readField .marginPost s

/-- PR_PALETTE (R300). -/
def execPrPalette (s : State) : Step := readField .palette s

/-- PR_DENSITY (R301). -/
def execPrDensity (s : State) : Step := readField .density s

end Sys2Proof.Machine
end

