-- ==== Sys2Proof/Machine/WireBytes.lean ====
section
/-! DEFINITION. The wire-byte rows of the opcode table: command bytes (30_encoding.md rule R94) and run-length control bytes
(R100, R102). The block meets a command byte when PP_PROCESS consumes it in state COMMAND and a control byte when DEC_FEED reads it
in mode CONTROL, so each row means that operation with that byte as the one consumed. Where the block is at no such position the
byte is not of that kind there, and the operation does what the state it finds says (DESIGN CHOICE, safe, log entry 9). -/

namespace Sys2Proof.Machine

/-- The command byte `b` of command `k` is consumed. -/
def consumeCommand (k : Command) (b : Byte) (s : State) : Step :=
  inContext .main s (if s.pp.state = .command then takeCommand k b s else processByte b s)

/-- CMD.INIT (R94). -/
def execCmdInit (s : State) : Step := consumeCommand .init s.cfg.cmdCode.init s

/-- CMD.PRINT (R94). -/
def execCmdPrint (s : State) : Step := consumeCommand .print s.cfg.cmdCode.print s

/-- CMD.DATA (R94). -/
def execCmdData (s : State) : Step := consumeCommand .data s.cfg.cmdCode.data s

/-- CMD.BREAK (R94). -/
def execCmdBreak (s : State) : Step := consumeCommand .brk s.cfg.cmdCode.brk s

/-- CMD.INQUIRY (R94). -/
def execCmdInquiry (s : State) : Step := consumeCommand .inquiry s.cfg.cmdCode.inquiry s

/-- CMD.UNKNOWN (R94, R201). A byte that is a code of the instance's own `CMD_CODE` is that command, not an unknown one. -/
def execCmdUnknown (raw : Byte) (s : State) : Step := consumeCommand (cmdDecode s.cfg.cmdCode raw) raw s

/-- DEC_FEED would read a control byte: no full tile waits, the packet is a compressed DATA packet, the mode is CONTROL and a
stored byte is left (R250, R253). -/
def atControlByte (s : State) : Bool :=
  !tileFull s.tile && s.pkt.command == .data && s.pkt.compression && s.dec.mode == .control && inputLeft s

/-- A control byte that decodes to `r` under profile `p` is consumed: the input position moves past it and the run begins. -/
def consumeControl (p : RleDecode) (r : Run) (s : State) : Step :=
  inContext .main s
    (if atControlByte s ∧ s.cfg.rleDecode = p then
      beginRun r { s with dec := { s.dec with inPos := s.dec.inPos + 1 } }
    else feed s)

/-- RLE_DOC.LITERAL (R100): count `n + 1`; bit 6 is ignored. -/
def execRleDocLiteral (_ignored : Bool) (n : BitVec 6) (s : State) : Step :=
  consumeControl .doc { kind := .literal, count := n.setWidth 8 + 1 } s

/-- RLE_DOC.REPEAT (R100): count `n + 1`; bit 6 is ignored. -/
def execRleDocRepeat (_ignored : Bool) (n : BitVec 6) (s : State) : Step :=
  consumeControl .doc { kind := .repeated, count := n.setWidth 8 + 1 } s

/-- RLE_GB.LITERAL (R102): count `n + 1`. -/
def execRleGbLiteral (n : BitVec 7) (s : State) : Step :=
  consumeControl .gb { kind := .literal, count := n.setWidth 8 + 1 } s

/-- RLE_GB.REPEAT (R102): count `n + 2`. -/
def execRleGbRepeat (n : BitVec 7) (s : State) : Step :=
  consumeControl .gb { kind := .repeated, count := n.setWidth 8 + 2 } s

end Sys2Proof.Machine
end

