-- ==== Sys2Proof/Machine/Dispatch.lean ====
section
/-! DEFINITION. One operation: exec runs the meaning of an instruction, one arm per constructor of Instr. -/

namespace Sys2Proof.Machine

def exec (i : Instr) (s : State) : Host.Outcome State Fault Refusal :=
  match i with
  | .edge c d => Sys2Proof.Machine.execEdge c d s
  | .fbPush b => Sys2Proof.Machine.execFbPush b s
  | .fbPop => Sys2Proof.Machine.execFbPop s
  | .fbPeek off => Sys2Proof.Machine.execFbPeek off s
  | .fbCount => Sys2Proof.Machine.execFbCount s
  | .fbCapacity => Sys2Proof.Machine.execFbCapacity s
  | .fbMaxfill => Sys2Proof.Machine.execFbMaxfill s
  | .fbOverflow => Sys2Proof.Machine.execFbOverflow s
  | .fbClearOvf => Sys2Proof.Machine.execFbClearOvf s
  | .tmTick ms => Sys2Proof.Machine.execTmTick ms s
  | .ppProcess b => Sys2Proof.Machine.execPpProcess b s
  | .ppReady => Sys2Proof.Machine.execPpReady s
  | .ppTake => Sys2Proof.Machine.execPpTake s
  | .decFeed => Sys2Proof.Machine.execDecFeed s
  | .decPending => Sys2Proof.Machine.execDecPending s
  | .tileReady => Sys2Proof.Machine.execTileReady s
  | .tileTake => Sys2Proof.Machine.execTileTake s
  | .scEncode f => Sys2Proof.Machine.execScEncode f s
  | .scDecode v => Sys2Proof.Machine.execScDecode v s
  | .hsWrite v => Sys2Proof.Machine.execHsWrite v s
  | .prSheets => Sys2Proof.Machine.execPrSheets s
  | .prMarginPre => Sys2Proof.Machine.execPrMarginPre s
  | .prMarginPost => Sys2Proof.Machine.execPrMarginPost s
  | .prPalette => Sys2Proof.Machine.execPrPalette s
  | .prDensity => Sys2Proof.Machine.execPrDensity s
  | .reset => Sys2Proof.Machine.execReset s
  | .rleDocLiteral ignored n => Sys2Proof.Machine.execRleDocLiteral ignored n s
  | .rleDocRepeat ignored n => Sys2Proof.Machine.execRleDocRepeat ignored n s
  | .rleGbLiteral n => Sys2Proof.Machine.execRleGbLiteral n s
  | .rleGbRepeat n => Sys2Proof.Machine.execRleGbRepeat n s
  | .cmdInit => Sys2Proof.Machine.execCmdInit s
  | .cmdPrint => Sys2Proof.Machine.execCmdPrint s
  | .cmdData => Sys2Proof.Machine.execCmdData s
  | .cmdBreak => Sys2Proof.Machine.execCmdBreak s
  | .cmdInquiry => Sys2Proof.Machine.execCmdInquiry s
  | .cmdUnknown raw => Sys2Proof.Machine.execCmdUnknown raw s

end Sys2Proof.Machine
end

