-- ==== Sys2Proof/Machine/Fetch.lean ====
section
/-! DEFINITION. How a unit of the opcode table is put where the next step runs it (log entry 10). An operation word goes to the
head of the operation stream. A wire byte is no operation: the block is brought to the position where it meets that byte, and the
operation that consumes it goes to the head of the stream. -/

namespace Sys2Proof.Machine

/-- `word` first in the stream, issued from the context its operation is tagged with (R112). -/
def placeOpWord (word : OpWord) (s : State) : State :=
  match decodeOp word with
  | .instr i => placeFirst (homeContext (tagOf i)) word s
  | .rejected _ => placeFirst .main word s

/-- The parser has just matched SYNC1 (R190, R191), and PP_PROCESS of `b` is next. -/
def placeCommandByte (b : Byte) (s : State) : State :=
  let t := frameStart s
  placeFirst .main (encodeB 0x30 b) { t with pp := { t.pp with state := .command, ready := false } }

/-- The one stored payload byte of a compressed DATA frame is `c`, the decompressor is in mode CONTROL under profile `RLE_DOC`
with a tile to fill (R250, R253), and DEC_FEED is next. -/
def placeControlByte (c : Byte) (s : State) : State :=
  placeFirst .main (encodeN 0x40)
    { s with
        cfg := { s.cfg with rleDecode := .doc, payloadCap := if s.cfg.payloadCap = 0 then 1 else s.cfg.payloadCap }
        pp := { s.pp with state := .checksumLow, index := 1, ready := false }
        pkt := { s.pkt with command := .data, compression := true, length := 1, stored := 1,
                            payload := memSet s.pkt.payload 0 c }
        dec := { s.dec with mode := .control, remaining := 0, inPos := 0 }
        tile := if tileFull s.tile then { s.tile with cursor := 0 } else s.tile }

/-- A wire byte is next: a command byte or a control byte, as `decodeTableWord` reads it. -/
def placeWireByte (b : Byte) (s : State) : State :=
  if tableCommandBytes.contains b then placeCommandByte b s else placeControlByte b s

end Sys2Proof.Machine
end

