-- ==== Sys2Proof/Machine/Step.lean ====
section
/-! DEFINITION. One step: the next operation the glue has issued runs as one atomic step (20_memory.md rule R70), in its own
context. With nothing issued the block does nothing (70_reset_and_hazards.md rule R363). -/

namespace Sys2Proof.Machine

/-- Take the next issued word; run the operation it spells, or refuse it with `ILLEGAL_OP` when it spells none (R113, R326). -/
def step (s : State) : Host.Outcome State Fault Refusal :=
  match fetchIssue s with
  | none => .next s
  | some (w, t) =>
    match decodeOp w with
    | .instr i => exec i t
    | .rejected _ => refuse .illegalOp t

/-- `s` with the unit of `nbits` bits `w` placed so that the next step runs it (log entry 10). -/
def State.withFetchWord (s : State) (nbits w : Nat) : State :=
  match nbits with
  | 32 => placeOpWord (BitVec.ofNat 32 w) s
  | 8 => placeWireByte (BitVec.ofNat 8 w) s
  | _ => s

end Sys2Proof.Machine
end

