-- ==== Sys2Proof/Machine/Glue.lean ====
section
/-! DEFINITION. The glue's written forms (30_encoding.md rules R116 to R119): the assembler's operand check, the words a received
byte or frame becomes, and the canonical main loop. None of it is part of the block; it says which operations the glue issues. -/

namespace Sys2Proof.Machine

/-- An operation issued from context `c`. -/
def issueFrom (c : Ctx) (i : Instr) : Option Issue :=
  match encode i with
  | .opWord w => some { ctx := c, word := w }
  | _ => none

/-! ### The assembler (R116) -/

/-- A bit operand; anything but 0 and 1 is an assembly error. -/
def asBit (n : Nat) : Option Bool :=
  match n with
  | 0 => some false
  | 1 => some true
  | _ => none

/-- An operand of `k` bits; a value out of the field's range is an assembly error. -/
def asField (k n : Nat) : Option (BitVec k) := if n < 2 ^ k then some (BitVec.ofNat k n) else none

/-- The operation that mnemonic `m` with operands `args` stands for; none is an assembly error (R116). The pieces of the line (its
label, its comment) are the text's and not the operation's. -/
def assemble (m : String) (args : List Nat) : Option Instr :=
  match args with
  | [] =>
    if m = "FB_POP" then some .fbPop else if m = "FB_COUNT" then some .fbCount
    else if m = "FB_CAPACITY" then some .fbCapacity else if m = "FB_MAXFILL" then some .fbMaxfill
    else if m = "FB_OVERFLOW" then some .fbOverflow else if m = "FB_CLEAR_OVF" then some .fbClearOvf
    else if m = "PP_READY" then some .ppReady else if m = "PP_TAKE" then some .ppTake
    else if m = "DEC_FEED" then some .decFeed else if m = "DEC_PENDING" then some .decPending
    else if m = "TILE_READY" then some .tileReady else if m = "TILE_TAKE" then some .tileTake
    else if m = "PR_SHEETS" then some .prSheets else if m = "PR_MARGIN_PRE" then some .prMarginPre
    else if m = "PR_MARGIN_POST" then some .prMarginPost else if m = "PR_PALETTE" then some .prPalette
    else if m = "PR_DENSITY" then some .prDensity else if m = "RESET" then some .reset
    else none
  | [n] =>
    if m = "FB_PUSH" then (asField 8 n).map .fbPush
    else if m = "PP_PROCESS" then (asField 8 n).map .ppProcess
    else if m = "SC_ENCODE" then (asField 8 n).map (fun v => .scEncode (statusUnpack v))
    else if m = "SC_DECODE" then (asField 8 n).map .scDecode
    else if m = "HS_WRITE" then (asField 8 n).map .hsWrite
    else if m = "FB_PEEK" then (asField 16 n).map .fbPeek
    else if m = "TM_TICK" then (asField 24 n).map .tmTick
    else none
  | [c, d] =>
    if m = "EDGE" then
      match asBit c, asBit d with
      | some c, some d => some (.edge c d)
      | _, _ => none
    else none
  | _ => none

/-! ### RXBYTE (R117) -/

/-- The bits of a byte in the order they cross the line. -/
def lineBits (o : BitOrder) (b : Byte) : List Bool :=
  match o with
  | .msbFirst => [7, 6, 5, 4, 3, 2, 1, 0].map b.getLsbD
  | .lsbFirst => [0, 1, 2, 3, 4, 5, 6, 7].map b.getLsbD

/-- In `ALL_EDGES` mode each bit is one edge, the clock level alternating from `level`. -/
def alternating (level : Bool) (bits : List Bool) : List Instr :=
  match bits with
  | [] => []
  | x :: rest => .edge level x :: alternating (!level) rest

/-- The EDGE operations that deliver byte `b` (R117). -/
def rxByte (p : Params) (b : Byte) : List Instr :=
  match p.edgeMode with
  | .risingOnly => (lineBits p.bitOrder b).flatMap (fun x => [.edge false x, .edge true x])
  | .allEdges => alternating false (lineBits p.bitOrder b)

/-! ### Frames (R91, R97, R118) -/

/-- The correct checksum of a frame (R97). -/
def frameChecksum (cmd comp : Byte) (payload : List Byte) : Half :=
  let length := BitVec.ofNat 16 payload.length
  ([cmd, comp, lowByte length, highByte length] ++ payload).foldl sumAdd 0

/-- The byte list of a frame with checksum `chk` and KEEPALIVE `ka`, in wire order (R91, R118); `payload` has at most 65535
bytes. -/
def frameBytes (cmd comp : Byte) (payload : List Byte) (chk : Half) (ka : Byte) : List Byte :=
  let length := BitVec.ofNat 16 payload.length
  [sync0, sync1, cmd, comp, lowByte length, highByte length] ++ payload ++
    [lowByte chk, highByte chk, ka]

/-- `.frame` with the correct checksum and KEEPALIVE 0x00 (R118). -/
def frame (cmd comp : Byte) (payload : List Byte) : List Byte :=
  frameBytes cmd comp payload (frameChecksum cmd comp payload) 0x00

/-- RXFRAME (R118). -/
def rxFrame (p : Params) (bytes : List Byte) : List Instr := bytes.flatMap (rxByte p)

/-- PUSHFRAME (R118). -/
def pushFrame (bytes : List Byte) : List Instr := bytes.map .fbPush

/-- PROCFRAME (R118). -/
def procFrame (bytes : List Byte) : List Instr := bytes.map .ppProcess

/-! ### POLL and FEEDALL (R119) -/

/-- Where the canonical main loop stands: the operation it issues next. INT operations may run between any two of them. -/
inductive PollAt where
  | pop
  | process (b : Byte)
  | take
  | pending
  | feed
  | tileTake
  | tick
  | finished
  deriving DecidableEq, Repr

/-- The operation POLL `#ms` issues at each point, from context MAIN. -/
def pollOp (ms : BitVec 24) : PollAt → Option Instr
  | .pop => some .fbPop
  | .process b => some (.ppProcess b)
  | .take => some .ppTake
  | .pending => some .decPending
  | .feed => some .decFeed
  | .tileTake => some .tileTake
  | .tick => some (.tmTick ms)
  | .finished => none

/-- Where POLL goes on once its operation has answered `r`. -/
def pollNext (p : PollAt) (r : Reply) : PollAt :=
  match p, r with
  | .pop, .returned (.value (.byte b)) => .process b
  | .pop, .returned .empty => .tick
  | .process _, .returned (.value (.bit true)) => .take
  | .process _, .returned (.value (.bit false)) => .pending
  | .take, .returned _ => .pending
  | .pending, .returned (.value (.bit true)) => .feed
  | .pending, .returned (.value (.bit false)) => .pop
  | .feed, .returned (.value (.bit true)) => .tileTake
  | .feed, .returned (.value (.bit false)) => .pending
  | .tileTake, .returned _ => .pending
  | _, _ => .finished

/-- One operation of POLL, run at once: the glue issues it and the block takes it. -/
def pollStep (ms : BitVec 24) (p : PollAt) (s : State) : Host.Outcome (PollAt × State) Fault Refusal :=
  match (pollOp ms p).bind (issueFrom .main) with
  | none => .next (.finished, s)
  | some e =>
    match step (placeFirst e.ctx e.word s) with
    | .next t => .next (pollNext p t.reply, t)
    | .fault f => .fault f
    | .refused r => .refused r

/-- At most `fuel` operations of POLL with no INT operation between them; where it stands then, and the state. -/
def poll (fuel : Nat) (ms : BitVec 24) (p : PollAt) (s : State) : Host.Outcome (PollAt × State) Fault Refusal :=
  match fuel with
  | 0 => .next (p, s)
  | k + 1 =>
    if p = .finished then .next (p, s)
    else
      match pollStep ms p s with
      | .next (q, t) => poll k ms q t
      | .fault f => .fault f
      | .refused r => .refused r

/-- FEEDALL: the loop over DEC_PENDING alone (R119). It has ended when it stands where POLL would pop. -/
def feedAll (fuel : Nat) (p : PollAt) (s : State) : Host.Outcome (PollAt × State) Fault Refusal :=
  match fuel with
  | 0 => .next (p, s)
  | k + 1 =>
    if p = .pop then .next (p, s)
    else
      match pollStep 0 p s with
      | .next (q, t) => feedAll k q t
      | .fault f => .fault f
      | .refused r => .refused r

/-- Run `ops` in order, each issued from context `c`, with nothing between them. -/
def runFrom (c : Ctx) (ops : List Instr) (s : State) : Step :=
  match ops with
  | [] => .next s
  | i :: rest =>
    match exec i { s with ctx := c } with
    | .next t => runFrom c rest t
    | .fault f => .fault f
    | .refused r => .refused r

end Sys2Proof.Machine
end

