-- ==== Sys2Proof/Safety.lean ====
section
/-! DEFINITION. What counts as a good state, and the terms the claims are stated in: the invariants of 10_state.md (rules R26, R35
and R39), the byte queue the FrameBuffer stands for (R26), the access discipline of 60_exceptions.md rule R340, and the parser's
transition table (42_packet_parser.md rule R195). The tables here are written from their rules and not from the machine's
definitions. -/

namespace Sys2Proof.Machine

/-! ### Invariants -/

/-- The FrameBuffer's invariants (10_state.md rules R23 and R26), and the canonical form of its storage. -/
abbrev FbInv (cap : Byte) (f : FrameBuffer) : Prop :=
  f.count.toNat ≤ cap.toNat ∧ f.head.toNat < cap.toNat ∧
    f.tail.toNat = (f.head.toNat + f.count.toNat) % cap.toNat ∧
    f.count.toNat ≤ f.maxFill.toNat ∧ f.maxFill.toNat ≤ cap.toNat ∧ memWf cap.toNat f.data = true

/-- The framing states in which no payload byte has been consumed yet: the frame is open and its length is not yet known. -/
def beforeLength (t : ParserState) : Bool :=
  t == .command || t == .compression || t == .lengthLow || t == .lengthHigh

/-- The framing states of an open frame whose checksum outcome is not yet known. -/
def beforeOutcome (t : ParserState) : Bool :=
  beforeLength t || t == .payload || t == .checksumLow || t == .checksumHigh

/-- The parser's and the Packet register's invariants: `pp_index <= pkt_length`, `pkt_stored = min(pp_index, PAYLOAD_CAP)` and
`pp_ready = 1` implies DONE (R39), `pkt_checksum_ok = 0` before the outcome is known (R35), and what makes them inductive: no
payload byte is consumed before the length is known, and one is missing in state PAYLOAD. -/
abbrev PpInv (cap : Half) (p : Parser) (k : Packet) : Prop :=
  p.index.toNat ≤ k.length.toNat ∧ k.stored.toNat = min p.index.toNat cap.toNat ∧
    (p.ready = true → p.state = .done) ∧ (beforeOutcome p.state = true → k.checksumOk = false) ∧
    (beforeLength p.state = true → p.index = 0) ∧ (p.state = .payload → p.index.toNat < k.length.toNat) ∧
    memWf cap.toNat k.payload = true

/-- The decompressor's and the tile's invariants (R38, R39), and the canonical form of the tile storage. -/
abbrev DecInv (stored : Half) (d : Decompressor) (t : TileAccumulator) : Prop :=
  d.inPos.toNat ≤ stored.toNat ∧ t.cursor.toNat ≤ tileSize ∧ (d.mode = .control ↔ d.remaining = 0) ∧
    memWf tileSize t.buf = true

/-- The invariant of the machine: legal parameters (00_scope.md rule R7) and the invariants of every component. -/
abbrev Inv (s : State) : Prop :=
  s.cfg.legal = true ∧ FbInv s.cfg.fbCap s.fb ∧ PpInv s.cfg.payloadCap s.pp s.pkt ∧ DecInv s.pkt.stored s.dec s.tile

/-- What the packet-error bit of a frame with this length is (44_status_codec.md rule R290). -/
def lengthBit (cap length : Half) : Byte := if cap.toNat < length.toNat then 0x10 else 0x00

/-- The two bits of `pkt_status` the parser writes tell the truth about the frame at every point of it (R34, R199, R200, R293):
none before the length is known, packet-error from the length on, checksum-error as well once the outcome is known. -/
abbrev StatusTrue (cap : Half) (p : Parser) (k : Packet) : Prop :=
  (beforeLength p.state = true → k.status &&& 0x11 = 0x00) ∧
    (p.state = .payload ∨ p.state = .checksumLow ∨ p.state = .checksumHigh → k.status &&& 0x11 = lengthBit cap k.length) ∧
    (p.state = .keepalive ∨ p.state = .done →
      k.status &&& 0x11 = lengthBit cap k.length ||| (if k.checksumOk then 0x00 else 0x01))

/-! ### The FrameBuffer as a queue -/

/-- The stored bytes, oldest first: `fb_data[(fb_head + k) mod FB_CAP]` for `k = 0 .. fb_count-1` (R26). -/
def fbContents (cap : Byte) (f : FrameBuffer) : List Byte :=
  (List.range f.count.toNat).map fun k => memGet f.data ((f.head.toNat + k) % cap.toNat)

/-! ### The access discipline (R340) -/

/-- The operations context INT may issue. -/
def intMayIssue : Instr → Bool
  | .edge _ _ | .fbPush _ | .fbCapacity | .scEncode _ | .scDecode _ => true
  | _ => false

/-- The operations context MAIN may issue: every one but EDGE, FB_PUSH and RESET. The wire-byte rows stand for PP_PROCESS and
DEC_FEED, which are MAIN's (log entry 9). -/
def mainMayIssue : Instr → Bool
  | .edge _ _ | .fbPush _ | .reset => false
  | _ => true

/-- The one operation HOST may issue. -/
def hostMayIssue : Instr → Bool
  | .reset => true
  | _ => false

/-- The table of R340. -/
def mayIssue (c : Ctx) (i : Instr) : Bool :=
  match c with
  | .int => intMayIssue i
  | .main => mainMayIssue i
  | .host => hostMayIssue i

/-- The queries of 20_memory.md rule R69, which have no side effect. -/
def isQuery : Instr → Bool
  | .fbPeek _ | .fbCount | .fbCapacity | .fbMaxfill | .fbOverflow | .ppReady | .decPending | .tileReady | .prSheets
  | .prMarginPre | .prMarginPost | .prPalette | .prDensity | .scEncode _ | .scDecode _ => true
  | _ => false

/-! ### The writers (R42) -/

/-- The operations that give the parser a byte: PP_PROCESS, and the command rows, which stand for it (log entry 9). -/
def isProcess : Instr → Bool
  | .ppProcess _ | .cmdInit | .cmdPrint | .cmdData | .cmdBreak | .cmdInquiry | .cmdUnknown _ => true
  | _ => false

/-- The operations that feed the decompressor: DEC_FEED, and the control rows, which stand for it (log entry 9). -/
def isFeed : Instr → Bool
  | .decFeed | .rleDocLiteral _ _ | .rleDocRepeat _ _ | .rleGbLiteral _ | .rleGbRepeat _ => true
  | _ => false

/-- The operation, issued from INT, puts a byte into the FrameBuffer's storage: an FB_PUSH, or an EDGE that is the eighth counted one,
into a buffer that is not full (R74, R130, R132, R150). -/
def storesByte (i : Instr) (s : State) : Bool :=
  match i with
  | .fbPush _ => s.ctx == .int && s.fb.count != s.cfg.fbCap
  | .edge c _ =>
    s.ctx == .int && (s.cfg.edgeMode == .allEdges || c) && s.rx.bitIndex == 7 && s.fb.count != s.cfg.fbCap
  | _ => false

/-! ### The parser's transition table (R195) -/

/-- The next state of the parser on byte `b`: from LENGTH_HIGH by the length the byte completes, from PAYLOAD by whether this is
the last payload byte. -/
def parserNext (p : Parser) (length : Half) (b : Byte) : ParserState :=
  match p.state with
  | .awaitSync0 => if b = 0x88 then .awaitSync1 else .awaitSync0
  | .awaitSync1 => if b = 0x33 then .command else if b = 0x88 then .awaitSync1 else .awaitSync0
  | .command => .compression
  | .compression => .lengthLow
  | .lengthLow => .lengthHigh
  | .lengthHigh => if b = 0x00 ∧ length.extractLsb' 0 8 = 0x00#8 then .checksumLow else .payload
  | .payload => if p.index + 1 = length then .checksumLow else .payload
  | .checksumLow => .checksumHigh
  | .checksumHigh => .keepalive
  | .keepalive => .done
  | .done => if b = 0x88 then .awaitSync1 else .awaitSync0

/-! ### What the operations leave, from their rules -/

/-- The byte sampled so far with bit `d` shifted in at the end `BIT_ORDER` says (R132). -/
def bitIn (o : BitOrder) (d : Bool) (acc : Byte) : Byte :=
  match o with
  | .msbFirst => (acc <<< 1) ||| (BitVec.ofBool d).setWidth 8
  | .lsbFirst => (acc >>> 1) ||| ((BitVec.ofBool d).setWidth 8 <<< 7)

/-- The response bit a transmit register `tx` gives next (R132). -/
def bitOut (o : BitOrder) (tx : Byte) : Bool :=
  match o with
  | .msbFirst => tx.msb
  | .lsbFirst => tx.getLsbD 0

/-- The transmit register once that bit has left it (R132). -/
def shiftOut (o : BitOrder) (tx : Byte) : Byte :=
  match o with
  | .msbFirst => tx <<< 1
  | .lsbFirst => tx >>> 1

/-- The transmit register a counted edge shifts: the byte of `TX_POLICY` at the first bit of a byte (R136). -/
def txBefore (s : State) : Byte := if s.rx.bitIndex = 0 then txByte s.cfg.txPolicy s.rx else s.rx.txShift

/-- The FrameBuffer with `b` stored (R150). -/
def bufferAfterPush (cap : Byte) (b : Byte) (f : FrameBuffer) : FrameBuffer where
  data := memSet f.data f.tail.toNat b
  head := f.head
  tail := BitVec.ofNat 8 ((f.tail.toNat + 1) % cap.toNat)
  count := f.count + 1
  maxFill := if f.maxFill.toNat < (f.count + 1).toNat then f.count + 1 else f.maxFill
  overflow := f.overflow

/-- The state once one output byte `v` of a run has been emitted: the run had `n` bytes left, the input position is `pos`, the
repeat byte `rep`, and the mode stays `mode` unless this was the run's last byte (R250, R251). -/
def afterEmit (mode : DecMode) (n rep : Byte) (pos : Half) (v : Byte) (s : State) : State :=
  { s with
      dec := { mode := if n = 1 then .control else mode, remaining := n - 1, repeatByte := rep, inPos := pos }
      tile := { buf := memSet s.tile.buf s.tile.cursor.toNat v, cursor := s.tile.cursor + 1 }
      reply := .returned (.value (.bit (decide (s.tile.cursor.toNat = 15))))
      event := none }

/-- The state with the parser and the Packet register as a session reset leaves them: a completed packet not yet taken is kept,
anything else is cleared (R230). -/
def parserAfterTimeout (s : State) : Parser × Packet :=
  if s.pp.ready then (s.pp, s.pkt)
  else
    ({ state := .awaitSync0, index := 0, sum := 0, chk := 0, ready := false },
      { command := .unknown, commandRaw := 0x00, compression := false, length := 0, payload := s.pkt.payload, stored := 0,
        status := 0x00, checksumOk := false })

/-- `s` with the answer `r` and no event. -/
def answered (r : Result) (s : State) : State := { s with reply := .returned r, event := none }

/-! ### Illegal words (30_encoding.md rule R113) -/

/-- The opcodes of the map of R112 by format. -/
def opcodesN : List Byte :=
  [0x10, 0x12, 0x13, 0x14, 0x15, 0x16, 0x31, 0x32, 0x40, 0x41, 0x42, 0x43, 0x60, 0x61, 0x62, 0x63, 0x64, 0xF0]

def opcodesB : List Byte := [0x02, 0x30, 0x50, 0x51, 0x52]

/-- A word that spells no operation: its opcode is in no format's list, or a bit outside its format's operand field is 1. -/
def illegalWord (w : OpWord) : Bool :=
  let op := (w >>> 24).setWidth 8
  if opcodesN.contains op then w &&& 0x00FFFFFF != 0
  else if opcodesB.contains op then w &&& 0x00FFFF00 != 0
  else if op == 0x01 then w &&& 0x00FFFFFC != 0
  else if op == 0x11 then w &&& 0x00FF0000 != 0
  else !(op == 0x20)

end Sys2Proof.Machine
end

