-- ==== Sys2Proof/Certificates/Slice0/Obligations.lean ====
section
/-! DEFINITION. The statements for the provers, file by file of the spec. Each docstring names the rule it formalises. Every
statement holds for every value of the construction parameters, since they are a field of the state. -/

open Sys2Proof Sys2Proof.Machine

/-! ### Encodings (30_encoding.md) -/

/-- Decoding the unit that spells a well-formed instruction gives the instruction back, with every operand at every value
(R94, R100, R102, R111, R112, R114). -/
def Obligations.DecodeOfEncode : Prop :=
  ∀ i : Instr, i.wf = true → decode (encode i) = .instr i

/-- A unit that spells an instruction is the one the encoder gives, so no two units of a space spell one instruction, and no bit
of a unit is dropped (R94, R100, R102, R111, R112). -/
def Obligations.EncodeOfDecode : Prop :=
  ∀ (u : CodeUnit) (i : Instr), decode u = .instr i → encode i = u ∧ i.wf = true

/-- Words written out from the formats of R111 and the map of R112 decode to their operations (95_test_vectors.md V-ENC-1 to
V-ENC-9, and one word of each family). -/
def Obligations.WordsOfTheSpecDecode : Prop :=
  decodeOp 0x01000003 = .instr (.edge true true) ∧ decodeOp 0x01000001 = .instr (.edge false true) ∧
    decodeOp 0x020000AA = .instr (.fbPush 0xAA) ∧ decodeOp 0x11000002 = .instr (.fbPeek 2) ∧
    decodeOp 0x200001F4 = .instr (.tmTick 500) ∧ decodeOp 0x30000088 = .instr (.ppProcess 0x88) ∧
    decodeOp 0x40000000 = .instr .decFeed ∧ decodeOp 0x51000002 = .instr (.scDecode 0x02) ∧
    decodeOp 0x61000000 = .instr .prMarginPre ∧ decodeOp 0xF0000000 = .instr .reset ∧
    decodeOp 0x03000000 = .rejected .unassignedOpcode ∧ decodeOp 0x10000001 = .rejected .reservedBits ∧
    decodeOp 0x01000004 = .rejected .reservedBits

/-- A word that spells no operation is refused: no hardware state changes, nothing is returned, and the `refused` mark is set; and
the illegal words are exactly those with an unassigned opcode or a bit outside the operand field (R113). -/
def Obligations.IllegalWordsAreRefused : Prop :=
  (∀ w : OpWord, illegalWord w = true ↔ ∀ i, decodeOp w ≠ .instr i) ∧
    ∀ (s : State) (e : Issue) (rest : List Issue), s.ops = e :: rest → illegalWord e.word = true →
      step s = .next { s with ops := rest, ctx := e.ctx, reply := .refused .illegalOp, event := none, refused := true }

/-! ### The step (20_memory.md, 60_exceptions.md, 70_reset_and_hazards.md) -/

/-- A step runs the operation the oldest issued word spells, in the context it was issued from, on the state with that word taken
from the stream (R22, R70, R110; the stream as a list in the state is the model's form, log entry 3). -/
def Obligations.StepRunsTheIssuedOperation : Prop :=
  ∀ (s : State) (e : Issue) (rest : List Issue) (i : Instr), s.ops = e :: rest → decodeOp e.word = .instr i →
    step s = exec i { s with ops := rest, ctx := e.ctx }

/-- With nothing issued, nothing happens (R363: after RESET the block does nothing until an operation is issued; the empty
stream is the model's form of that, log entry 3). -/
def Obligations.NothingIssuedNothingHappens : Prop :=
  ∀ s : State, s.ops = [] → step s = .next s

/-- The access discipline (R340): an operation issued from a context that may not issue it is refused with no state change but the
mark; any other answers a result, if it answers a next state at all, and leaves the mark alone. That
the wire-byte rows are MAIN's is the model's choice (log entry 9). -/
def Obligations.AccessDisciplineIsEnforced : Prop :=
  ∀ (i : Instr) (s : State),
    (mayIssue s.ctx i = false →
      exec i s = .next { s with reply := .refused .wrongContext, event := none, refused := true }) ∧
    ∀ t : State, mayIssue s.ctx i = true → exec i s = .next t → t.refused = s.refused ∧ ∃ r, t.reply = .returned r

/-- The `refused` mark is initially false, every refused operation sets it, and nothing clears it, RESET included (R45). -/
def Obligations.RefusedMarkIsNeverCleared : Prop :=
  (∀ p : Params, (State.resetWith p).refused = false) ∧
    ∀ s t : State, step s = .next t →
      (s.refused = true → t.refused = true) ∧
      ∀ why, s.ops ≠ [] → t.reply = .refused why → t.refused = true

/-- The parameters are those the instance was constructed with, and no step changes one (R361). -/
def Obligations.ParametersAreFixed : Prop :=
  (∀ p : Params, (State.resetWith p).cfg = p) ∧ ∀ s t : State, step s = .next t → t.cfg = s.cfg

/-- Every construction with legal parameters starts in a state that meets the invariant (R7, R26, R39, R360). The storage arrays
list nothing there, which is the model's choice (log entry 7). -/
def Obligations.ResetMeetsTheInvariant : Prop :=
  ∀ p : Params, p.legal = true → Inv (State.resetWith p)

/-- Every step keeps the invariant: the FrameBuffer's (R26), the main context's (R39), `pkt_checksum_ok = 0` before the outcome is
known (R35), and the canonical form of every storage space. -/
def Obligations.StepKeepsTheInvariant : Prop :=
  ∀ s t : State, Inv s → step s = .next t → Inv t

/-- No condition is fatal: from every state that meets the invariant, whatever has been issued from whatever context, the step
answers a next state (R68, R320). -/
def Obligations.NoConditionIsFatal : Prop :=
  ∀ s : State, Inv s → ∃ t, step s = .next t

/-- The packet-error and checksum-error bits of `pkt_status` tell the truth about the frame after every step, if they did before
(R34, R199, R200, R293). -/
def Obligations.StepKeepsStatusBitsTrue : Prop :=
  ∀ s t : State, StatusTrue s.cfg.payloadCap s.pp s.pkt → step s = .next t → StatusTrue t.cfg.payloadCap t.pp t.pkt

/-- They tell the truth at reset (R34, R360). -/
def Obligations.StatusBitsTrueAtReset : Prop :=
  ∀ p : Params, StatusTrue p.payloadCap (State.resetWith p).pp (State.resetWith p).pkt

/-! ### BitReceiver (40_bit_receiver.md) -/

/-- An edge that is not counted returns the held response bit and writes no state, so before the first counted edge after reset
the returned bit is 0 (R135). -/
def Obligations.UncountedEdgeHoldsTheResponse : Prop :=
  ∀ (s : State) (d : Bool), s.ctx = .int → s.cfg.edgeMode = .risingOnly →
    exec (.edge false d) s = .next (answered (.value (.bit s.rx.response)) s) ∧
    (s.rx = (State.resetWith s.cfg).rx → exec (.edge false d) s = .next (answered (.value (.bit false)) s))

/-- A counted edge that is not the eighth shifts one bit in and drives one bit out, in the order BIT_ORDER says; at the first bit of
a byte the transmit register is loaded by TX_POLICY (R130, R132, R136). -/
def Obligations.CountedEdgeShiftsOneBit : Prop :=
  ∀ (s : State) (c d : Bool), s.ctx = .int → (s.cfg.edgeMode = .allEdges ∨ c = true) → s.rx.bitIndex ≠ 7 →
    exec (.edge c d) s = .next (answered (.value (.bit (bitOut s.cfg.bitOrder (txBefore s))))
      { s with rx := { bitIndex := s.rx.bitIndex + 1, acc := bitIn s.cfg.bitOrder d s.rx.acc,
                       txShift := shiftOut s.cfg.bitOrder (txBefore s),
                       response := bitOut s.cfg.bitOrder (txBefore s) } })

/-- The eighth counted edge pushes the completed byte and returns the bit index and the accumulator to 0, whether the byte is stored
or finds the buffer full and is dropped with the overflow flag set (R132, R133, R134, R150). -/
def Obligations.EighthEdgePushesTheByte : Prop :=
  ∀ (s : State) (c d : Bool), s.ctx = .int → (s.cfg.edgeMode = .allEdges ∨ c = true) → s.rx.bitIndex = 7 →
    let b := bitIn s.cfg.bitOrder d s.rx.acc
    let x := bitOut s.cfg.bitOrder s.rx.txShift
    let rx : RxRegs := { bitIndex := 0, acc := 0x00, txShift := shiftOut s.cfg.bitOrder s.rx.txShift, response := x }
    (s.fb.count ≠ s.cfg.fbCap → s.fb.tail.toNat < s.cfg.fbCap.toNat →
      exec (.edge c d) s = .next (answered (.value (.bit x)) { s with rx := rx, fb := bufferAfterPush s.cfg.fbCap b s.fb })) ∧
    (s.fb.count = s.cfg.fbCap →
      exec (.edge c d) s = .next { s with rx := rx, fb := { s.fb with overflow := true },
                                          reply := .returned (.value (.bit x)), event := some (.bufferOverflow b) })

/-- The edges of one byte, from a byte boundary, in either edge mode and either bit order, put exactly that byte at the end of the
queue, or drop it with the overflow flag set if the queue is full, and leave the receiver at a byte boundary (R65, R66, R117,
R133, R134). -/
def Obligations.EdgesOfAByteDeliverTheByte : Prop :=
  ∀ (s : State) (b : Byte), Inv s → s.rx.bitIndex = 0 →
    ∃ t, runFrom .int (rxByte s.cfg b) s = .next t ∧ t.rx.bitIndex = 0 ∧ t.rx.acc = 0x00 ∧
      (s.fb.count ≠ s.cfg.fbCap →
        fbContents s.cfg.fbCap t.fb = fbContents s.cfg.fbCap s.fb ++ [b] ∧ t.fb.overflow = s.fb.overflow) ∧
      (s.fb.count = s.cfg.fbCap → t.fb = { s.fb with overflow := true })

/-! ### FrameBuffer (41_frame_buffer.md) -/

/-- FB_PUSH (R150): into a buffer that is not full it stores the byte at the tail, into a full one it drops the byte and sets the
sticky flag. -/
def Obligations.PushStoresOrDropsTheByte : Prop :=
  ∀ (s : State) (b : Byte), s.ctx = .int →
    (s.fb.count ≠ s.cfg.fbCap → s.fb.tail.toNat < s.cfg.fbCap.toNat →
      exec (.fbPush b) s = .next (answered .ok { s with fb := bufferAfterPush s.cfg.fbCap b s.fb })) ∧
    (s.fb.count = s.cfg.fbCap →
      exec (.fbPush b) s = .next { s with fb := { s.fb with overflow := true }, reply := .returned .overflow,
                                          event := some (.bufferOverflow b) })

/-- FB_POP (R151, R171): it removes and returns the oldest byte and records the arrival in the TimeoutMonitor; on an empty buffer it
answers EMPTY and changes nothing. -/
def Obligations.PopRemovesTheOldestByte : Prop :=
  ∀ s : State, s.ctx = .main →
    (s.fb.count ≠ 0 → s.fb.head.toNat < s.cfg.fbCap.toNat →
      exec .fbPop s = .next (answered (.value (.byte (memGet s.fb.data s.fb.head.toNat)))
        { s with fb := { s.fb with head := BitVec.ofNat 8 ((s.fb.head.toNat + 1) % s.cfg.fbCap.toNat), count := s.fb.count - 1 }
                 tm := { idle := 0, armed := true } })) ∧
    (s.fb.count = 0 → exec .fbPop s = .next (answered .empty s))

/-- The FrameBuffer is a first-in first-out queue (R26, R66, R73, R74): a push appends to the stored bytes or, when the buffer is
full, leaves them as they are; a pop returns the first of them and leaves the rest. -/
def Obligations.FrameBufferIsAQueue : Prop :=
  ∀ s : State, Inv s →
    (∀ b : Byte, s.ctx = .int → ∃ t, exec (.fbPush b) s = .next t ∧
      fbContents s.cfg.fbCap t.fb =
        (if (fbContents s.cfg.fbCap s.fb).length = s.cfg.fbCap.toNat then fbContents s.cfg.fbCap s.fb
         else fbContents s.cfg.fbCap s.fb ++ [b])) ∧
    (s.ctx = .main → ∃ t, exec .fbPop s = .next t ∧
      match fbContents s.cfg.fbCap s.fb with
      | [] => t.reply = .returned .empty ∧ t.fb = s.fb
      | b :: rest => t.reply = .returned (.value (.byte b)) ∧ fbContents s.cfg.fbCap t.fb = rest)

/-- FB_PEEK (R152): the byte at the given distance from the oldest, or OUT_OF_RANGE; no state changes. -/
def Obligations.PeekReadsTheQueueAtTheOffset : Prop :=
  ∀ (s : State) (off : Half), Inv s → s.ctx = .main →
    exec (.fbPeek off) s = .next (answered
      (match (fbContents s.cfg.fbCap s.fb)[off.toNat]? with
        | some b => .value (.byte b)
        | none => .outOfRange) s)

/-- Capacity plus one (R158): from an empty buffer, pushes of `FB_CAP` bytes answer OK and one more answers OVERFLOW; the count is
then the capacity and the flag is set; the pops return the retained bytes in order, and then EMPTY. -/
def Obligations.CapacityPlusOneKeepsTheOrder : Prop :=
  ∀ (s : State) (bytes : List Byte) (extra : Byte), Inv s → s.fb.count = 0 → bytes.length = s.cfg.fbCap.toNat →
    (∀ k, k < bytes.length →
      ∃ v, runFrom .int (pushFrame (bytes.take (k + 1))) s = .next v ∧ v.reply = .returned .ok) ∧
    ∃ u, runFrom .int (pushFrame (bytes ++ [extra])) s = .next u ∧ u.reply = .returned .overflow ∧
      u.fb.count = s.cfg.fbCap ∧ u.fb.overflow = true ∧
      (∀ k b, bytes[k]? = some b →
        ∃ v, runFrom .main (List.replicate (k + 1) .fbPop) u = .next v ∧ v.reply = .returned (.value (.byte b))) ∧
      ∃ v, runFrom .main (List.replicate (bytes.length + 1) .fbPop) u = .next v ∧ v.reply = .returned .empty

/-- FB_COUNT, FB_CAPACITY, FB_MAXFILL, FB_OVERFLOW answer the count, the capacity, the highest count and the flag, change nothing,
and FB_CAPACITY may be asked from either context (R153, R154, R155, R156); FB_CLEAR_OVF clears the flag and nothing else (R157). -/
def Obligations.BufferQueriesAndClear : Prop :=
  ∀ s : State,
    (s.ctx = .main → exec .fbCount s = .next (answered (.value (.count s.fb.count)) s)) ∧
    (s.ctx = .main ∨ s.ctx = .int → exec .fbCapacity s = .next (answered (.value (.count s.cfg.fbCap)) s)) ∧
    (s.ctx = .main → exec .fbMaxfill s = .next (answered (.value (.count s.fb.maxFill)) s)) ∧
    (s.ctx = .main → exec .fbOverflow s = .next (answered (.value (.bit s.fb.overflow)) s)) ∧
    (s.ctx = .main → exec .fbClearOvf s = .next (answered .ok { s with fb := { s.fb with overflow := false } }))

/-- Nothing but FB_POP and RESET removes a byte from the FrameBuffer, a session timeout included (R159). -/
def Obligations.OnlyPopAndResetRemoveBytes : Prop :=
  ∀ (i : Instr) (s t : State), Inv s → i ≠ .fbPop → i ≠ .reset → exec i s = .next t →
    ∃ added, fbContents s.cfg.fbCap t.fb = fbContents s.cfg.fbCap s.fb ++ added

/-! ### TimeoutMonitor (41_frame_buffer.md) -/

/-- TM_TICK (R170, R172, R230, R270): unarmed it answers 0 and changes nothing; armed it adds the milliseconds, saturating, and
answers 0 while the threshold is not exceeded; when it is, it disarms, resets the session and answers 1. -/
def Obligations.TickCountsAndFires : Prop :=
  ∀ (s : State) (ms : BitVec 24), s.ctx = .main →
    let idle := min (s.tm.idle.toNat + ms.toNat) (2 ^ 32 - 1)
    (s.tm.armed = false → exec (.tmTick ms) s = .next (answered (.value (.bit false)) s)) ∧
    (s.tm.armed = true → idle ≤ s.cfg.timeoutMs.toNat →
      exec (.tmTick ms) s =
        .next (answered (.value (.bit false)) { s with tm := { idle := BitVec.ofNat 32 idle, armed := true } })) ∧
    (s.tm.armed = true → s.cfg.timeoutMs.toNat < idle →
      exec (.tmTick ms) s = .next
        { s with
            tm := { idle := BitVec.ofNat 32 idle, armed := false }
            pp := (parserAfterTimeout s).1
            pkt := (parserAfterTimeout s).2
            dec := { mode := .control, remaining := 0, repeatByte := 0x00, inPos := (parserAfterTimeout s).2.stored }
            tile := if s.tile.cursor.toNat < 16 then { s.tile with cursor := 0 } else s.tile
            rx := if s.cfg.rxResetOnTimeout then { bitIndex := 0, acc := 0x00, txShift := 0x00, response := false } else s.rx
            reply := .returned (.value (.bit true))
            event := some .sessionTimeout })

/-- At most one timeout per idle period (R173): a session timeout is raised only while armed and disarms the monitor, and of all
operations only an FB_POP that returns a byte arms it. -/
def Obligations.OneTimeoutPerIdlePeriod : Prop :=
  ∀ (i : Instr) (s t : State), exec i s = .next t →
    (t.event = some .sessionTimeout → s.tm.armed = true ∧ t.tm.armed = false) ∧
    (s.tm.armed = false → t.tm.armed = true → i = .fbPop ∧ ∃ b, t.reply = .returned (.value (.byte b)))

/-! ### PacketParser (42_packet_parser.md) -/

/-- PP_PROCESS follows the transition table, whatever the state, and returns 1 exactly when it consumes the KEEPALIVE byte (R195). -/
def Obligations.ParserFollowsTheTable : Prop :=
  ∀ (s : State) (b : Byte), s.ctx = .main →
    ∃ t, exec (.ppProcess b) s = .next t ∧ t.pp.state = parserNext s.pp s.pkt.length b ∧
      t.reply = .returned (.value (.bit (decide (s.pp.state = .keepalive))))

/-- The synchronisation search (R93, R191, R194, R322): 0x33 after 0x88 starts a frame with the Packet register, the working
registers and the decompressor's input position cleared and every payload byte kept; any other byte changes nothing but the
framing state. -/
def Obligations.SyncSearchAndFrameStart : Prop :=
  ∀ (s : State) (b : Byte), s.ctx = .main →
    (s.pp.state = .awaitSync0 →
      exec (.ppProcess b) s = .next (answered (.value (.bit false))
        { s with pp := { s.pp with state := if b = 0x88 then .awaitSync1 else .awaitSync0 } })) ∧
    (s.pp.state = .awaitSync1 → b ≠ 0x33 →
      exec (.ppProcess b) s = .next
        { s with pp := { s.pp with state := if b = 0x88 then .awaitSync1 else .awaitSync0 }
                 reply := .returned (.value (.bit false)), event := some .framingDesync }) ∧
    (s.pp.state = .awaitSync1 → b = 0x33 →
      exec (.ppProcess b) s = .next (answered (.value (.bit false))
        { s with pp := { state := .command, index := 0, sum := 0, chk := 0, ready := s.pp.ready }
                 pkt := { command := .unknown, commandRaw := 0x00, compression := false, length := 0,
                          payload := s.pkt.payload, stored := 0, status := 0x00, checksumOk := false }
                 dec := { s.dec with inPos := 0 } }))

/-- The COMMAND, COMPRESSION, LENGTH_LOW and LENGTH_HIGH bytes (R94, R95, R96, R190, R199): each enters its field and the checksum;
the compression flag is bit 0 alone; the length is low byte first; a length above the storage sets packet-error. -/
def Obligations.HeaderBytesEnterTheirFields : Prop :=
  ∀ (s : State) (b : Byte), s.ctx = .main →
    let sum := s.pp.sum + b.setWidth 16
    (s.pp.state = .command →
      exec (.ppProcess b) s = .next (answered (.value (.bit false))
        { s with pp := { s.pp with state := .compression, sum := sum }
                 pkt := { s.pkt with commandRaw := b, command := cmdDecode s.cfg.cmdCode b } })) ∧
    (s.pp.state = .compression →
      exec (.ppProcess b) s = .next (answered (.value (.bit false))
        { s with pp := { s.pp with state := .lengthLow, sum := sum }
                 pkt := { s.pkt with compression := decide (b.toNat % 2 = 1) } })) ∧
    (s.pp.state = .lengthLow →
      exec (.ppProcess b) s = .next (answered (.value (.bit false))
        { s with pp := { s.pp with state := .lengthHigh, sum := sum }
                 pkt := { s.pkt with length := (s.pkt.length &&& 0xFF00) ||| b.setWidth 16 } })) ∧
    (s.pp.state = .lengthHigh →
      let length := (b.setWidth 16 <<< 8) ||| (s.pkt.length &&& 0x00FF)
      exec (.ppProcess b) s = .next
        { s with pp := { s.pp with state := if length = 0 then .checksumLow else .payload, sum := sum }
                 pkt := { s.pkt with length := length
                                     status := s.pkt.status ||| lengthBit s.cfg.payloadCap length }
                 reply := .returned (.value (.bit false))
                 event := if s.cfg.payloadCap.toNat < length.toNat then some (.payloadTooLarge length) else none })

/-- A PAYLOAD byte (R33, R190, R199): within the capacity it is stored at its index, beyond it it is not; either way it is summed and
counted, and the last one ends the payload. -/
def Obligations.PayloadByteIsStoredAndSummed : Prop :=
  ∀ (s : State) (b : Byte), s.ctx = .main → s.pp.state = .payload →
    exec (.ppProcess b) s = .next (answered (.value (.bit false))
      { s with
          pp := { s.pp with index := s.pp.index + 1, sum := s.pp.sum + b.setWidth 16,
                            state := if s.pp.index + 1 = s.pkt.length then .checksumLow else .payload }
          pkt := if s.pp.index.toNat < s.cfg.payloadCap.toNat then
                   { s.pkt with payload := memSet s.pkt.payload s.pp.index.toNat b, stored := s.pp.index + 1 }
                 else s.pkt })

/-- The CHECKSUM bytes and KEEPALIVE (R64, R97, R98, R190, R200, R293): the checksum is low byte first; the outcome is the comparison
with the running sum, and a mismatch sets checksum-error and aborts nothing; KEEPALIVE, whatever its value, makes the packet ready
and takes the six host bits. -/
def Obligations.ChecksumAndKeepaliveCompleteThePacket : Prop :=
  ∀ (s : State) (b : Byte), s.ctx = .main →
    (s.pp.state = .checksumLow →
      exec (.ppProcess b) s = .next (answered (.value (.bit false))
        { s with pp := { s.pp with chk := (s.pp.chk &&& 0xFF00) ||| b.setWidth 16, state := .checksumHigh } })) ∧
    (s.pp.state = .checksumHigh →
      let chk := (b.setWidth 16 <<< 8) ||| (s.pp.chk &&& 0x00FF)
      exec (.ppProcess b) s = .next
        { s with pp := { s.pp with chk := chk, state := .keepalive }
                 pkt := { s.pkt with checksumOk := decide (chk = s.pp.sum)
                                     status := if chk = s.pp.sum then s.pkt.status else s.pkt.status ||| 0x01 }
                 reply := .returned (.value (.bit false))
                 event := if chk = s.pp.sum then none else some (.checksumError chk s.pp.sum) }) ∧
    (s.pp.state = .keepalive →
      exec (.ppProcess b) s = .next (answered (.value (.bit true))
        { s with pp := { s.pp with ready := true, state := .done }
                 pkt := { s.pkt with status := s.pkt.status ||| (s.hsStatus &&& 0xEE) } }))

/-- The byte after a completed frame is processed as in AWAIT_SYNC_0, after `pp_ready` is cleared (R190, R195). -/
def Obligations.ByteAfterDoneIsASyncCandidate : Prop :=
  ∀ (s : State) (b : Byte), s.ctx = .main → s.pp.state = .done →
    exec (.ppProcess b) s = exec (.ppProcess b) { s with pp := { s.pp with ready := false, state := .awaitSync0 } }

/-- A whole frame, fed byte by byte from between frames, is received as R91, R94, R95, R97, R193, R199, R200, R201 and R293 say:
whatever the command, the length and the checksum, it ends ready and DONE with every field as sent, the payload truncated to the
storage, the checksum outcome and both status bits right. -/
def Obligations.AFrameIsReceived : Prop :=
  ∀ (s : State) (cmd comp : Byte) (payload : List Byte) (chk : Half) (ka : Byte), Inv s →
    (s.pp.state = .awaitSync0 ∨ s.pp.state = .done) → payload.length ≤ 65535 →
    let sum := frameChecksum cmd comp payload
    ∃ t, runFrom .main (procFrame (frameBytes cmd comp payload chk ka)) s = .next t ∧
      t.reply = .returned (.value (.bit true)) ∧ t.pp.state = .done ∧ t.pp.ready = true ∧ t.pp.sum = sum ∧ t.pp.chk = chk ∧
      t.pkt.command = cmdDecode s.cfg.cmdCode cmd ∧ t.pkt.commandRaw = cmd ∧ t.pkt.compression = comp.getLsbD 0 ∧
      t.pkt.length.toNat = payload.length ∧ t.pkt.stored.toNat = min payload.length s.cfg.payloadCap.toNat ∧
      payloadView t = some (payload.take s.cfg.payloadCap.toNat) ∧
      t.pkt.checksumOk = decide (chk = sum) ∧
      t.pkt.status = lengthBit s.cfg.payloadCap t.pkt.length ||| (if chk = sum then 0x00 else 0x01) ||| (s.hsStatus &&& 0xEE)

/-- PP_READY and PP_TAKE (R196, R197, R198): the packet is taken once, as a copy of the register with the stored bytes for payload;
nothing but `pp_ready` changes. -/
def Obligations.PacketIsTakenOnce : Prop :=
  ∀ s : State, s.ctx = .main →
    exec .ppReady s = .next (answered (.value (.bit s.pp.ready)) s) ∧
    (s.pp.ready = false → exec .ppTake s = .next (answered .notReady s)) ∧
    (s.pp.ready = true → s.pkt.stored.toNat ≤ s.cfg.payloadCap.toNat →
      exec .ppTake s = .next (answered
        (.value (.packet { command := s.pkt.command, commandRaw := s.pkt.commandRaw, compression := s.pkt.compression,
                           payloadLength := s.pkt.length,
                           payload := (List.range s.pkt.stored.toNat).map (memGet s.pkt.payload),
                           status := s.pkt.status, checksumOk := s.pkt.checksumOk }))
        { s with pp := { s.pp with ready := false } }))

/-! ### TileDecompressor and TileAccumulator (43_tile_decompressor.md) -/

/-- DEC_FEED with nothing to do (R250): a full tile is reported and stalls; a packet that is not DATA, or no input left where one is
needed, answers 0; no state changes. -/
def Obligations.FeedWithNothingToDo : Prop :=
  ∀ s : State, s.ctx = .main →
    (s.tile.cursor = 16 → exec .decFeed s = .next (answered (.value (.bit true)) s)) ∧
    (s.tile.cursor ≠ 16 → s.pkt.command ≠ .data → exec .decFeed s = .next (answered (.value (.bit false)) s)) ∧
    (s.tile.cursor ≠ 16 → s.pkt.command = .data → s.dec.inPos = s.pkt.stored →
      (s.pkt.compression = false ∨ s.dec.mode ≠ .repeatEmit) → exec .decFeed s = .next (answered (.value (.bit false)) s))

/-- DEC_FEED on an uncompressed DATA payload copies the next stored byte into the tile and leaves the run state alone (R250, R251,
R253, R254). -/
def Obligations.FeedPassesRawBytesThrough : Prop :=
  ∀ s : State, s.ctx = .main → s.tile.cursor.toNat < 16 → s.pkt.command = .data → s.pkt.compression = false →
    s.dec.inPos.toNat < s.pkt.stored.toNat → s.pkt.stored.toNat ≤ s.cfg.payloadCap.toNat →
    exec .decFeed s = .next (answered (.value (.bit (decide (s.tile.cursor.toNat = 15))))
      { s with dec := { s.dec with inPos := s.dec.inPos + 1 }
               tile := { buf := memSet s.tile.buf s.tile.cursor.toNat (memGet s.pkt.payload s.dec.inPos.toNat)
                         cursor := s.tile.cursor + 1 } })

/-- DEC_FEED inside a run (R250, R251): a literal run copies the next input byte, a pending repeat byte is latched and emitted at
once, and a repeat run emits its byte with no further input; the run ends with its last byte. -/
def Obligations.FeedContinuesARun : Prop :=
  ∀ s : State, s.ctx = .main → s.tile.cursor.toNat < 16 → s.pkt.command = .data → s.pkt.compression = true →
    s.pkt.stored.toNat ≤ s.cfg.payloadCap.toNat →
    let v := memGet s.pkt.payload s.dec.inPos.toNat
    (s.dec.mode = .literal → s.dec.inPos.toNat < s.pkt.stored.toNat →
      exec .decFeed s = .next (afterEmit .literal s.dec.remaining s.dec.repeatByte (s.dec.inPos + 1) v s)) ∧
    (s.dec.mode = .repeatByte → s.dec.inPos.toNat < s.pkt.stored.toNat →
      exec .decFeed s = .next (afterEmit .repeatEmit s.dec.remaining v (s.dec.inPos + 1) v s)) ∧
    (s.dec.mode = .repeatEmit →
      exec .decFeed s = .next (afterEmit .repeatEmit s.dec.remaining s.dec.repeatByte s.dec.inPos s.dec.repeatByte s))

/-- DEC_FEED at a control byte (R101, R250, R252): the byte's run begins; if the next byte is stored already it is consumed and one
byte emitted by the same call, otherwise the call answers 0 having consumed the control byte. -/
def Obligations.FeedBeginsARun : Prop :=
  ∀ s : State, s.ctx = .main → s.tile.cursor.toNat < 16 → s.pkt.command = .data → s.pkt.compression = true →
    s.pkt.stored.toNat ≤ s.cfg.payloadCap.toNat → s.dec.mode = .control → s.dec.inPos.toNat < s.pkt.stored.toNat →
    let r := rleRun s.cfg.rleDecode (memGet s.pkt.payload s.dec.inPos.toNat)
    let v := memGet s.pkt.payload (s.dec.inPos.toNat + 1)
    (s.dec.inPos.toNat + 1 = s.pkt.stored.toNat →
      exec .decFeed s = .next (answered (.value (.bit false))
        { s with dec := { mode := if r.kind = .literal then .literal else .repeatByte, remaining := r.count,
                          repeatByte := s.dec.repeatByte, inPos := s.dec.inPos + 1 } })) ∧
    (s.dec.inPos.toNat + 1 < s.pkt.stored.toNat → r.kind = .literal →
      exec .decFeed s = .next (afterEmit .literal r.count s.dec.repeatByte (s.dec.inPos + 2) v s)) ∧
    (s.dec.inPos.toNat + 1 < s.pkt.stored.toNat → r.kind = .repeated →
      exec .decFeed s = .next (afterEmit .repeatEmit r.count v (s.dec.inPos + 2) v s))

/-- DEC_PENDING answers 1 exactly when DEC_FEED would find the tile full or change the input position, the tile cursor or the mode,
and changes nothing itself (R256). -/
def Obligations.PendingMeansFeedMakesProgress : Prop :=
  ∀ s : State, Inv s → s.ctx = .main →
    ∃ (p : Bool) (t : State), exec .decPending s = .next (answered (.value (.bit p)) s) ∧ exec .decFeed s = .next t ∧
      (p = true ↔ s.tile.cursor = 16 ∨ t.dec.inPos ≠ s.dec.inPos ∨ t.tile.cursor ≠ s.tile.cursor ∨ t.dec.mode ≠ s.dec.mode)

/-- TILE_READY and TILE_TAKE (R257, R258): the sixteen bytes are taken in index order, once; a partial tile cannot be taken. -/
def Obligations.TileIsTakenWhenFull : Prop :=
  ∀ s : State, s.ctx = .main →
    exec .tileReady s = .next (answered (.value (.bit (decide (s.tile.cursor = 16)))) s) ∧
    (s.tile.cursor.toNat < 16 → exec .tileTake s = .next (answered .notReady s)) ∧
    (s.tile.cursor = 16 →
      exec .tileTake s = .next (answered (.value (.tile ((List.range 16).map (memGet s.tile.buf))))
        { s with tile := { s.tile with cursor := 0 } }))

/-- The two named profiles of RLE_DECODE, arithmetically (R100, R102): under RLE_DOC bytes below 128 are literal runs and the count is
the low six bits plus one; under RLE_GB the count is the low seven bits plus one, or plus two for a repeat run. -/
def Obligations.ControlByteProfiles : Prop :=
  ∀ c : Byte,
    ((rleRun .doc c).kind = if c.toNat < 128 then RunKind.literal else RunKind.repeated) ∧
    (rleRun .doc c).count.toNat = c.toNat % 64 + 1 ∧
    ((rleRun .gb c).kind = if c.toNat < 128 then RunKind.literal else RunKind.repeated) ∧
    (rleRun .gb c).count.toNat = c.toNat % 128 + (if c.toNat < 128 then 1 else 2)

/-! ### StatusCodec, host status, PRINT accessors (44_status_codec.md) -/

/-- SC_ENCODE and SC_DECODE (R291, R292) place the eight flags at the bits of R290, undo each other in both orders, and touch no
state, from either context. -/
def Obligations.StatusCodecPlacesTheFlags : Prop :=
  (∀ (s : State) (f : StatusFlags), s.ctx = .main ∨ s.ctx = .int →
    ∃ v : Byte, exec (.scEncode f) s = .next (answered (.value (.byte v)) s) ∧
      v.getLsbD 7 = f.lowBattery ∧ v.getLsbD 6 = f.errorOther ∧ v.getLsbD 5 = f.paperJam ∧ v.getLsbD 4 = f.packetError ∧
      v.getLsbD 3 = f.unprocessedData ∧ v.getLsbD 2 = f.printBufferFull ∧ v.getLsbD 1 = f.printerBusy ∧
      v.getLsbD 0 = f.checksumError ∧ exec (.scDecode v) s = .next (answered (.value (.flags f)) s)) ∧
  ∀ (s : State) (v : Byte), s.ctx = .main ∨ s.ctx = .int →
    ∃ f : StatusFlags, exec (.scDecode v) s = .next (answered (.value (.flags f)) s) ∧
      f = { lowBattery := v.getLsbD 7, errorOther := v.getLsbD 6, paperJam := v.getLsbD 5, packetError := v.getLsbD 4,
            unprocessedData := v.getLsbD 3, printBufferFull := v.getLsbD 2, printerBusy := v.getLsbD 1,
            checksumError := v.getLsbD 0 } ∧
      exec (.scEncode f) s = .next (answered (.value (.byte v)) s)

/-- HS_WRITE stores all eight bits and changes nothing else (R36, R294). -/
def Obligations.HostStatusIsWritten : Prop :=
  ∀ (s : State) (v : Byte), s.ctx = .main → exec (.hsWrite v) s = .next (answered .ok { s with hsStatus := v })

/-- The PRINT accessors under NIBBLE_MARGINS (R295, R297 to R302): each field from its own byte, 0 when that byte is not stored,
whatever the command is; no state changes. -/
def Obligations.PrintFieldsOfNibbleMargins : Prop :=
  ∀ s : State, s.ctx = .main → s.cfg.printLayout = .nibbleMargins → s.pkt.stored.toNat ≤ s.cfg.payloadCap.toNat →
    let byteAt := fun off => if off < s.pkt.stored.toNat then memGet s.pkt.payload off else 0x00
    exec .prSheets s = .next (answered (.value (.byte (byteAt 0))) s) ∧
    exec .prMarginPre s = .next (answered (.value (.byte (byteAt 1 >>> 4))) s) ∧
    exec .prMarginPost s = .next (answered (.value (.byte (byteAt 1 &&& 0x0F))) s) ∧
    exec .prPalette s = .next (answered (.value (.byte (byteAt 2))) s) ∧
    exec .prDensity s = .next (answered (.value (.byte (byteAt 3))) s)

/-- The PRINT accessors under BYTE_MARGINS (R296, R297 to R302): one byte per field, at offsets 0 to 4. -/
def Obligations.PrintFieldsOfByteMargins : Prop :=
  ∀ s : State, s.ctx = .main → s.cfg.printLayout = .byteMargins → s.pkt.stored.toNat ≤ s.cfg.payloadCap.toNat →
    let byteAt := fun off => if off < s.pkt.stored.toNat then memGet s.pkt.payload off else 0x00
    exec .prSheets s = .next (answered (.value (.byte (byteAt 0))) s) ∧
    exec .prMarginPre s = .next (answered (.value (.byte (byteAt 1))) s) ∧
    exec .prMarginPost s = .next (answered (.value (.byte (byteAt 2))) s) ∧
    exec .prPalette s = .next (answered (.value (.byte (byteAt 3))) s) ∧
    exec .prDensity s = .next (answered (.value (.byte (byteAt 4))) s)

/-! ### RESET (70_reset_and_hazards.md) -/

/-- RESET loads the reset column of every element, keeps the parameters, the storage arrays and the `refused` mark, and answers OK
(R360). -/
def Obligations.ResetLoadsTheResetValues : Prop :=
  ∀ s : State, s.ctx = .host →
    exec .reset s = .next (answered .ok
      { s with
          rx := { bitIndex := 0, acc := 0x00, txShift := 0x00, response := false }
          fb := { data := s.fb.data, head := 0, tail := 0, count := 0, maxFill := 0, overflow := false }
          tm := { idle := 0, armed := false }
          pp := { state := .awaitSync0, index := 0, sum := 0, chk := 0, ready := false }
          pkt := { command := .unknown, commandRaw := 0x00, compression := false, length := 0, payload := s.pkt.payload,
                   stored := 0, status := 0x00, checksumOk := false }
          hsStatus := 0x00
          dec := { mode := .control, remaining := 0, repeatByte := 0x00, inPos := 0 }
          tile := { buf := s.tile.buf, cursor := 0 } })

/-! ### The wire-byte rows of the opcode table (30_encoding.md) -/

/-- A byte processed by PP_PROCESS is the command row its codes give it, in every state of the parser (R94, R192). That a row stands
for PP_PROCESS of its byte is the model's choice (log entry 9). -/
def Obligations.ProcessRunsTheCommandRow : Prop :=
  ∀ (s : State) (b : Byte), exec (.ppProcess b) s = exec (decodeCmd s.cfg.cmdCode b) s

/-- In state COMMAND each command row enters its command, its byte and the checksum, and the parser goes on to COMPRESSION (R32, R94,
R190, R192); the byte of CMD.UNKNOWN is one that is no code. The rows as operations are the model's choice (log entry 9). -/
def Obligations.CommandRowsEnterTheCommand : Prop :=
  ∀ s : State, s.ctx = .main → s.pp.state = .command →
    let entered := fun (k : Command) (b : Byte) => (Host.Outcome.next (answered (.value (.bit false))
      { s with pp := { s.pp with state := .compression, sum := s.pp.sum + b.setWidth 16 }
               pkt := { s.pkt with commandRaw := b, command := k } }) : Step)
    exec .cmdInit s = entered .init s.cfg.cmdCode.init ∧ exec .cmdPrint s = entered .print s.cfg.cmdCode.print ∧
    exec .cmdData s = entered .data s.cfg.cmdCode.data ∧ exec .cmdBreak s = entered .brk s.cfg.cmdCode.brk ∧
    exec .cmdInquiry s = entered .inquiry s.cfg.cmdCode.inquiry ∧
    ∀ b : Byte, b ∉ [s.cfg.cmdCode.init, s.cfg.cmdCode.print, s.cfg.cmdCode.data, s.cfg.cmdCode.brk, s.cfg.cmdCode.inquiry] →
      exec (.cmdUnknown b) s = entered .unknown b

/-- DEC_FEED at a stored control byte is the control row the profile gives that byte (R100, R102, R252). That a row stands for
DEC_FEED at its byte is the model's choice (log entry 9). -/
def Obligations.FeedRunsTheControlRow : Prop :=
  ∀ (s : State) (i : Instr), Inv s →
    decodeRle s.cfg.rleDecode (memGet s.pkt.payload s.dec.inPos.toNat) = some i → exec .decFeed s = exec i s

/-- At a control byte that is the last one stored, each control row begins its run and answers 0 (R100, R102, R250).
The rows as operations are the model's choice (log entry 9). -/
def Obligations.ControlRowsBeginTheirRuns : Prop :=
  ∀ s : State, s.ctx = .main → s.tile.cursor.toNat < 16 → s.pkt.command = .data → s.pkt.compression = true →
    s.dec.mode = .control → s.dec.inPos.toNat + 1 = s.pkt.stored.toNat →
    let begun := fun (m : DecMode) (n : Nat) => (Host.Outcome.next (answered (.value (.bit false))
      { s with dec := { mode := m, remaining := BitVec.ofNat 8 n, repeatByte := s.dec.repeatByte,
                        inPos := s.dec.inPos + 1 } }) : Step)
    (s.cfg.rleDecode = .doc → ∀ (x : Bool) (n : BitVec 6),
      exec (.rleDocLiteral x n) s = begun .literal (n.toNat + 1) ∧
      exec (.rleDocRepeat x n) s = begun .repeatByte (n.toNat + 1)) ∧
    (s.cfg.rleDecode = .gb → ∀ n : BitVec 7,
      exec (.rleGbLiteral n) s = begun .literal (n.toNat + 1) ∧
      exec (.rleGbRepeat n) s = begun .repeatByte (n.toNat + 2))

/-- Where DEC_FEED would not read a control byte under the row's profile, a control row does what DEC_FEED does there (the model's
choice, log entry 9). -/
def Obligations.ControlRowsElsewhereFeed : Prop :=
  ∀ s : State,
    (s.tile.cursor = 16 ∨ s.pkt.command ≠ .data ∨ s.pkt.compression = false ∨ s.dec.mode ≠ .control ∨
        s.dec.inPos = s.pkt.stored ∨ s.cfg.rleDecode ≠ .doc →
      ∀ (x : Bool) (n : BitVec 6),
        exec (.rleDocLiteral x n) s = exec .decFeed s ∧ exec (.rleDocRepeat x n) s = exec .decFeed s) ∧
    (s.tile.cursor = 16 ∨ s.pkt.command ≠ .data ∨ s.pkt.compression = false ∨ s.dec.mode ≠ .control ∨
        s.dec.inPos = s.pkt.stored ∨ s.cfg.rleDecode ≠ .gb →
      ∀ n : BitVec 7, exec (.rleGbLiteral n) s = exec .decFeed s ∧ exec (.rleGbRepeat n) s = exec .decFeed s)

/-! ### Frames: what operations leave alone -/

/-- Frame of the INT operations (R74, R75, R341): an operation issued from the interrupt context changes the receiver and the
FrameBuffer at most; of the FrameBuffer it leaves the head, and every stored byte but the one at the tail. A form that stores no byte
(a push or an eighth edge into a full buffer, an earlier or uncounted edge, a query, a refused operation) leaves the whole FrameBuffer
as it was but for the overflow flag, every byte of its storage included; and only a counted edge changes the receiver. -/
def Obligations.InterruptFrame : Prop :=
  ∀ (i : Instr) (s t : State), s.ctx = .int → exec i s = .next t →
    t = { s with rx := t.rx, fb := t.fb, reply := t.reply, event := t.event, refused := t.refused } ∧
    t.fb.head = s.fb.head ∧ (∀ a, a ≠ s.fb.tail.toNat → memGet t.fb.data a = memGet s.fb.data a) ∧
    (storesByte i s = false →
      t.fb = { s.fb with overflow := t.fb.overflow } ∧ ∀ a, memGet t.fb.data a = memGet s.fb.data a) ∧
    (t.rx ≠ s.rx → ∃ c d, i = .edge c d ∧ (s.cfg.edgeMode = .allEdges ∨ c = true))

/-- Frame of the MAIN operations (R75, R341): they leave the parameters, the FrameBuffer's storage, tail and maximum, and the receiver,
but for a session timeout with RX_RESET_ON_TIMEOUT. -/
def Obligations.MainFrame : Prop :=
  ∀ (i : Instr) (s t : State), s.ctx = .main → exec i s = .next t →
    t.cfg = s.cfg ∧ t.ops = s.ops ∧ t.ctx = s.ctx ∧
    t.fb = { s.fb with head := t.fb.head, count := t.fb.count, overflow := t.fb.overflow } ∧
    (t.rx ≠ s.rx → s.cfg.rxResetOnTimeout = true ∧ t.event = some .sessionTimeout)

/-- Frame of PP_PROCESS and the command rows (R190, R191): they change the parser, the Packet register and, at a frame start only, the
input position; every payload byte but the one at `pp_index` stays, and all of them outside state PAYLOAD, for a byte beyond the
capacity, and where the operation is refused.
The rows as operations are the model's choice (log entry 9). -/
def Obligations.ProcessFrame : Prop :=
  ∀ (i : Instr) (s t : State),
    ((∃ b, i = .ppProcess b) ∨ i = .cmdInit ∨ i = .cmdPrint ∨ i = .cmdData ∨ i = .cmdBreak ∨ i = .cmdInquiry ∨
      ∃ b, i = .cmdUnknown b) → exec i s = .next t →
    t = { s with pp := t.pp, pkt := t.pkt, dec := { s.dec with inPos := t.dec.inPos }, reply := t.reply, event := t.event,
                 refused := t.refused } ∧
    (t.dec.inPos = s.dec.inPos ∨ (t.dec.inPos = 0 ∧ s.pp.state = .awaitSync1)) ∧
    ∀ a, (s.pp.state ≠ .payload ∨ a ≠ s.pp.index.toNat ∨ s.cfg.payloadCap.toNat ≤ s.pp.index.toNat ∨ s.ctx ≠ .main) →
      memGet t.pkt.payload a = memGet s.pkt.payload a

/-- Frame of DEC_FEED and the control rows (R250, R251): they change the run state and the tile; at most one byte is emitted, at the
tile cursor, and every other tile byte stays. The rows as operations are the model's choice (log entry 9). -/
def Obligations.FeedFrame : Prop :=
  ∀ (i : Instr) (s t : State),
    (i = .decFeed ∨ (∃ x n, i = .rleDocLiteral x n) ∨ (∃ x n, i = .rleDocRepeat x n) ∨ (∃ n, i = .rleGbLiteral n) ∨
      ∃ n, i = .rleGbRepeat n) → exec i s = .next t →
    t = { s with dec := t.dec, tile := t.tile, reply := t.reply, event := t.event, refused := t.refused } ∧
    (t.tile = s.tile ∨ t.tile.cursor = s.tile.cursor + 1) ∧
    ∀ a, a ≠ s.tile.cursor.toNat → memGet t.tile.buf a = memGet s.tile.buf a

/-- The status flags of R42 are each set and cleared by the operations its table names, and there alone: `fb_overflow` by a push that
finds the buffer full, FB_CLEAR_OVF and RESET; `tm_armed` by an FB_POP that returns a byte, a TM_TICK that fires and RESET; `pp_ready`
by the parser's KEEPALIVE byte, and by PP_TAKE, the parser's byte after DONE and RESET; `pkt_checksum_ok`, packet-error and
checksum-error by the parser's CHECKSUM_HIGH byte that is equal, its LENGTH_HIGH byte that is too large and its CHECKSUM_HIGH byte that
is unequal, and each by FrameStart, a session reset with no packet waiting to be taken and RESET; tile ready by the feed of the sixteenth
byte, TILE_TAKE and RESET. The parser's bytes are PP_PROCESS and the command rows, and the feeds DEC_FEED and the control rows (the rows as
operations are the model's choice, log entry 9). That `pkt_checksum_ok` is cleared so needs the invariant, which makes it 0 until
CHECKSUM_HIGH. -/
def Obligations.FlagsHaveOnlyTheirWriters : Prop :=
  ∀ (i : Instr) (s t : State), exec i s = .next t →
    let timedOut := (∃ ms, i = .tmTick ms) ∧ t.event = some .sessionTimeout
    let packetCleared := (isProcess i = true ∧ s.pp.state = .awaitSync1 ∧ t.pp.state = .command) ∨
      (timedOut ∧ s.pp.ready = false) ∨ i = .reset
    (s.fb.overflow = false → t.fb.overflow = true →
      s.fb.count = s.cfg.fbCap ∧ ((∃ b, i = .fbPush b) ∨ ∃ c d, i = .edge c d)) ∧
    (s.fb.overflow = true → t.fb.overflow = false → i = .fbClearOvf ∨ i = .reset) ∧
    (s.tm.armed = false → t.tm.armed = true → i = .fbPop ∧ s.fb.count ≠ 0) ∧
    (s.tm.armed = true → t.tm.armed = false → timedOut ∨ i = .reset) ∧
    (s.pp.ready = false → t.pp.ready = true → isProcess i = true ∧ s.pp.state = .keepalive) ∧
    (s.pp.ready = true → t.pp.ready = false → i = .ppTake ∨ (isProcess i = true ∧ s.pp.state = .done) ∨ i = .reset) ∧
    (s.pkt.checksumOk = false → t.pkt.checksumOk = true →
      isProcess i = true ∧ s.pp.state = .checksumHigh ∧ t.pp.chk = s.pp.sum) ∧
    (Inv s → s.pkt.checksumOk = true → t.pkt.checksumOk = false → packetCleared) ∧
    (s.pkt.status.getLsbD 4 = false → t.pkt.status.getLsbD 4 = true →
      isProcess i = true ∧ s.pp.state = .lengthHigh ∧ s.cfg.payloadCap.toNat < t.pkt.length.toNat) ∧
    (s.pkt.status.getLsbD 4 = true → t.pkt.status.getLsbD 4 = false → packetCleared) ∧
    (s.pkt.status.getLsbD 0 = false → t.pkt.status.getLsbD 0 = true →
      isProcess i = true ∧ s.pp.state = .checksumHigh ∧ t.pp.chk ≠ s.pp.sum) ∧
    (s.pkt.status.getLsbD 0 = true → t.pkt.status.getLsbD 0 = false → packetCleared) ∧
    (s.tile.cursor ≠ 16 → t.tile.cursor = 16 → isFeed i = true ∧ s.tile.cursor = 15) ∧
    (s.tile.cursor = 16 → t.tile.cursor ≠ 16 → i = .tileTake ∨ i = .reset)

/-- Every register is written by the operations its rule names alone: the receiver (R21), the FrameBuffer's storage, indices and maximum
(R23, R25), the monitor (R27), the parser's framing state and working registers (R28, R29), the Packet register (R31), the host status
(R36), the run state (R37) and the tile (R38). The parser's bytes are PP_PROCESS and the command rows, and the feeds DEC_FEED and the
control rows (the rows as operations are the model's choice, log entry 9). -/
def Obligations.RegistersHaveOnlyTheirWriters : Prop :=
  ∀ (i : Instr) (s t : State), exec i s = .next t →
    let timedOut := (∃ ms, i = .tmTick ms) ∧ t.event = some .sessionTimeout
    (t.rx ≠ s.rx → (∃ c d, i = .edge c d) ∨ (timedOut ∧ s.cfg.rxResetOnTimeout = true) ∨ i = .reset) ∧
    (t.fb.data ≠ s.fb.data → storesByte i s = true) ∧
    (t.fb.tail ≠ s.fb.tail → storesByte i s = true ∨ i = .reset) ∧
    (t.fb.maxFill ≠ s.fb.maxFill → storesByte i s = true ∨ i = .reset) ∧
    (t.fb.head ≠ s.fb.head → (i = .fbPop ∧ s.fb.count ≠ 0) ∨ i = .reset) ∧
    (t.fb.count ≠ s.fb.count → storesByte i s = true ∨ (i = .fbPop ∧ s.fb.count ≠ 0) ∨ i = .reset) ∧
    (t.tm ≠ s.tm → (i = .fbPop ∧ s.fb.count ≠ 0) ∨ ((∃ ms, i = .tmTick ms) ∧ s.tm.armed = true) ∨ i = .reset) ∧
    (t.pp.state ≠ s.pp.state ∨ t.pp.index ≠ s.pp.index ∨ t.pp.sum ≠ s.pp.sum ∨ t.pp.chk ≠ s.pp.chk →
      isProcess i = true ∨ (timedOut ∧ s.pp.ready = false) ∨ i = .reset) ∧
    (t.pkt ≠ s.pkt → isProcess i = true ∨ (timedOut ∧ s.pp.ready = false) ∨ i = .reset) ∧
    (t.hsStatus ≠ s.hsStatus → (∃ v, i = .hsWrite v) ∨ i = .reset) ∧
    (t.dec.mode ≠ s.dec.mode ∨ t.dec.remaining ≠ s.dec.remaining ∨ t.dec.repeatByte ≠ s.dec.repeatByte →
      isFeed i = true ∨ timedOut ∨ i = .reset) ∧
    (t.dec.inPos ≠ s.dec.inPos →
      isFeed i = true ∨ (isProcess i = true ∧ s.pp.state = .awaitSync1 ∧ t.pp.state = .command) ∨ timedOut ∨ i = .reset) ∧
    (t.tile.buf ≠ s.tile.buf → isFeed i = true) ∧
    (t.tile.cursor ≠ s.tile.cursor → isFeed i = true ∨ i = .tileTake ∨ timedOut ∨ i = .reset)

/-- The queries have no side effect and asking twice gives the same answer twice (R69). -/
def Obligations.QueriesAreIdempotent : Prop :=
  ∀ (i : Instr) (s t : State), isQuery i = true → mayIssue s.ctx i = true → exec i s = .next t →
    t = { s with reply := t.reply, event := none } ∧ exec i t = .next t

/-- What EDGE answers and leaves in the receiver and the FrameBuffer depends on nothing of the main context: two states that agree
on the parameters, the receiver and the FrameBuffer are told apart by no EDGE (R75, R136, 90_conflicts.md C8). -/
def Obligations.EdgeIsBlindToTheMainContext : Prop :=
  ∀ (s u t : State) (c d : Bool), s.ctx = .int → u.ctx = .int → s.cfg = u.cfg → s.rx = u.rx → s.fb = u.fb →
    exec (.edge c d) s = .next t →
    ∃ v, exec (.edge c d) u = .next v ∧ v.rx = t.rx ∧ v.fb = t.fb ∧ v.reply = t.reply ∧ v.event = t.event
end

