-- ==== Sys2Proof/Laws/Encoding.lean ====
section
/-! SUPPORT. The small lemmas of the formats (30_encoding.md rule R111): the opcode and the operand each encoded word holds, and the
fields of an encoded wire byte. -/

namespace Sys2Proof

/-! ### The opcode of an encoded word -/

theorem opcodeOf_encodeN (op : Byte) : opcodeOf (encodeN op) = op := by
  unfold opcodeOf encodeN
  ext i hi
  have h : 24 + i < 32 := by omega
  simp [BitVec.getElem_extractLsb', h, BitVec.getLsbD_eq_getElem hi]

theorem opcodeOf_encodeB (op b : Byte) : opcodeOf (encodeB op b) = op := by
  unfold opcodeOf encodeB
  ext i hi
  have h : 24 + i < 32 := by omega
  simp [BitVec.getElem_extractLsb', h, BitVec.getLsbD_eq_getElem hi, BitVec.getLsbD_of_ge b (24 + i) (by omega)]

theorem opcodeOf_encodeE (op : Byte) (c d : Bool) : opcodeOf (encodeE op c d) = op := by
  unfold opcodeOf encodeE
  ext i hi
  have h : 24 + i < 32 := by omega
  simp [BitVec.getElem_extractLsb', h, BitVec.getLsbD_eq_getElem hi]

theorem opcodeOf_encodeO (op : Byte) (off : Half) : opcodeOf (encodeO op off) = op := by
  unfold opcodeOf encodeO
  ext i hi
  have h : 24 + i < 32 := by omega
  simp [BitVec.getElem_extractLsb', h, BitVec.getLsbD_eq_getElem hi, BitVec.getLsbD_of_ge off (24 + i) (by omega)]

theorem opcodeOf_encodeT (op : Byte) (ms : BitVec 24) : opcodeOf (encodeT op ms) = op := by
  unfold opcodeOf encodeT
  ext i hi
  have h : 24 + i < 32 := by omega
  simp [BitVec.getElem_extractLsb', h, BitVec.getLsbD_eq_getElem hi]

/-! ### The operand of an encoded word -/

theorem decodeN_encodeN (op : Byte) (i : Instr) : decodeN (encodeN op) i = .instr i := by
  have h : (encodeN op).extractLsb' 0 24 = 0 := by
    unfold encodeN
    ext j hj
    simp [BitVec.getElem_extractLsb', hj]
  simp [decodeN, h, ifReservedZero]

theorem decodeB_encodeB (op b : Byte) (f : Byte → Instr) : decodeB (encodeB op b) f = .instr (f b) := by
  have h : (encodeB op b).extractLsb' 8 16 = 0 := by
    unfold encodeB
    ext j hj
    have hj' : 8 + j < 24 := by omega
    simp [BitVec.getElem_extractLsb', hj']
  have hb : imm8Of (encodeB op b) = b := by
    unfold imm8Of encodeB
    ext j hj
    have h1 : j < 32 := by omega
    have h2 : j < 24 := by omega
    simp [BitVec.getElem_extractLsb', h1, h2, hj]
  simp [decodeB, h, hb, ifReservedZero]

theorem decodeE_encodeE (op : Byte) (c d : Bool) (f : Bool → Bool → Instr) : decodeE (encodeE op c d) f = .instr (f c d) := by
  have h : (encodeE op c d).extractLsb' 2 22 = 0 := by
    unfold encodeE
    ext j hj
    have h1 : 2 + j < 24 := by omega
    simp [BitVec.getElem_extractLsb', h1]
  have hc : (encodeE op c d).getLsbD 1 = c := by simp [encodeE]
  have hd : (encodeE op c d).getLsbD 0 = d := by simp [encodeE]
  unfold decodeE
  rw [h, hc, hd]
  rfl

theorem decodeO_encodeO (op : Byte) (off : Half) (f : Half → Instr) : decodeO (encodeO op off) f = .instr (f off) := by
  have h : (encodeO op off).extractLsb' 16 8 = 0 := by
    unfold encodeO
    ext j hj
    have h1 : 16 + j < 24 := by omega
    simp [BitVec.getElem_extractLsb', h1]
  have hb : off16Of (encodeO op off) = off := by
    unfold off16Of encodeO
    ext j hj
    have h1 : j < 32 := by omega
    have h2 : j < 24 := by omega
    simp [BitVec.getElem_extractLsb', h1, h2, hj]
  simp [decodeO, h, hb, ifReservedZero]

theorem decodeT_encodeT (op : Byte) (ms : BitVec 24) (f : BitVec 24 → Instr) : decodeT (encodeT op ms) f = .instr (f ms) := by
  have hb : ms24Of (encodeT op ms) = ms := by
    unfold ms24Of encodeT
    ext j hj
    have h1 : j < 32 := by omega
    simp [BitVec.getElem_extractLsb', h1, hj]
  simp [decodeT, hb]

/-! ### Status bytes and wire bytes -/

theorem statusUnpack_statusPack (f : StatusFlags) : statusUnpack (statusPack f) = f := by
  obtain ⟨a, b, c, d, e, g, h, i⟩ := f
  revert a b c d e g h i
  decide

theorem statusPack_statusUnpack (v : Byte) : statusPack (statusUnpack v) = v := by
  revert v
  decide

theorem decodeRleDoc_encodeRleDoc (mode x : Bool) (n : BitVec 6) :
    decodeRleDoc (encodeRleDoc mode x n) = if mode then .rleDocRepeat x n else .rleDocLiteral x n := by
  have h7 : (encodeRleDoc mode x n).getLsbD 7 = mode := by simp [encodeRleDoc]
  have h6 : (encodeRleDoc mode x n).getLsbD 6 = x := by simp [encodeRleDoc]
  have hn : (encodeRleDoc mode x n).extractLsb' 0 6 = n := by
    unfold encodeRleDoc
    ext j hj
    have h1 : j < 8 := by omega
    have h2 : j < 7 := by omega
    simp [BitVec.getElem_extractLsb', h1, h2, hj]
  unfold decodeRleDoc
  rw [h7, h6, hn]

theorem decodeRleGb_encodeRleGb (mode : Bool) (n : BitVec 7) :
    decodeRleGb (encodeRleGb mode n) = if mode then .rleGbRepeat n else .rleGbLiteral n := by
  have h7 : (encodeRleGb mode n).getLsbD 7 = mode := by simp [encodeRleGb]
  have hn : (encodeRleGb mode n).extractLsb' 0 7 = n := by
    unfold encodeRleGb
    ext j hj
    have h1 : j < 8 := by omega
    simp [BitVec.getElem_extractLsb', h1, hj]
  unfold decodeRleGb
  rw [h7, hn]

end Sys2Proof
end

