-- ==== Sys2Proof/Laws/Memory.lean ====
section
/-! SUPPORT. The laws of the storage spaces: a read after a write, the canonical form kept by every storage operation, and what
the one-byte accesses answer. -/

namespace Sys2Proof.Machine

theorem memGet_memCons_ne {a c : Nat} (b : Byte) (rest : List Host.Cell) (h : c ≠ a) :
    memGet (memCons a b rest) c = memGet rest c := by
  unfold memCons
  split
  · rfl
  · simp [memGet, Ne.symm h]

/-- A write leaves every other index alone. -/
theorem memGet_memSet_ne (m : List Host.Cell) {a c : Nat} (b : Byte) (h : c ≠ a) :
    memGet (memSet m a b) c = memGet m c := by
  induction m with
  | nil => exact memGet_memCons_ne b [] h
  | cons x rest ih =>
    obtain ⟨k, v⟩ := x
    unfold memSet
    split
    · exact memGet_memCons_ne b _ h
    · split
      · rename_i _ hk
        rw [memGet_memCons_ne b _ h]
        subst hk
        simp [memGet, Ne.symm h]
      · simp only [memGet, ih]

theorem memWfFrom_mono {lo lo' : Nat} (h : lo' ≤ lo) : ∀ {m : List Host.Cell}, memWfFrom lo m = true → memWfFrom lo' m = true
  | [], _ => rfl
  | (k, v) :: rest, hm => by
    simp only [memWfFrom, Bool.and_eq_true, decide_eq_true_eq] at hm ⊢
    exact ⟨⟨h.trans hm.1.1, hm.1.2⟩, hm.2⟩

/-- Below the first index a canonical memory may list, nothing is written. -/
theorem memGet_below : ∀ {m : List Host.Cell} {lo a : Nat}, memWfFrom lo m = true → a < lo → memGet m a = unwritten
  | [], _, _, _, _ => rfl
  | (k, v) :: rest, lo, a, hm, ha => by
    simp only [memWfFrom, Bool.and_eq_true, decide_eq_true_eq] at hm
    have hk : k ≠ a := by omega
    simp only [memGet, hk, if_false]
    exact memGet_below hm.2 (by omega)

theorem memGet_memCons_same {lo a : Nat} (b : Byte) {rest : List Host.Cell} (hm : memWfFrom lo rest = true) (h : a < lo) :
    memGet (memCons a b rest) a = b := by
  unfold memCons
  split
  · rename_i hb
    rw [hb]
    exact memGet_below hm h
  · simp [memGet]

/-- A read after a write to the same index gives the byte written. -/
theorem memGet_memSet_same : ∀ {m : List Host.Cell} {lo : Nat} (a : Nat) (b : Byte), memWfFrom lo m = true →
    memGet (memSet m a b) a = b
  | [], _, a, b, _ => memGet_memCons_same (lo := a + 1) b rfl (by omega)
  | (k, v) :: rest, lo, a, b, hm => by
    have hm' := hm
    simp only [memWfFrom, Bool.and_eq_true, decide_eq_true_eq] at hm
    unfold memSet
    split
    · rename_i hk
      refine memGet_memCons_same (lo := k) b ?_ hk
      simp only [memWfFrom, Bool.and_eq_true, decide_eq_true_eq]
      exact ⟨⟨le_refl k, hm.1.2⟩, hm.2⟩
    · split
      · rename_i _ hk
        exact memGet_memCons_same b hm.2 (by omega)
      · rename_i _ hk
        simp only [memGet, Ne.symm hk, if_false]
        exact memGet_memSet_same a b hm.2

theorem memWfFrom_memCons {lo a : Nat} (b : Byte) {rest : List Host.Cell} (hm : memWfFrom (a + 1) rest = true) (h : lo ≤ a) :
    memWfFrom lo (memCons a b rest) = true := by
  unfold memCons
  split
  · exact memWfFrom_mono (by omega) hm
  · rename_i hb
    simp only [memWfFrom, Bool.and_eq_true, decide_eq_true_eq]
    exact ⟨⟨h, by simp [hb]⟩, hm⟩

/-- A write keeps the indices strictly rising and the list free of unwritten values. -/
theorem memWfFrom_memSet : ∀ {m : List Host.Cell} {lo : Nat} (a : Nat) (b : Byte), memWfFrom lo m = true → lo ≤ a →
    memWfFrom lo (memSet m a b) = true
  | [], _, a, b, _, h => memWfFrom_memCons (rest := []) b rfl h
  | (k, v) :: rest, lo, a, b, hm, h => by
    have hm' := hm
    simp only [memWfFrom, Bool.and_eq_true, decide_eq_true_eq] at hm
    unfold memSet
    split
    · rename_i hk
      refine memWfFrom_memCons b ?_ h
      simp only [memWfFrom, Bool.and_eq_true, decide_eq_true_eq]
      exact ⟨⟨by omega, hm.1.2⟩, hm.2⟩
    · split
      · rename_i _ hk
        subst hk
        exact memWfFrom_memCons b hm.2 h
      · simp only [memWfFrom, Bool.and_eq_true, decide_eq_true_eq]
        exact ⟨⟨hm.1.1, hm.1.2⟩, memWfFrom_memSet a b hm.2 (by omega)⟩

theorem all_memCons {size a : Nat} (b : Byte) {rest : List Host.Cell} (hm : rest.all (fun c => decide (c.1 < size)) = true)
    (h : a < size) : (memCons a b rest).all (fun c => decide (c.1 < size)) = true := by
  unfold memCons
  split
  · exact hm
  · simp only [List.all_cons, Bool.and_eq_true, decide_eq_true_eq]
    exact ⟨h, hm⟩

theorem all_memSet {size a : Nat} (b : Byte) (h : a < size) : ∀ {m : List Host.Cell},
    m.all (fun c => decide (c.1 < size)) = true → (memSet m a b).all (fun c => decide (c.1 < size)) = true
  | [], _ => all_memCons b rfl h
  | (k, v) :: rest, hm => by
    have hm' := hm
    simp only [List.all_cons, Bool.and_eq_true, decide_eq_true_eq] at hm
    unfold memSet
    split
    · exact all_memCons b hm' h
    · split
      · exact all_memCons b hm.2 h
      · simp only [List.all_cons, Bool.and_eq_true, decide_eq_true_eq]
        exact ⟨hm.1, all_memSet b h hm.2⟩

/-- A write within the space keeps the canonical form. -/
theorem memWf_memSet {size a : Nat} {m : List Host.Cell} (b : Byte) (hm : memWf size m = true) (h : a < size) :
    memWf size (memSet m a b) = true := by
  unfold memWf at hm ⊢
  rw [Bool.and_eq_true] at hm ⊢
  exact ⟨memWfFrom_memSet a b hm.1 (Nat.zero_le a), all_memSet b h hm.2⟩

/-- Canonical memories with the same byte at every index are the same data. -/
theorem memWfFrom_ext : ∀ {m n : List Host.Cell} {lo : Nat}, memWfFrom lo m = true → memWfFrom lo n = true →
    (∀ a, memGet m a = memGet n a) → m = n
  | [], [], _, _, _, _ => rfl
  | [], (k, v) :: rest, lo, _, hn, h => by
    simp only [memWfFrom, Bool.and_eq_true, decide_eq_true_eq] at hn
    have := h k
    simp only [memGet, if_true] at this
    simp [← this] at hn
  | (k, v) :: rest, [], lo, hm, _, h => by
    simp only [memWfFrom, Bool.and_eq_true, decide_eq_true_eq] at hm
    have := h k
    simp only [memGet, if_true] at this
    simp [this] at hm
  | (k, v) :: m, (l, w) :: n, lo, hm, hn, h => by
    have hm' := hm
    have hn' := hn
    simp only [memWfFrom, Bool.and_eq_true, decide_eq_true_eq, bne_iff_ne, ne_eq] at hm hn
    have below : ∀ {x y : Nat} {p : List Host.Cell}, memWfFrom (y + 1) p = true → x ≤ y → memGet p x = unwritten :=
      fun hp hxy => memGet_below hp (by omega)
    have hkl : k = l := by
      rcases Nat.lt_trichotomy k l with hlt | heq | hgt
      · have hk := h k
        have hne : l ≠ k := by omega
        simp only [memGet, if_true, hne, if_false] at hk
        rw [below hn.2 hlt.le] at hk
        exact absurd hk hm.1.2
      · exact heq
      · have hl := h l
        have hne : k ≠ l := by omega
        simp only [memGet, if_true, hne, if_false] at hl
        rw [below hm.2 hgt.le] at hl
        exact absurd hl.symm hn.1.2
    subst hkl
    have hv : v = w := by
      have hk := h k
      simpa only [memGet, if_true] using hk
    subst hv
    have hrest : m = n := memWfFrom_ext hm.2 hn.2 fun a => by
      by_cases ha : k = a
      · subst ha
        rw [below hm.2 (le_refl k), below hn.2 (le_refl k)]
      · have hk := h a
        simpa only [memGet, ha, if_false] using hk
    rw [hrest]

/-! ### The accesses of a space -/

theorem spaceRead_of_lt {size i : Nat} (m : List Host.Cell) (h : i < size) : spaceRead size m i = some (memGet m i) := by
  simp [spaceRead, h]

theorem spaceWrite_of_lt {size i : Nat} (m : List Host.Cell) (b : Byte) (h : i < size) :
    spaceWrite size m i b = some (memSet m i b) := by
  simp [spaceWrite, h]

theorem spaceWrite_of_ge {size i : Nat} (m : List Host.Cell) (b : Byte) (h : size ≤ i) : spaceWrite size m i b = none := by
  simp [spaceWrite, Nat.not_lt.mpr h]

/-- A write that lands is the write of one byte within the space. -/
theorem spaceWrite_some {size i : Nat} {m n : List Host.Cell} {b : Byte} (h : spaceWrite size m i b = some n) :
    i < size ∧ n = memSet m i b := by
  unfold spaceWrite at h
  split at h
  · rename_i hi
    exact ⟨hi, (Option.some.inj h).symm⟩
  · cases h

theorem spaceWrite_memWf {size i : Nat} {m n : List Host.Cell} {b : Byte} (h : spaceWrite size m i b = some n)
    (hm : memWf size m = true) : memWf size n = true := by
  obtain ⟨hi, rfl⟩ := spaceWrite_some h
  exact memWf_memSet b hm hi

theorem spaceRun_of_le {size n : Nat} (m : List Host.Cell) (h : n ≤ size) :
    spaceRun size m n = some ((List.range n).map (memGet m)) := by
  simp [spaceRun, h]

end Sys2Proof.Machine
end

