-- ==== Sys2Proof/Laws/State.lean ====
section
/-! SUPPORT. One lemma per field per named update of the state, so that no later proof unfolds an update. -/

namespace Sys2Proof.Machine

/-! ### The cleared registers -/

@[simp] theorem packetCleared_payload (p : Packet) : (packetCleared p).payload = p.payload := rfl
@[simp] theorem packetCleared_command (p : Packet) : (packetCleared p).command = .unknown := rfl
@[simp] theorem packetCleared_commandRaw (p : Packet) : (packetCleared p).commandRaw = 0x00 := rfl
@[simp] theorem packetCleared_compression (p : Packet) : (packetCleared p).compression = false := rfl
@[simp] theorem packetCleared_length (p : Packet) : (packetCleared p).length = 0 := rfl
@[simp] theorem packetCleared_stored (p : Packet) : (packetCleared p).stored = 0 := rfl
@[simp] theorem packetCleared_status (p : Packet) : (packetCleared p).status = 0x00 := rfl
@[simp] theorem packetCleared_checksumOk (p : Packet) : (packetCleared p).checksumOk = false := rfl
@[simp] theorem parserCleared_state (p : Parser) : (parserCleared p).state = p.state := rfl
@[simp] theorem parserCleared_index (p : Parser) : (parserCleared p).index = 0 := rfl
@[simp] theorem parserCleared_sum (p : Parser) : (parserCleared p).sum = 0 := rfl
@[simp] theorem parserCleared_chk (p : Parser) : (parserCleared p).chk = 0 := rfl
@[simp] theorem parserCleared_ready (p : Parser) : (parserCleared p).ready = p.ready := rfl

/-! ### goTo -/

@[simp] theorem goTo_cfg (t : ParserState) (s : State) : (goTo t s).cfg = s.cfg := rfl
@[simp] theorem goTo_rx (t : ParserState) (s : State) : (goTo t s).rx = s.rx := rfl
@[simp] theorem goTo_fb (t : ParserState) (s : State) : (goTo t s).fb = s.fb := rfl
@[simp] theorem goTo_tm (t : ParserState) (s : State) : (goTo t s).tm = s.tm := rfl
@[simp] theorem goTo_pp (t : ParserState) (s : State) : (goTo t s).pp = { s.pp with state := t } := rfl
@[simp] theorem goTo_pkt (t : ParserState) (s : State) : (goTo t s).pkt = s.pkt := rfl
@[simp] theorem goTo_hsStatus (t : ParserState) (s : State) : (goTo t s).hsStatus = s.hsStatus := rfl
@[simp] theorem goTo_dec (t : ParserState) (s : State) : (goTo t s).dec = s.dec := rfl
@[simp] theorem goTo_tile (t : ParserState) (s : State) : (goTo t s).tile = s.tile := rfl
@[simp] theorem goTo_ops (t : ParserState) (s : State) : (goTo t s).ops = s.ops := rfl
@[simp] theorem goTo_ctx (t : ParserState) (s : State) : (goTo t s).ctx = s.ctx := rfl
@[simp] theorem goTo_reply (t : ParserState) (s : State) : (goTo t s).reply = s.reply := rfl
@[simp] theorem goTo_event (t : ParserState) (s : State) : (goTo t s).event = s.event := rfl
@[simp] theorem goTo_refused (t : ParserState) (s : State) : (goTo t s).refused = s.refused := rfl

/-! ### sumGoTo -/

@[simp] theorem sumGoTo_cfg (b : Byte) (t : ParserState) (s : State) : (sumGoTo b t s).cfg = s.cfg := rfl
@[simp] theorem sumGoTo_rx (b : Byte) (t : ParserState) (s : State) : (sumGoTo b t s).rx = s.rx := rfl
@[simp] theorem sumGoTo_fb (b : Byte) (t : ParserState) (s : State) : (sumGoTo b t s).fb = s.fb := rfl
@[simp] theorem sumGoTo_tm (b : Byte) (t : ParserState) (s : State) : (sumGoTo b t s).tm = s.tm := rfl
@[simp] theorem sumGoTo_pp (b : Byte) (t : ParserState) (s : State) : (sumGoTo b t s).pp = { s.pp with state := t, sum := sumAdd s.pp.sum b } := rfl
@[simp] theorem sumGoTo_pkt (b : Byte) (t : ParserState) (s : State) : (sumGoTo b t s).pkt = s.pkt := rfl
@[simp] theorem sumGoTo_hsStatus (b : Byte) (t : ParserState) (s : State) : (sumGoTo b t s).hsStatus = s.hsStatus := rfl
@[simp] theorem sumGoTo_dec (b : Byte) (t : ParserState) (s : State) : (sumGoTo b t s).dec = s.dec := rfl
@[simp] theorem sumGoTo_tile (b : Byte) (t : ParserState) (s : State) : (sumGoTo b t s).tile = s.tile := rfl
@[simp] theorem sumGoTo_ops (b : Byte) (t : ParserState) (s : State) : (sumGoTo b t s).ops = s.ops := rfl
@[simp] theorem sumGoTo_ctx (b : Byte) (t : ParserState) (s : State) : (sumGoTo b t s).ctx = s.ctx := rfl
@[simp] theorem sumGoTo_reply (b : Byte) (t : ParserState) (s : State) : (sumGoTo b t s).reply = s.reply := rfl
@[simp] theorem sumGoTo_event (b : Byte) (t : ParserState) (s : State) : (sumGoTo b t s).event = s.event := rfl
@[simp] theorem sumGoTo_refused (b : Byte) (t : ParserState) (s : State) : (sumGoTo b t s).refused = s.refused := rfl

/-! ### frameStart -/

@[simp] theorem frameStart_cfg (s : State) : (frameStart s).cfg = s.cfg := rfl
@[simp] theorem frameStart_rx (s : State) : (frameStart s).rx = s.rx := rfl
@[simp] theorem frameStart_fb (s : State) : (frameStart s).fb = s.fb := rfl
@[simp] theorem frameStart_tm (s : State) : (frameStart s).tm = s.tm := rfl
@[simp] theorem frameStart_pp (s : State) : (frameStart s).pp = parserCleared s.pp := rfl
@[simp] theorem frameStart_pkt (s : State) : (frameStart s).pkt = packetCleared s.pkt := rfl
@[simp] theorem frameStart_hsStatus (s : State) : (frameStart s).hsStatus = s.hsStatus := rfl
@[simp] theorem frameStart_dec (s : State) : (frameStart s).dec = { s.dec with inPos := 0 } := rfl
@[simp] theorem frameStart_tile (s : State) : (frameStart s).tile = s.tile := rfl
@[simp] theorem frameStart_ops (s : State) : (frameStart s).ops = s.ops := rfl
@[simp] theorem frameStart_ctx (s : State) : (frameStart s).ctx = s.ctx := rfl
@[simp] theorem frameStart_reply (s : State) : (frameStart s).reply = s.reply := rfl
@[simp] theorem frameStart_event (s : State) : (frameStart s).event = s.event := rfl
@[simp] theorem frameStart_refused (s : State) : (frameStart s).refused = s.refused := rfl

/-! ### leaveDone -/

@[simp] theorem leaveDone_cfg (s : State) : (leaveDone s).cfg = s.cfg := rfl
@[simp] theorem leaveDone_rx (s : State) : (leaveDone s).rx = s.rx := rfl
@[simp] theorem leaveDone_fb (s : State) : (leaveDone s).fb = s.fb := rfl
@[simp] theorem leaveDone_tm (s : State) : (leaveDone s).tm = s.tm := rfl
@[simp] theorem leaveDone_pp (s : State) : (leaveDone s).pp = { s.pp with ready := false, state := .awaitSync0 } := rfl
@[simp] theorem leaveDone_pkt (s : State) : (leaveDone s).pkt = s.pkt := rfl
@[simp] theorem leaveDone_hsStatus (s : State) : (leaveDone s).hsStatus = s.hsStatus := rfl
@[simp] theorem leaveDone_dec (s : State) : (leaveDone s).dec = s.dec := rfl
@[simp] theorem leaveDone_tile (s : State) : (leaveDone s).tile = s.tile := rfl
@[simp] theorem leaveDone_ops (s : State) : (leaveDone s).ops = s.ops := rfl
@[simp] theorem leaveDone_ctx (s : State) : (leaveDone s).ctx = s.ctx := rfl
@[simp] theorem leaveDone_reply (s : State) : (leaveDone s).reply = s.reply := rfl
@[simp] theorem leaveDone_event (s : State) : (leaveDone s).event = s.event := rfl
@[simp] theorem leaveDone_refused (s : State) : (leaveDone s).refused = s.refused := rfl

/-! ### placeFirst -/

@[simp] theorem placeFirst_cfg (c : Ctx) (w : OpWord) (s : State) : (placeFirst c w s).cfg = s.cfg := rfl
@[simp] theorem placeFirst_rx (c : Ctx) (w : OpWord) (s : State) : (placeFirst c w s).rx = s.rx := rfl
@[simp] theorem placeFirst_fb (c : Ctx) (w : OpWord) (s : State) : (placeFirst c w s).fb = s.fb := rfl
@[simp] theorem placeFirst_tm (c : Ctx) (w : OpWord) (s : State) : (placeFirst c w s).tm = s.tm := rfl
@[simp] theorem placeFirst_pp (c : Ctx) (w : OpWord) (s : State) : (placeFirst c w s).pp = s.pp := rfl
@[simp] theorem placeFirst_pkt (c : Ctx) (w : OpWord) (s : State) : (placeFirst c w s).pkt = s.pkt := rfl
@[simp] theorem placeFirst_hsStatus (c : Ctx) (w : OpWord) (s : State) : (placeFirst c w s).hsStatus = s.hsStatus := rfl
@[simp] theorem placeFirst_dec (c : Ctx) (w : OpWord) (s : State) : (placeFirst c w s).dec = s.dec := rfl
@[simp] theorem placeFirst_tile (c : Ctx) (w : OpWord) (s : State) : (placeFirst c w s).tile = s.tile := rfl
@[simp] theorem placeFirst_ops (c : Ctx) (w : OpWord) (s : State) : (placeFirst c w s).ops = { ctx := c, word := w } :: s.ops := rfl
@[simp] theorem placeFirst_ctx (c : Ctx) (w : OpWord) (s : State) : (placeFirst c w s).ctx = s.ctx := rfl
@[simp] theorem placeFirst_reply (c : Ctx) (w : OpWord) (s : State) : (placeFirst c w s).reply = s.reply := rfl
@[simp] theorem placeFirst_event (c : Ctx) (w : OpWord) (s : State) : (placeFirst c w s).event = s.event := rfl
@[simp] theorem placeFirst_refused (c : Ctx) (w : OpWord) (s : State) : (placeFirst c w s).refused = s.refused := rfl

/-! ### resetState -/

@[simp] theorem resetState_cfg (s : State) : (resetState s).cfg = s.cfg := rfl
@[simp] theorem resetState_rx (s : State) : (resetState s).rx = rxClear := rfl
@[simp] theorem resetState_fb (s : State) : (resetState s).fb = { s.fb with head := 0, tail := 0, count := 0, overflow := false, maxFill := 0 } := rfl
@[simp] theorem resetState_tm (s : State) : (resetState s).tm = { idle := 0, armed := false } := rfl
@[simp] theorem resetState_pp (s : State) : (resetState s).pp = { state := .awaitSync0, ready := false, index := 0, sum := 0, chk := 0 } := rfl
@[simp] theorem resetState_pkt (s : State) : (resetState s).pkt = packetCleared s.pkt := rfl
@[simp] theorem resetState_hsStatus (s : State) : (resetState s).hsStatus = 0x00 := rfl
@[simp] theorem resetState_dec (s : State) : (resetState s).dec = { mode := .control, remaining := 0, repeatByte := 0x00, inPos := 0 } := rfl
@[simp] theorem resetState_tile (s : State) : (resetState s).tile = { s.tile with cursor := 0 } := rfl
@[simp] theorem resetState_ops (s : State) : (resetState s).ops = s.ops := rfl
@[simp] theorem resetState_ctx (s : State) : (resetState s).ctx = s.ctx := rfl
@[simp] theorem resetState_reply (s : State) : (resetState s).reply = s.reply := rfl
@[simp] theorem resetState_event (s : State) : (resetState s).event = s.event := rfl
@[simp] theorem resetState_refused (s : State) : (resetState s).refused = s.refused := rfl

/-! ### decSessionReset -/

@[simp] theorem decSessionReset_cfg (s : State) : (decSessionReset s).cfg = s.cfg := rfl
@[simp] theorem decSessionReset_rx (s : State) : (decSessionReset s).rx = s.rx := rfl
@[simp] theorem decSessionReset_fb (s : State) : (decSessionReset s).fb = s.fb := rfl
@[simp] theorem decSessionReset_tm (s : State) : (decSessionReset s).tm = s.tm := rfl
@[simp] theorem decSessionReset_pp (s : State) : (decSessionReset s).pp = s.pp := rfl
@[simp] theorem decSessionReset_pkt (s : State) : (decSessionReset s).pkt = s.pkt := rfl
@[simp] theorem decSessionReset_hsStatus (s : State) : (decSessionReset s).hsStatus = s.hsStatus := rfl
@[simp] theorem decSessionReset_dec (s : State) : (decSessionReset s).dec = { mode := .control, remaining := 0, repeatByte := 0x00, inPos := s.pkt.stored } := rfl
@[simp] theorem decSessionReset_tile (s : State) : (decSessionReset s).tile = if s.tile.cursor < 16 then { s.tile with cursor := 0 } else s.tile := rfl
@[simp] theorem decSessionReset_ops (s : State) : (decSessionReset s).ops = s.ops := rfl
@[simp] theorem decSessionReset_ctx (s : State) : (decSessionReset s).ctx = s.ctx := rfl
@[simp] theorem decSessionReset_reply (s : State) : (decSessionReset s).reply = s.reply := rfl
@[simp] theorem decSessionReset_event (s : State) : (decSessionReset s).event = s.event := rfl
@[simp] theorem decSessionReset_refused (s : State) : (decSessionReset s).refused = s.refused := rfl

/-! ### rxSessionReset -/

@[simp] theorem rxSessionReset_cfg (s : State) : (rxSessionReset s).cfg = s.cfg := by
  unfold rxSessionReset; split <;> rfl
@[simp] theorem rxSessionReset_rx (s : State) : (rxSessionReset s).rx = if s.cfg.rxResetOnTimeout then rxClear else s.rx := by
  unfold rxSessionReset; split <;> rfl
@[simp] theorem rxSessionReset_fb (s : State) : (rxSessionReset s).fb = s.fb := by
  unfold rxSessionReset; split <;> rfl
@[simp] theorem rxSessionReset_tm (s : State) : (rxSessionReset s).tm = s.tm := by
  unfold rxSessionReset; split <;> rfl
@[simp] theorem rxSessionReset_pp (s : State) : (rxSessionReset s).pp = s.pp := by
  unfold rxSessionReset; split <;> rfl
@[simp] theorem rxSessionReset_pkt (s : State) : (rxSessionReset s).pkt = s.pkt := by
  unfold rxSessionReset; split <;> rfl
@[simp] theorem rxSessionReset_hsStatus (s : State) : (rxSessionReset s).hsStatus = s.hsStatus := by
  unfold rxSessionReset; split <;> rfl
@[simp] theorem rxSessionReset_dec (s : State) : (rxSessionReset s).dec = s.dec := by
  unfold rxSessionReset; split <;> rfl
@[simp] theorem rxSessionReset_tile (s : State) : (rxSessionReset s).tile = s.tile := by
  unfold rxSessionReset; split <;> rfl
@[simp] theorem rxSessionReset_ops (s : State) : (rxSessionReset s).ops = s.ops := by
  unfold rxSessionReset; split <;> rfl
@[simp] theorem rxSessionReset_ctx (s : State) : (rxSessionReset s).ctx = s.ctx := by
  unfold rxSessionReset; split <;> rfl
@[simp] theorem rxSessionReset_reply (s : State) : (rxSessionReset s).reply = s.reply := by
  unfold rxSessionReset; split <;> rfl
@[simp] theorem rxSessionReset_event (s : State) : (rxSessionReset s).event = s.event := by
  unfold rxSessionReset; split <;> rfl
@[simp] theorem rxSessionReset_refused (s : State) : (rxSessionReset s).refused = s.refused := by
  unfold rxSessionReset; split <;> rfl

/-! ### parserSessionReset -/

@[simp] theorem parserSessionReset_cfg (s : State) : (parserSessionReset s).cfg = s.cfg := by
  unfold parserSessionReset; split <;> rfl
@[simp] theorem parserSessionReset_rx (s : State) : (parserSessionReset s).rx = s.rx := by
  unfold parserSessionReset; split <;> rfl
@[simp] theorem parserSessionReset_fb (s : State) : (parserSessionReset s).fb = s.fb := by
  unfold parserSessionReset; split <;> rfl
@[simp] theorem parserSessionReset_tm (s : State) : (parserSessionReset s).tm = s.tm := by
  unfold parserSessionReset; split <;> rfl
@[simp] theorem parserSessionReset_pp (s : State) : (parserSessionReset s).pp = if s.pp.ready then s.pp else { parserCleared s.pp with state := .awaitSync0 } := by
  unfold parserSessionReset; split <;> rfl
@[simp] theorem parserSessionReset_pkt (s : State) : (parserSessionReset s).pkt = if s.pp.ready then s.pkt else packetCleared s.pkt := by
  unfold parserSessionReset; split <;> rfl
@[simp] theorem parserSessionReset_hsStatus (s : State) : (parserSessionReset s).hsStatus = s.hsStatus := by
  unfold parserSessionReset; split <;> rfl
@[simp] theorem parserSessionReset_dec (s : State) : (parserSessionReset s).dec = s.dec := by
  unfold parserSessionReset; split <;> rfl
@[simp] theorem parserSessionReset_tile (s : State) : (parserSessionReset s).tile = s.tile := by
  unfold parserSessionReset; split <;> rfl
@[simp] theorem parserSessionReset_ops (s : State) : (parserSessionReset s).ops = s.ops := by
  unfold parserSessionReset; split <;> rfl
@[simp] theorem parserSessionReset_ctx (s : State) : (parserSessionReset s).ctx = s.ctx := by
  unfold parserSessionReset; split <;> rfl
@[simp] theorem parserSessionReset_reply (s : State) : (parserSessionReset s).reply = s.reply := by
  unfold parserSessionReset; split <;> rfl
@[simp] theorem parserSessionReset_event (s : State) : (parserSessionReset s).event = s.event := by
  unfold parserSessionReset; split <;> rfl
@[simp] theorem parserSessionReset_refused (s : State) : (parserSessionReset s).refused = s.refused := by
  unfold parserSessionReset; split <;> rfl

/-! ### sessionTimeout -/

@[simp] theorem sessionTimeout_cfg (s : State) : (sessionTimeout s).cfg = s.cfg := by
  simp [sessionTimeout]
@[simp] theorem sessionTimeout_rx (s : State) : (sessionTimeout s).rx = if s.cfg.rxResetOnTimeout then rxClear else s.rx := by
  simp [sessionTimeout]
@[simp] theorem sessionTimeout_fb (s : State) : (sessionTimeout s).fb = s.fb := by
  simp [sessionTimeout]
@[simp] theorem sessionTimeout_tm (s : State) : (sessionTimeout s).tm = s.tm := by
  simp [sessionTimeout]
@[simp] theorem sessionTimeout_pp (s : State) : (sessionTimeout s).pp = if s.pp.ready then s.pp else { parserCleared s.pp with state := .awaitSync0 } := by
  simp [sessionTimeout]
@[simp] theorem sessionTimeout_pkt (s : State) : (sessionTimeout s).pkt = if s.pp.ready then s.pkt else packetCleared s.pkt := by
  simp [sessionTimeout]
@[simp] theorem sessionTimeout_hsStatus (s : State) : (sessionTimeout s).hsStatus = s.hsStatus := by
  simp [sessionTimeout]
@[simp] theorem sessionTimeout_dec (s : State) : (sessionTimeout s).dec =
    { mode := .control, remaining := 0, repeatByte := 0x00, inPos := if s.pp.ready then s.pkt.stored else 0 } := by
  simp only [sessionTimeout, rxSessionReset_dec, decSessionReset_dec, parserSessionReset_pkt]
  split <;> rfl
@[simp] theorem sessionTimeout_tile (s : State) : (sessionTimeout s).tile = if s.tile.cursor < 16 then { s.tile with cursor := 0 } else s.tile := by
  simp [sessionTimeout]
@[simp] theorem sessionTimeout_ops (s : State) : (sessionTimeout s).ops = s.ops := by
  simp [sessionTimeout]
@[simp] theorem sessionTimeout_ctx (s : State) : (sessionTimeout s).ctx = s.ctx := by
  simp [sessionTimeout]
@[simp] theorem sessionTimeout_reply (s : State) : (sessionTimeout s).reply = s.reply := by
  simp [sessionTimeout]
@[simp] theorem sessionTimeout_event (s : State) : (sessionTimeout s).event = s.event := by
  simp [sessionTimeout]
@[simp] theorem sessionTimeout_refused (s : State) : (sessionTimeout s).refused = s.refused := by
  simp [sessionTimeout]

end Sys2Proof.Machine
end

