-- ==== Sys2Proof/Laws/Ops.lean ====
section
/-! SUPPORT. One lemma per shared operation, saying everything it can do. Later proofs cite these and do not unfold the operation. -/

namespace Sys2Proof.Machine

/-! ### How an operation ends -/

theorem raising_next {e : Option Event} {r : Result} {s t : State} :
    raising e r s = .next t ↔ t = { s with reply := .returned r, event := e } := by
  unfold raising
  constructor
  · intro h; injection h with h; exact h.symm
  · rintro rfl; rfl

theorem returning_next {r : Result} {s t : State} :
    returning r s = .next t ↔ t = { s with reply := .returned r, event := none } := raising_next

theorem returningValue_next {v : Value} {s t : State} :
    returningValue v s = .next t ↔ t = { s with reply := .returned (.value v), event := none } := raising_next

theorem refuse_next {why : RefuseReason} {s t : State} :
    refuse why s = .next t ↔ t = { s with reply := .refused why, event := none, refused := true } := by
  unfold refuse
  constructor
  · intro h; injection h with h; exact h.symm
  · rintro rfl; rfl

theorem notReadyYet_next {s t : State} :
    notReadyYet s = .next t ↔ t = { s with reply := .returned (.value (.bit false)), event := none } := raising_next

theorem noTile_next {s t : State} :
    noTile s = .next t ↔ t = { s with reply := .returned (.value (.bit false)), event := none } := raising_next

theorem reportTile_next {s t : State} :
    reportTile s = .next t ↔ t = { s with reply := .returned (.value (.bit (tileFull s.tile))), event := none } := raising_next

/-! ### The access discipline -/

theorem inContext_of_permits {g : Tag} {s : State} {k : Step} (h : permits g s.ctx = true) : inContext g s k = k := by
  simp [inContext, h]

theorem inContext_of_not_permits {g : Tag} {s : State} {k : Step} (h : permits g s.ctx = false) :
    inContext g s k = refuse .wrongContext s := by
  simp [inContext, h]

/-- A guarded operation answers a next state in one of two ways: it ran, or it was refused. -/
theorem inContext_next {g : Tag} {s t : State} {k : Step} (h : inContext g s k = .next t) :
    (permits g s.ctx = true ∧ k = .next t) ∨
      (permits g s.ctx = false ∧ t = { s with reply := .refused .wrongContext, event := none, refused := true }) := by
  unfold inContext at h
  split at h
  · rename_i hp
    exact .inl ⟨hp, h⟩
  · rename_i hp
    exact .inr ⟨by simpa using hp, refuse_next.mp h⟩

@[simp] theorem permits_int_int : permits .int .int = true := rfl
@[simp] theorem permits_int_main : permits .int .main = false := rfl
@[simp] theorem permits_int_host : permits .int .host = false := rfl
@[simp] theorem permits_main_int : permits .main .int = false := rfl
@[simp] theorem permits_main_main : permits .main .main = true := rfl
@[simp] theorem permits_main_host : permits .main .host = false := rfl
@[simp] theorem permits_any_int : permits .any .int = true := rfl
@[simp] theorem permits_any_main : permits .any .main = true := rfl
@[simp] theorem permits_any_host : permits .any .host = false := rfl
@[simp] theorem permits_host_int : permits .host .int = false := rfl
@[simp] theorem permits_host_main : permits .host .main = false := rfl
@[simp] theorem permits_host_host : permits .host .host = true := rfl

/-! ### The FrameBuffer -/

/-- The FrameBuffer a stored push leaves, as rule R150 writes it. -/
theorem pushByte_eq (cap b : Byte) (f : FrameBuffer) :
    pushByte cap b f =
      if f.count = cap then .dropped { f with overflow := true }
      else if f.tail.toNat < cap.toNat then
        .stored { f with data := memSet f.data f.tail.toNat b, tail := ringNext cap f.tail, count := f.count + 1,
                         maxFill := if f.maxFill < f.count + 1 then f.count + 1 else f.maxFill }
      else .outside := by
  unfold pushByte spaceWrite
  split
  · rfl
  · by_cases h : f.tail.toNat < cap.toNat
    · simp [h]
    · simp [h]

/-- Everything a push can do. -/
theorem pushByte_cases (cap b : Byte) (f : FrameBuffer) :
    (f.count = cap ∧ pushByte cap b f = .dropped { f with overflow := true }) ∨
      (f.count ≠ cap ∧ f.tail.toNat < cap.toNat ∧ pushByte cap b f = .stored
        { f with data := memSet f.data f.tail.toNat b, tail := ringNext cap f.tail, count := f.count + 1,
                 maxFill := if f.maxFill < f.count + 1 then f.count + 1 else f.maxFill }) ∨
      (f.count ≠ cap ∧ ¬f.tail.toNat < cap.toNat ∧ pushByte cap b f = .outside) := by
  rw [pushByte_eq]
  by_cases h : f.count = cap
  · exact .inl ⟨h, by simp [h]⟩
  · by_cases ht : f.tail.toNat < cap.toNat
    · exact .inr (.inl ⟨h, ht, by simp [h, ht]⟩)
    · exact .inr (.inr ⟨h, ht, by simp [h, ht]⟩)

/-! ### The decompressor -/

theorem nextIn_some {s u : State} {v : Byte} (h : nextIn s = some (v, u)) :
    s.dec.inPos.toNat < s.cfg.payloadCap.toNat ∧ v = memGet s.pkt.payload s.dec.inPos.toNat ∧
      u = { s with dec := { s.dec with inPos := s.dec.inPos + 1 } } := by
  unfold nextIn spaceRead at h
  by_cases hp : s.dec.inPos.toNat < s.cfg.payloadCap.toNat
  · simp only [hp, if_true, Option.some.injEq, Prod.mk.injEq] at h
    exact ⟨hp, h.1.symm, h.2.symm⟩
  · simp [hp] at h

theorem nextIn_of_lt {s : State} (h : s.dec.inPos.toNat < s.cfg.payloadCap.toNat) :
    nextIn s = some (memGet s.pkt.payload s.dec.inPos.toNat, { s with dec := { s.dec with inPos := s.dec.inPos + 1 } }) := by
  simp [nextIn, spaceRead, h]

theorem emit_some {v : Byte} {s u : State} (h : emit v s = some u) :
    s.tile.cursor.toNat < tileSize ∧
      u = { s with tile := { buf := memSet s.tile.buf s.tile.cursor.toNat v, cursor := s.tile.cursor + 1 } } := by
  unfold emit spaceWrite at h
  by_cases hp : s.tile.cursor.toNat < tileSize
  · simp only [hp, if_true, Option.some.injEq] at h
    exact ⟨hp, h.symm⟩
  · simp [hp] at h

theorem emit_of_lt {v : Byte} {s : State} (h : s.tile.cursor.toNat < tileSize) :
    emit v s = some { s with tile := { buf := memSet s.tile.buf s.tile.cursor.toNat v, cursor := s.tile.cursor + 1 } } := by
  simp [emit, spaceWrite, h]

/-- Everything `withInput` can do: no input left, or the byte at the input position is handed on. -/
theorem withInput_next {s t : State} {k : Byte → State → Step} (h : withInput s k = .next t) :
    (s.dec.inPos = s.pkt.stored ∧ t = { s with reply := .returned (.value (.bit false)), event := none }) ∨
      (s.dec.inPos ≠ s.pkt.stored ∧ s.dec.inPos.toNat < s.cfg.payloadCap.toNat ∧
        k (memGet s.pkt.payload s.dec.inPos.toNat) { s with dec := { s.dec with inPos := s.dec.inPos + 1 } } = .next t) := by
  unfold withInput at h
  split at h
  · rename_i he
    exact .inl ⟨he, noTile_next.mp h⟩
  · rename_i he
    split at h
    · cases h
    · rename_i v u hn
      obtain ⟨hp, rfl, rfl⟩ := nextIn_some hn
      exact .inr ⟨he, hp, h⟩

/-- Everything the emission of one byte of a run can do. -/
theorem emitOfRun_next {v : Byte} {s t : State} (h : emitOfRun v s = .next t) :
    s.tile.cursor.toNat < tileSize ∧
      t = { s with tile := { buf := memSet s.tile.buf s.tile.cursor.toNat v, cursor := s.tile.cursor + 1 },
                   dec := runStep s.dec,
                   reply := .returned (.value (.bit
                     (tileFull { buf := memSet s.tile.buf s.tile.cursor.toNat v, cursor := s.tile.cursor + 1 }))),
                   event := none } := by
  unfold emitOfRun at h
  split at h
  · cases h
  · rename_i u hu
    obtain ⟨hc, rfl⟩ := emit_some hu
    exact ⟨hc, reportTile_next.mp h⟩

theorem emitOfRun_of_lt {v : Byte} {s : State} (h : s.tile.cursor.toNat < tileSize) :
    emitOfRun v s = reportTile
      { s with tile := { buf := memSet s.tile.buf s.tile.cursor.toNat v, cursor := s.tile.cursor + 1 }
               dec := runStep s.dec } := by
  simp [emitOfRun, emit_of_lt h]

theorem withInput_of_eq {s : State} {k : Byte → State → Step} (h : s.dec.inPos = s.pkt.stored) : withInput s k = noTile s := by
  simp [withInput, h]

theorem withInput_of_lt {s : State} {k : Byte → State → Step} (h : s.dec.inPos ≠ s.pkt.stored)
    (hc : s.dec.inPos.toNat < s.cfg.payloadCap.toNat) :
    withInput s k =
      k (memGet s.pkt.payload s.dec.inPos.toNat) { s with dec := { s.dec with inPos := s.dec.inPos + 1 } } := by
  simp [withInput, h, nextIn_of_lt hc]

end Sys2Proof.Machine
end

