-- ==== Sys2Proof/Laws/Words.lean ====
section
/-! SUPPORT. The arithmetic of the block's small words: increments that do not wrap, the two bytes of a u16, the bits entering and
leaving the shift registers, the idle time. -/

namespace Sys2Proof.Machine

/-! ### Increments -/

theorem toNat_add_one_half (a : Half) (h : a.toNat < 65535) : (a + 1).toNat = a.toNat + 1 := by
  simp [BitVec.toNat_add]; omega

theorem toNat_add_one_byte (a : Byte) (h : a.toNat < 255) : (a + 1).toNat = a.toNat + 1 := by
  simp [BitVec.toNat_add]; omega

theorem toNat_add_one_cursor (a : BitVec 5) (h : a.toNat < 31) : (a + 1).toNat = a.toNat + 1 := by
  simp [BitVec.toNat_add]; omega

/-- `(i + 1) mod FB_CAP`, as a number. -/
theorem ringNext_toNat (cap i : Byte) (h : 0 < cap.toNat) : (ringNext cap i).toNat = (i.toNat + 1) % cap.toNat := by
  have hc := cap.isLt
  have hm := Nat.mod_lt (i.toNat + 1) h
  simp only [ringNext, BitVec.toNat_ofNat]
  exact Nat.mod_eq_of_lt (by omega)

/-! ### The bytes of a u16 (20_memory.md rule R64) -/

theorem joinBytes_toNat (hi lo : Byte) : (joinBytes hi lo).toNat = hi.toNat * 256 + lo.toNat := by
  have h1 := hi.isLt
  have h2 := lo.isLt
  unfold joinBytes
  simp only [BitVec.toNat_or, BitVec.toNat_shiftLeft, BitVec.toNat_setWidth]
  rw [Nat.mod_eq_of_lt (by omega : hi.toNat < 2 ^ 16), Nat.mod_eq_of_lt (by omega : lo.toNat < 2 ^ 16),
    Nat.mod_eq_of_lt (by rw [Nat.shiftLeft_eq]; omega), ← Nat.shiftLeft_add_eq_or_of_lt (by omega), Nat.shiftLeft_eq]

theorem highByte_joinBytes (hi lo : Byte) : highByte (joinBytes hi lo) = hi := by
  apply BitVec.eq_of_toNat_eq
  have h1 := hi.isLt
  have h2 := lo.isLt
  simp only [highByte, BitVec.toNat_setWidth, BitVec.toNat_ushiftRight, joinBytes_toNat, Nat.shiftRight_eq_div_pow]
  omega

theorem lowByte_joinBytes (hi lo : Byte) : lowByte (joinBytes hi lo) = lo := by
  apply BitVec.eq_of_toNat_eq
  have h2 := lo.isLt
  simp only [lowByte, BitVec.toNat_setWidth, joinBytes_toNat]
  omega

theorem joinBytes_high_low (v : Half) : joinBytes (highByte v) (lowByte v) = v := by
  apply BitVec.eq_of_toNat_eq
  have h := v.isLt
  rw [joinBytes_toNat]
  simp only [highByte, lowByte, BitVec.toNat_setWidth, BitVec.toNat_ushiftRight, Nat.shiftRight_eq_div_pow]
  omega

theorem getElem_ff00 : ∀ k (hk : k < 16), (0xFF00#16)[k] = decide (8 ≤ k) := by decide

theorem getElem_00ff : ∀ k (hk : k < 16), (0x00FF#16)[k] = decide (k < 8) := by decide

/-- A low byte entering a u16, as the rules write it with masks. -/
theorem joinBytes_highByte (v : Half) (b : Byte) : joinBytes (highByte v) b = (v &&& 0xFF00) ||| b.setWidth 16 := by
  unfold joinBytes highByte
  apply BitVec.eq_of_getLsbD_eq
  intro k hk
  by_cases h8 : k < 8
  · simp [h8, hk, getElem_ff00, show ¬8 ≤ k by omega]
  · simp [h8, hk, getElem_ff00, show 8 + (k - 8) = k by omega, show k - 8 < 8 by omega, show 8 ≤ k by omega]

/-- A high byte entering a u16. -/
theorem joinBytes_lowByte (v : Half) (b : Byte) : joinBytes b (lowByte v) = (b.setWidth 16 <<< 8) ||| (v &&& 0x00FF) := by
  unfold joinBytes lowByte
  apply BitVec.eq_of_getLsbD_eq
  intro k hk
  by_cases h8 : k < 8
  · simp [h8, hk, getElem_00ff]
  · simp [h8, hk, getElem_00ff]

/-! ### The shift registers (40_bit_receiver.md rule R132) -/

theorem append_low_bit : ∀ (x : Byte) (d : Bool),
    x.extractLsb' 0 7 ++ BitVec.ofBool d = ((x <<< 1) ||| (BitVec.ofBool d).setWidth 8 : Byte) := by decide

theorem append_high_bit : ∀ (x : Byte) (d : Bool),
    BitVec.ofBool d ++ x.extractLsb' 1 7 = ((x >>> 1) ||| ((BitVec.ofBool d).setWidth 8 <<< 7) : Byte) := by decide

theorem append_low_zero : ∀ x : Byte, x.extractLsb' 0 7 ++ 0#1 = (x <<< 1 : Byte) := by decide

theorem append_high_zero : ∀ x : Byte, 0#1 ++ x.extractLsb' 1 7 = (x >>> 1 : Byte) := by decide

/-- One counted edge on the registers, in the shifts of Safety.lean. -/
theorem rxShift_eq (o : BitOrder) (d : Bool) (r : RxRegs) :
    rxShift o d r = { r with response := bitOut o r.txShift, txShift := shiftOut o r.txShift, acc := bitIn o d r.acc } := by
  cases o
  · simp only [rxShift, bitOut, shiftOut, bitIn, append_low_bit, append_low_zero]
    rfl
  · simp only [rxShift, bitOut, shiftOut, bitIn, append_high_bit, append_high_zero]

/-! ### Idle time (41_frame_buffer.md rule R170) -/

theorem idleAfter_toNat (idle : Millis) (ms : BitVec 24) :
    (idleAfter idle ms).toNat = min (idle.toNat + ms.toNat) (2 ^ 32 - 1) := by
  simp [idleAfter]

end Sys2Proof.Machine
end

