-- ==== Sys2Proof/Laws/Feed.lean ====
section
/-! SUPPORT. Everything DEC_FEED and its passes can do (43_tile_decompressor.md rules R250 to R254): what they change, that they keep
the invariant of the decompressor and the tile, that they answer a next state under it, and the state an emitted byte leaves. -/

namespace Sys2Proof.Machine

/-- What a feed changes: the run state, and of the tile at most one byte, at the cursor, which then advances. -/
def FeedChange (s t : State) : Prop :=
  ∃ d tl b, t = { s with dec := d, tile := tl, reply := .returned (.value (.bit b)), event := none } ∧
    (tl = s.tile ∨ (s.tile.cursor.toNat < 16 ∧
      ∃ v, tl = { buf := memSet s.tile.buf s.tile.cursor.toNat v, cursor := s.tile.cursor + 1 }))

/-- The states a feed passes through differ from its first in the run state alone. -/
abbrev DecOnly (s u : State) : Prop := u = { s with dec := u.dec }

theorem feedChange_of_emitOfRun {v : Byte} {s u t : State} (hu : DecOnly s u) (h : emitOfRun v u = .next t) : FeedChange s t := by
  obtain ⟨hc, ht⟩ := emitOfRun_next h
  have e : u.tile = s.tile := by rw [hu]
  rw [e] at hc
  exact ⟨runStep u.dec, { buf := memSet s.tile.buf s.tile.cursor.toNat v, cursor := s.tile.cursor + 1 }, _,
    by rw [ht, e, hu], .inr ⟨hc, v, rfl⟩⟩

theorem feedChange_of_withInput {s u t : State} {k : Byte → State → Step} (hu : DecOnly s u) (h : withInput u k = .next t)
    (hk : ∀ v w, DecOnly s w → k v w = .next t → FeedChange s t) : FeedChange s t := by
  rcases withInput_next h with ⟨_, ht⟩ | ⟨_, _, hh⟩
  · exact ⟨u.dec, s.tile, false, by rw [ht, hu], .inl rfl⟩
  · exact hk _ _ (by rw [hu]) hh

theorem feedChange_of_feedLiteral {s u t : State} (hu : DecOnly s u) (h : feedLiteral u = .next t) : FeedChange s t :=
  feedChange_of_withInput hu h fun _ _ hw hh => feedChange_of_emitOfRun hw hh

theorem feedChange_of_feedRepeatByte {s u t : State} (hu : DecOnly s u) (h : feedRepeatByte u = .next t) : FeedChange s t :=
  feedChange_of_withInput hu h fun _ _ hw hh => feedChange_of_emitOfRun (s := s) (by rw [hw]) hh

theorem feedChange_of_beginRun {r : Run} {s u t : State} (hu : DecOnly s u) (h : beginRun r u = .next t) : FeedChange s t := by
  unfold beginRun at h
  split at h
  · exact feedChange_of_feedLiteral (by rw [hu]) h
  · exact feedChange_of_feedRepeatByte (by rw [hu]) h

theorem feedChange_of_feed {s t : State} (h : feed s = .next t) : FeedChange s t := by
  unfold feed at h
  split at h
  · exact ⟨s.dec, s.tile, true, returningValue_next.mp h, .inl rfl⟩
  split at h
  · exact ⟨s.dec, s.tile, false, noTile_next.mp h, .inl rfl⟩
  split at h
  · unfold feedRaw at h
    split at h
    · exact ⟨s.dec, s.tile, _, reportTile_next.mp h, .inl rfl⟩
    · split at h
      · cases h
      · rename_i v w hw
        obtain ⟨_, _, rfl⟩ := nextIn_some hw
        split at h
        · cases h
        · rename_i x hx
          obtain ⟨hc, rfl⟩ := emit_some hx
          rw [reportTile_next] at h
          exact ⟨_, _, _, h, .inr ⟨hc, v, rfl⟩⟩
  · split at h
    · exact feedChange_of_withInput rfl h fun _ _ hw hh => feedChange_of_beginRun hw hh
    · exact feedChange_of_feedLiteral rfl h
    · exact feedChange_of_feedRepeatByte rfl h
    · exact feedChange_of_emitOfRun rfl h

/-! ### What an emitted byte leaves -/

theorem tileFull_false {s : State} (h : s.tile.cursor.toNat < 16) : tileFull s.tile = false := by
  simp only [tileFull, beq_eq_false_iff_ne]
  intro e
  rw [e] at h
  simp at h

theorem cursor_lt_of_not_tileFull {t : TileAccumulator} (h : t.cursor.toNat ≤ 16) (hf : ¬tileFull t = true) : t.cursor.toNat < 16 := by
  have hne : t.cursor ≠ 16 := by simpa [tileFull] using hf
  have : t.cursor.toNat ≠ 16 := fun e => hne (BitVec.eq_of_toNat_eq (by rw [e]; rfl))
  omega

theorem tileFull_next (m : List Host.Cell) (c : BitVec 5) (h : c.toNat < 16) :
    tileFull { buf := m, cursor := c + 1 } = decide (c.toNat = 15) := by
  simp only [tileFull]
  by_cases hc : c.toNat = 15
  · have : c = 15 := BitVec.eq_of_toNat_eq hc
    subst this; rfl
  · have : c + 1 ≠ 16 := by
      intro e
      have := congrArg BitVec.toNat e
      rw [toNat_add_one_cursor c (by omega)] at this
      simp at this; omega
    rw [decide_eq_false hc]; simpa using this

/-- The emission of one byte of a run, in the terms of Safety.lean. -/
theorem emitOfRun_eq (v : Byte) (s : State) (h : s.tile.cursor.toNat < 16) :
    emitOfRun v s = .next (afterEmit s.dec.mode s.dec.remaining s.dec.repeatByte s.dec.inPos v s) := by
  rw [emitOfRun_of_lt (by simpa [tileSize] using h)]
  simp only [reportTile, returningValue, returning, raising, afterEmit, runStep, tileFull_next _ _ h]
  have : s.dec.remaining - 1 = 0 ↔ s.dec.remaining = 1 := ⟨fun e => by bv_omega, fun e => by rw [e]; rfl⟩
  simp only [this]

theorem afterEmit_of_decOnly (m : DecMode) (n r : Byte) (p : Half) (v : Byte) {s t : State} (h : DecOnly s t) :
    afterEmit m n r p v t = afterEmit m n r p v s := by
  rw [h]; rfl

/-- A stored byte is left: `withInput` hands it on. -/
theorem withInput_of_stored {s : State} (k : Byte → State → Step) (h : s.dec.inPos.toNat < s.pkt.stored.toNat)
    (hc : s.pkt.stored.toNat ≤ s.cfg.payloadCap.toNat) :
    withInput s k =
      k (memGet s.pkt.payload s.dec.inPos.toNat) { s with dec := { s.dec with inPos := s.dec.inPos + 1 } } :=
  withInput_of_lt (by intro e; rw [e] at h; omega) (by omega)

/-! ### Counts (R7, R252) -/

theorem tableAt_count_ne_zero (base : Run) (rows : List (Byte × Run)) (c : Byte)
    (h : (RleDecode.table base rows).positive = true) : (tableAt base rows c).count ≠ 0 := by
  induction rows with
  | nil => simpa [RleDecode.positive, tableAt] using h
  | cons r rest ih =>
    simp only [RleDecode.positive, List.all_cons, Bool.and_eq_true, bne_iff_ne, ne_eq] at h
    simp only [tableAt]
    split
    · exact h.2.1
    · exact ih (by simp only [RleDecode.positive, Bool.and_eq_true, bne_iff_ne, ne_eq]; exact ⟨h.1, h.2.2⟩)

/-- Every run has at least one byte. -/
theorem rleRun_count_ne_zero {p : RleDecode} (h : p.positive = true) (c : Byte) : (rleRun p c).count ≠ 0 := by
  cases p with
  | doc => revert c; decide
  | gb => revert c; decide
  | table base rows => exact tableAt_count_ne_zero base rows c h

/-! ### The invariant (10_state.md rules R38 and R39) -/

/-- The invariant of the decompressor and the tile, of a state. -/
abbrev DecGood (s : State) : Prop := DecInv s.pkt.stored s.dec s.tile

theorem inPos_advances {s : State} (h : DecGood s) (hl : s.dec.inPos.toNat < s.pkt.stored.toNat) :
    DecGood { s with dec := { s.dec with inPos := s.dec.inPos + 1 } } := by
  obtain ⟨_, h2, h3, h4⟩ := h
  refine ⟨?_, h2, h3, h4⟩
  have := s.pkt.stored.isLt
  simp only
  rw [toNat_add_one_half _ (by omega)]
  omega

theorem runStep_mode {d : Decompressor} (h : d.mode ≠ .control) :
    (runStep d).mode = .control ↔ (runStep d).remaining = 0 := by
  simp only [runStep]
  split
  · rename_i hh; exact ⟨fun _ => hh, fun _ => rfl⟩
  · rename_i hh; exact ⟨fun e => absurd e h, fun e => absurd e hh⟩

theorem decGood_emitOfRun {v : Byte} {s t : State} (h : DecGood s) (hm : s.dec.mode ≠ .control) (he : emitOfRun v s = .next t) :
    DecGood t := by
  obtain ⟨hc, rfl⟩ := emitOfRun_next he
  obtain ⟨h1, _, _, h4⟩ := h
  refine ⟨h1, ?_, runStep_mode hm, memWf_memSet v h4 hc⟩
  simp only [tileSize] at *
  rw [toNat_add_one_cursor _ (by omega)]; omega

theorem decGood_withInput {s t : State} {k : Byte → State → Step} (h : DecGood s) (he : withInput s k = .next t)
    (hk : ∀ v, DecGood { s with dec := { s.dec with inPos := s.dec.inPos + 1 } } →
      k v { s with dec := { s.dec with inPos := s.dec.inPos + 1 } } = .next t → DecGood t) : DecGood t := by
  rcases withInput_next he with ⟨_, rfl⟩ | ⟨hn, _, hh⟩
  · exact h
  · have : s.dec.inPos.toNat ≠ s.pkt.stored.toNat := fun e => hn (BitVec.eq_of_toNat_eq e)
    exact hk _ (inPos_advances h (by have := h.1; omega)) hh

theorem decGood_feedLiteral {s t : State} (h : DecGood s) (hm : s.dec.mode ≠ .control) (he : feedLiteral s = .next t) :
    DecGood t :=
  decGood_withInput h he fun _ h' he' => decGood_emitOfRun h' hm he'

theorem decGood_feedRepeatByte {s t : State} (h : DecGood s) (hm : s.dec.mode ≠ .control) (he : feedRepeatByte s = .next t) :
    DecGood t :=
  decGood_withInput h he fun v h' he' => by
    obtain ⟨h1, h2, h3, h4⟩ := h'
    have hd : DecGood { s with dec := { s.dec with inPos := s.dec.inPos + 1, repeatByte := v, mode := .repeatEmit } } :=
      ⟨h1, h2, ⟨(fun e => by cases e), fun e => absurd (h3.mpr e) hm⟩, h4⟩
    exact decGood_emitOfRun hd (by simp) he'

theorem decGood_beginRun {r : Run} {s t : State} (h : DecGood s) (hr : r.count ≠ 0) (he : beginRun r s = .next t) :
    DecGood t := by
  obtain ⟨h1, h2, _, h4⟩ := h
  unfold beginRun at he
  split at he
  · have hd : DecGood { s with dec := { s.dec with remaining := r.count, mode := .literal } } :=
      ⟨h1, h2, ⟨(fun e => by cases e), fun e => absurd e hr⟩, h4⟩
    exact decGood_feedLiteral hd (by simp) he
  · have hd : DecGood { s with dec := { s.dec with remaining := r.count, mode := .repeatByte } } :=
      ⟨h1, h2, ⟨(fun e => by cases e), fun e => absurd e hr⟩, h4⟩
    exact decGood_feedRepeatByte hd (by simp) he

theorem decGood_feed {s t : State} (hp : s.cfg.rleDecode.positive = true) (h : DecGood s) (he : feed s = .next t) :
    DecGood t := by
  unfold feed at he
  split at he
  · rw [returningValue_next] at he; subst he; exact h
  split at he
  · rw [noTile_next] at he; subst he; exact h
  split at he
  · unfold feedRaw at he
    split at he
    · rw [reportTile_next] at he; subst he; exact h
    · rename_i hi
      split at he
      · cases he
      · rename_i v w hw
        obtain ⟨_, _, rfl⟩ := nextIn_some hw
        split at he
        · cases he
        · rename_i x hx
          obtain ⟨hc, rfl⟩ := emit_some hx
          rw [reportTile_next] at he; subst he
          have hg := inPos_advances h (by simpa [inputLeft] using hi)
          obtain ⟨h1, h2, h3, h4⟩ := hg
          refine ⟨h1, ?_, h3, memWf_memSet v h4 hc⟩
          simp only [tileSize] at *
          rw [toNat_add_one_cursor _ (by omega)]; omega
  · split at he
    · exact decGood_withInput h he fun v h' he' => decGood_beginRun h' (rleRun_count_ne_zero hp v) he'
    · rename_i hm; exact decGood_feedLiteral h (by rw [hm]; simp) he
    · rename_i hm; exact decGood_feedRepeatByte h (by rw [hm]; simp) he
    · rename_i hm; exact decGood_emitOfRun h (by rw [hm]; simp) he

/-! ### No feed stops (20_memory.md rule R68) -/

theorem withInput_total {s : State} {k : Byte → State → Step} (hd : s.dec.inPos.toNat ≤ s.pkt.stored.toNat)
    (hs : s.pkt.stored.toNat ≤ s.cfg.payloadCap.toNat)
    (hk : ∀ v, s.dec.inPos.toNat < s.pkt.stored.toNat →
      ∃ t, k v { s with dec := { s.dec with inPos := s.dec.inPos + 1 } } = .next t) : ∃ t, withInput s k = .next t := by
  by_cases he : s.dec.inPos = s.pkt.stored
  · exact ⟨_, withInput_of_eq he⟩
  · have : s.dec.inPos.toNat ≠ s.pkt.stored.toNat := fun e => he (BitVec.eq_of_toNat_eq e)
    rw [withInput_of_stored _ (by omega) hs]
    exact hk _ (by omega)

theorem beginRun_total {r : Run} {s : State} (h : s.tile.cursor.toNat < 16) (hd : s.dec.inPos.toNat ≤ s.pkt.stored.toNat)
    (hs : s.pkt.stored.toNat ≤ s.cfg.payloadCap.toNat) : ∃ t, beginRun r s = .next t := by
  unfold beginRun
  split
  · exact withInput_total (by exact hd) (by exact hs) fun v _ => ⟨_, emitOfRun_eq v _ (by exact h)⟩
  · exact withInput_total (by exact hd) (by exact hs) fun v _ => ⟨_, emitOfRun_eq v _ (by exact h)⟩

theorem feed_total {s : State} (hd : s.dec.inPos.toNat ≤ s.pkt.stored.toNat) (hc : s.tile.cursor.toNat ≤ tileSize)
    (hs : s.pkt.stored.toNat ≤ s.cfg.payloadCap.toNat) : ∃ t, feed s = .next t := by
  unfold feed
  split
  · exact ⟨_, rfl⟩
  rename_i hnf
  have hl := cursor_lt_of_not_tileFull hc hnf
  split
  · exact ⟨_, rfl⟩
  split
  · unfold feedRaw
    split
    · exact ⟨_, rfl⟩
    · rename_i hi
      simp only [inputLeft, Bool.not_eq_true', decide_eq_false_iff_not, not_not] at hi
      rw [nextIn_of_lt (by omega)]
      dsimp only
      rw [emit_of_lt (by exact hl)]
      exact ⟨_, rfl⟩
  · split
    · refine withInput_total hd hs fun v hv => ?_
      have := s.pkt.stored.isLt
      exact beginRun_total (by exact hl) (by simp only; rw [toNat_add_one_half _ (by omega)]; omega) (by exact hs)
    · exact withInput_total hd hs fun v _ => ⟨_, emitOfRun_eq v _ (by exact hl)⟩
    · exact withInput_total hd hs fun v _ => ⟨_, emitOfRun_eq v _ (by exact hl)⟩
    · exact ⟨_, emitOfRun_eq _ _ hl⟩

end Sys2Proof.Machine
end

