-- ==== Sys2Proof/Laws/Glue.lean ====
section
/-! SUPPORT. Runs of operations from one context: the first operation, and a run cut in two. -/

namespace Sys2Proof.Machine

@[simp] theorem runFrom_nil (c : Ctx) (s : State) : runFrom c [] s = .next s := rfl

theorem runFrom_cons_of_next {c : Ctx} {i : Instr} {s t : State} (h : exec i { s with ctx := c } = .next t) (rest : List Instr) :
    runFrom c (i :: rest) s = runFrom c rest t := by
  simp only [runFrom, h]

theorem runFrom_append (c : Ctx) (a b : List Instr) (s : State) :
    runFrom c (a ++ b) s =
      (match runFrom c a s with
        | .next t => runFrom c b t
        | .fault f => .fault f
        | .refused r => .refused r) := by
  induction a generalizing s with
  | nil => rfl
  | cons i rest ih =>
    simp only [List.cons_append, runFrom]
    cases exec i { s with ctx := c } with
    | next t => exact ih t
    | fault f => rfl
    | refused r => rfl

theorem runFrom_append_of_next {c : Ctx} {a : List Instr} {s t : State} (h : runFrom c a s = .next t) (b : List Instr) :
    runFrom c (a ++ b) s = runFrom c b t := by
  rw [runFrom_append, h]

end Sys2Proof.Machine
end

