-- ==== Sys2Proof/Laws/Parser.lean ====
section
/-! SUPPORT. Everything PP_PROCESS can do (42_packet_parser.md rule R190): what it changes, that it always answers a next state, and
that it keeps the parser's invariant (10_state.md rules R35 and R39) and the truth of the status bits (R34). -/

namespace Sys2Proof.Machine

/-- What a processed byte changes: the parser, the Packet register, and at a frame start the input position; of the payload bytes
at most the one at `pp_index`, within the capacity; and the event is no session timeout. -/
def ParserChange (s t : State) : Prop :=
  ∃ p k d r e, t = { s with pp := p, pkt := k, dec := { s.dec with inPos := d }, reply := .returned r, event := e } ∧
    (d = s.dec.inPos ∨ (d = 0 ∧ s.pp.state = .awaitSync1)) ∧
    (k.payload = s.pkt.payload ∨ (s.pp.state = .payload ∧ s.pp.index.toNat < s.cfg.payloadCap.toNat ∧
      ∃ b, k.payload = memSet s.pkt.payload s.pp.index.toNat b)) ∧
    e ≠ some .sessionTimeout

theorem parserChange_of_takeCommand {k : Command} {b : Byte} {s t : State} (h : takeCommand k b s = .next t) :
    ParserChange s t := by
  simp only [takeCommand, notReadyYet_next] at h
  subst h
  exact ⟨_, _, _, _, _, rfl, .inl rfl, .inl rfl, by simp⟩

theorem parserChange_of_processByte {b : Byte} {s t : State} (h : processByte b s = .next t) : ParserChange s t := by
  unfold processByte at h
  split at h
  · simp only [parseSync0, notReadyYet_next] at h
    subst h
    split <;> exact ⟨_, _, _, _, _, rfl, .inl rfl, .inl rfl, by simp⟩
  · rename_i hs
    simp only [parseSync1] at h
    split at h
    · simp only [notReadyYet_next] at h; subst h
      exact ⟨_, _, _, _, _, rfl, .inr ⟨rfl, hs⟩, .inl rfl, by simp⟩
    · split at h <;> (simp only [raising_next] at h; subst h; exact ⟨_, _, _, _, _, rfl, .inl rfl, .inl rfl, by simp⟩)
  · exact parserChange_of_takeCommand h
  · simp only [parseCompression, notReadyYet_next] at h; subst h
    exact ⟨_, _, _, _, _, rfl, .inl rfl, .inl rfl, by simp⟩
  · simp only [parseLengthLow, notReadyYet_next] at h; subst h
    exact ⟨_, _, _, _, _, rfl, .inl rfl, .inl rfl, by simp⟩
  · simp only [parseLengthHigh, raising_next] at h; subst h
    exact ⟨_, _, _, _, _, rfl, .inl rfl, .inl rfl, by split <;> simp⟩
  · rename_i hs
    simp only [parsePayload, notReadyYet_next, storePayload, spaceWrite] at h; subst h
    by_cases hh : s.pp.index.toNat < s.cfg.payloadCap.toNat
    · simp only [hh, if_true]
      exact ⟨_, _, _, _, _, rfl, .inl rfl, .inr ⟨hs, hh, b, rfl⟩, by simp⟩
    · simp only [hh, if_false]
      exact ⟨_, _, _, _, _, rfl, .inl rfl, .inl rfl, by simp⟩
  · simp only [parseChecksumLow, notReadyYet_next] at h; subst h
    exact ⟨_, _, _, _, _, rfl, .inl rfl, .inl rfl, by simp⟩
  · simp only [parseChecksumHigh, raising_next] at h; subst h
    exact ⟨_, _, _, _, _, rfl, .inl rfl, .inl rfl, by split <;> simp⟩
  · simp only [parseKeepalive, returningValue_next] at h; subst h
    exact ⟨_, _, _, _, _, rfl, .inl rfl, .inl rfl, by simp⟩
  · simp only [parseSync0, notReadyYet_next] at h
    subst h
    split <;> exact ⟨_, _, _, _, _, rfl, .inl rfl, .inl rfl, by simp⟩

/-- PP_PROCESS always completes (42_packet_parser.md rule R202). -/
theorem processByte_total (b : Byte) (s : State) : ∃ t, processByte b s = .next t := by
  unfold processByte
  split
  · exact ⟨_, rfl⟩
  · unfold parseSync1
    split
    · exact ⟨_, rfl⟩
    · split <;> exact ⟨_, rfl⟩
  all_goals exact ⟨_, rfl⟩

/-! ### The invariant -/

/-- The parser's invariant, of a state. -/
abbrev PpGood (s : State) : Prop := PpInv s.cfg.payloadCap s.pp s.pkt

/-- The decompressor's invariant, of a state. -/
abbrev InputGood (s : State) : Prop := DecInv s.pkt.stored s.dec s.tile

theorem ppGood_takeCommand {k : Command} {b : Byte} {s t : State} (h : PpGood s) (hd : InputGood s) (hs : s.pp.state = .command)
    (he : takeCommand k b s = .next t) : PpGood t ∧ InputGood t := by
  simp only [takeCommand, notReadyYet_next] at he
  subst he
  obtain ⟨h1, h2, h3, h4, h5, _, h7⟩ := h
  refine ⟨⟨h1, h2, ?_, ?_, ?_, ?_, h7⟩, hd⟩
  · intro hr
    have := h3 hr
    rw [hs] at this; cases this
  · intro _; exact h4 (by rw [hs]; rfl)
  · intro _; exact h5 (by rw [hs]; rfl)
  · simp

theorem ppGood_parseSync0 {b : Byte} {s t : State} (h : PpGood s) (hd : InputGood s) (hr : s.pp.ready = false)
    (he : parseSync0 b s = .next t) : PpGood t ∧ InputGood t := by
  simp only [parseSync0, notReadyYet_next] at he
  subst he
  obtain ⟨h1, h2, h3, h4, h5, h6, h7⟩ := h
  split
  · exact ⟨⟨h1, h2, by simp [hr], by simp [beforeOutcome, beforeLength], by simp [beforeLength], by simp, h7⟩, hd⟩
  · exact ⟨⟨h1, h2, h3, h4, h5, h6, h7⟩, hd⟩

/-- What storing a payload byte leaves of the register. -/
theorem storePayload_spec (cap i : Half) (b : Byte) (p : Packet) (hi : i.toNat < 65535)
    (hs : p.stored.toNat = min i.toNat cap.toNat) (hw : memWf cap.toNat p.payload = true) :
    (storePayload cap i b p).length = p.length ∧ (storePayload cap i b p).checksumOk = p.checksumOk ∧
      (storePayload cap i b p).status = p.status ∧
      (storePayload cap i b p).stored.toNat = min (i.toNat + 1) cap.toNat ∧
      memWf cap.toNat (storePayload cap i b p).payload = true := by
  unfold storePayload spaceWrite
  by_cases hc : i.toNat < cap.toNat
  · simp only [hc, if_true]
    refine ⟨trivial, trivial, trivial, ?_, memWf_memSet b hw hc⟩
    rw [toNat_add_one_half _ hi]; omega
  · simp only [hc, if_false]
    exact ⟨trivial, trivial, trivial, by omega, hw⟩

theorem ppGood_processByte {b : Byte} {s t : State} (h : PpGood s) (hd : InputGood s) (he : processByte b s = .next t) :
    PpGood t ∧ InputGood t := by
  have hg := h
  obtain ⟨h1, h2, h3, h4, h5, h6, h7⟩ := h
  obtain ⟨d1, d2, d3, d4⟩ := hd
  have hr : s.pp.state ≠ .done → s.pp.ready = false := by
    intro hn
    cases hq : s.pp.ready
    · rfl
    · exact absurd (h3 hq) hn
  unfold processByte at he
  split at he
  · rename_i hs
    exact ppGood_parseSync0 hg ⟨d1, d2, d3, d4⟩ (hr (by rw [hs]; simp)) he
  · rename_i hs
    have hr := hr (by rw [hs]; simp)
    simp only [parseSync1] at he
    split at he
    · rw [notReadyYet_next] at he; subst he
      exact ⟨⟨by simp, by simp [packetCleared], by simp [hr], by simp, by simp, by simp, h7⟩,
        ⟨by simp [frameStart, packetCleared], d2, d3, d4⟩⟩
    · split at he <;> rw [raising_next] at he <;> subst he <;>
        exact ⟨⟨h1, h2, by simp [hr], by simp [beforeOutcome, beforeLength], by simp [beforeLength], by simp, h7⟩,
          ⟨d1, d2, d3, d4⟩⟩
  · rename_i hs
    exact ppGood_takeCommand hg ⟨d1, d2, d3, d4⟩ hs he
  · rename_i hs
    have hr := hr (by rw [hs]; simp)
    simp only [parseCompression, notReadyYet_next] at he; subst he
    exact ⟨⟨h1, h2, by simp [hr], fun _ => h4 (by rw [hs]; rfl), fun _ => h5 (by rw [hs]; rfl), by simp, h7⟩,
      ⟨d1, d2, d3, d4⟩⟩
  · rename_i hs
    have hr := hr (by rw [hs]; simp)
    have hi := h5 (by rw [hs]; rfl)
    simp only [parseLengthLow, notReadyYet_next] at he; subst he
    exact ⟨⟨by simp [hi], h2, by simp [hr], fun _ => h4 (by rw [hs]; rfl), fun _ => hi, by simp, h7⟩, ⟨d1, d2, d3, d4⟩⟩
  · rename_i hs
    have hr := hr (by rw [hs]; simp)
    have hi := h5 (by rw [hs]; rfl)
    simp only [parseLengthHigh, raising_next] at he; subst he
    refine ⟨⟨by simp [hi], h2, by simp [hr], fun _ => h4 (by rw [hs]; rfl), fun _ => hi, ?_, h7⟩, ⟨d1, d2, d3, d4⟩⟩
    simp only [sumGoTo, hi]
    intro e
    split at e
    · cases e
    · rename_i hne
      have : (joinBytes b (lowByte s.pkt.length)).toNat ≠ 0 := fun e0 => hne (BitVec.eq_of_toNat_eq e0)
      simp; omega
  · rename_i hs
    have hr := hr (by rw [hs]; simp)
    have hi := h6 hs
    have hlt := s.pkt.length.isLt
    have hu := toNat_add_one_half s.pp.index (by omega)
    obtain ⟨s1, s2, _, s3, s4⟩ := storePayload_spec s.cfg.payloadCap s.pp.index b s.pkt (by omega) h2 h7
    simp only [parsePayload, notReadyYet_next] at he; subst he
    refine ⟨⟨?_, ?_, by simp [hr], ?_, ?_, ?_, s4⟩, ⟨?_, d2, d3, d4⟩⟩
    · simp only [s1]; rw [hu]; omega
    · simp only [s3]; rw [hu]
    · simp only [s2]; intro _; exact h4 (by rw [hs]; rfl)
    · simp only; intro e; split at e <;> cases e
    · simp only [s1]
      intro e
      split at e
      · cases e
      · rename_i hne
        have : (s.pp.index + 1).toNat ≠ s.pkt.length.toNat := fun e => hne (BitVec.eq_of_toNat_eq e)
        omega
    · simp only [s3]; omega
  · rename_i hs
    have hr := hr (by rw [hs]; simp)
    simp only [parseChecksumLow, notReadyYet_next] at he; subst he
    exact ⟨⟨h1, h2, by simp [hr], fun _ => h4 (by rw [hs]; rfl), by simp [beforeLength], by simp, h7⟩, ⟨d1, d2, d3, d4⟩⟩
  · rename_i hs
    have hr := hr (by rw [hs]; simp)
    simp only [parseChecksumHigh, raising_next] at he; subst he
    exact ⟨⟨h1, h2, by simp [hr], by simp [beforeOutcome, beforeLength], by simp [beforeLength], by simp, h7⟩,
      ⟨d1, d2, d3, d4⟩⟩
  · simp only [parseKeepalive, returningValue_next] at he; subst he
    exact ⟨⟨h1, h2, by simp, by simp [beforeOutcome, beforeLength], by simp [beforeLength], by simp, h7⟩,
      ⟨d1, d2, d3, d4⟩⟩
  · exact ppGood_parseSync0 (s := leaveDone s)
      ⟨h1, h2, by simp [leaveDone], by simp [leaveDone, beforeOutcome, beforeLength], by simp [leaveDone, beforeLength],
        by simp [leaveDone], h7⟩ ⟨d1, d2, d3, d4⟩ rfl he

/-! ### The status bits -/

/-- The status bits' truth, of a state. -/
abbrev StatusGood (s : State) : Prop := StatusTrue s.cfg.payloadCap s.pp s.pkt

theorem or_and_of_and_eq_zero (a b m : Byte) (h : b &&& m = 0) : (a ||| b) &&& m = a &&& m := by
  rw [BitVec.and_comm, BitVec.and_or_distrib_left, BitVec.and_comm m b, h]
  simp [BitVec.and_comm]

theorem hostStatus_and_parserBits : ∀ h : Byte, (h &&& 0xEE) &&& 0x11 = 0x00 := by decide

theorem statusGood_takeCommand {k : Command} {b : Byte} {s t : State} (h : StatusGood s) (hs : s.pp.state = .command)
    (he : takeCommand k b s = .next t) : StatusGood t := by
  have h0 := h.1 (by rw [hs]; rfl)
  simp only [takeCommand, notReadyYet_next] at he
  subst he
  exact ⟨fun _ => h0, by simp, by simp⟩

theorem statusAtLength_bits (cap length : Half) (status : Byte) (h : status &&& 0x11 = 0x00) :
    statusAtLength status (decide (cap.toNat < length.toNat)) &&& 0x11 = lengthBit cap length := by
  simp only [statusAtLength, lengthBit, decide_eq_true_eq]
  split
  · rw [BitVec.and_comm, BitVec.and_or_distrib_left, BitVec.and_comm _ status, h]; decide
  · exact h

theorem statusGood_processByte {b : Byte} {s t : State} (h : StatusGood s) (he : processByte b s = .next t) :
    StatusGood t := by
  have hg := h
  obtain ⟨h1, h2, h3⟩ := h
  unfold processByte at he
  split at he
  · simp only [parseSync0, notReadyYet_next] at he
    subst he
    split
    · exact ⟨by simp [beforeLength], by simp, by simp⟩
    · exact hg
  · simp only [parseSync1] at he
    split at he
    · rw [notReadyYet_next] at he; subst he
      exact ⟨by simp [frameStart, packetCleared], by simp, by simp⟩
    · split at he <;> rw [raising_next] at he <;> subst he <;> exact ⟨by simp [beforeLength], by simp, by simp⟩
  · rename_i hs; exact statusGood_takeCommand hg hs he
  · rename_i hs
    have h0 := h1 (by rw [hs]; rfl)
    simp only [parseCompression, notReadyYet_next] at he; subst he
    exact ⟨fun _ => h0, by simp, by simp⟩
  · rename_i hs
    have h0 := h1 (by rw [hs]; rfl)
    simp only [parseLengthLow, notReadyYet_next] at he; subst he
    exact ⟨fun _ => h0, by simp, by simp⟩
  · rename_i hs
    have h0 := h1 (by rw [hs]; rfl)
    simp only [parseLengthHigh, raising_next] at he; subst he
    refine ⟨?_, fun _ => statusAtLength_bits _ _ _ h0, ?_⟩
    · simp only [sumGoTo]; split <;> simp [beforeLength]
    · simp only [sumGoTo]; split <;> simp
  · rename_i hs
    have h0 := h2 (.inl hs)
    have e : (storePayload s.cfg.payloadCap s.pp.index b s.pkt).status = s.pkt.status ∧
        (storePayload s.cfg.payloadCap s.pp.index b s.pkt).length = s.pkt.length := by
      unfold storePayload; split <;> exact ⟨rfl, rfl⟩
    simp only [parsePayload, notReadyYet_next] at he; subst he
    refine ⟨?_, fun _ => by simp only [e.1, e.2]; exact h0, ?_⟩
    · simp only; split <;> simp [beforeLength]
    · simp only; split <;> simp
  · rename_i hs
    have h0 := h2 (.inr (.inl hs))
    simp only [parseChecksumLow, notReadyYet_next] at he; subst he
    exact ⟨by simp [beforeLength], fun _ => h0, by simp⟩
  · rename_i hs
    have h0 := h2 (.inr (.inr hs))
    simp only [parseChecksumHigh, raising_next] at he; subst he
    refine ⟨by simp [beforeLength], by simp, fun _ => ?_⟩
    simp only [statusAtChecksum]
    split
    · rw [h0]; simp
    · rw [BitVec.and_comm, BitVec.and_or_distrib_left, BitVec.and_comm _ s.pkt.status, h0]; rfl
  · rename_i hs
    have h0 := h3 (.inl hs)
    simp only [parseKeepalive, returningValue_next] at he; subst he
    refine ⟨by simp [beforeLength], by simp, fun _ => ?_⟩
    simp only [statusAtKeepalive, hostStatusMask]
    rw [or_and_of_and_eq_zero _ _ _ (hostStatus_and_parserBits _)]; exact h0
  · simp only [parseSync0, notReadyYet_next] at he
    subst he
    split <;> exact ⟨by simp [beforeLength, leaveDone], by simp [leaveDone], by simp [leaveDone]⟩

end Sys2Proof.Machine
end

