-- ==== Sys2Proof/Laws/PerInstr.lean ====
section
/-! SUPPORT. The family TableRow, one lemma per instruction: the unit an instruction encodes to is in the space of its row of
spec/opcode_table.json and matches the row's mask and value. -/

namespace Sys2Proof.Laws.TableRow

open Sys2Proof

/-- The fixed bits of a row, with the row's space. -/
inductive Row where
  | opWord (mask value : OpWord)
  | rleDoc (mask value : Byte)
  | rleGb (mask value : Byte)
  | cmd (mask value : Byte)
  deriving DecidableEq, Repr

/-- The unit is in the row's space and has the row's fixed bits. -/
def Row.fits (r : Row) (u : CodeUnit) : Bool :=
  match r, u with
  | .opWord mask value, .opWord w => w &&& mask == value
  | .rleDoc mask value, .rleDocByte c => c &&& mask == value
  | .rleGb mask value, .rleGbByte c => c &&& mask == value
  | .cmd mask value, .cmdByte b => b &&& mask == value
  | _, _ => false

/-- The row of each instruction, as the opcode table writes it. -/
def row : Instr → Row
  | .edge _ _ => .opWord 0xFFFFFFFC 0x01000000
  | .fbPush _ => .opWord 0xFFFFFF00 0x02000000
  | .fbPop => .opWord 0xFFFFFFFF 0x10000000
  | .fbPeek _ => .opWord 0xFFFF0000 0x11000000
  | .fbCount => .opWord 0xFFFFFFFF 0x12000000
  | .fbCapacity => .opWord 0xFFFFFFFF 0x13000000
  | .fbMaxfill => .opWord 0xFFFFFFFF 0x14000000
  | .fbOverflow => .opWord 0xFFFFFFFF 0x15000000
  | .fbClearOvf => .opWord 0xFFFFFFFF 0x16000000
  | .tmTick _ => .opWord 0xFF000000 0x20000000
  | .ppProcess _ => .opWord 0xFFFFFF00 0x30000000
  | .ppReady => .opWord 0xFFFFFFFF 0x31000000
  | .ppTake => .opWord 0xFFFFFFFF 0x32000000
  | .decFeed => .opWord 0xFFFFFFFF 0x40000000
  | .decPending => .opWord 0xFFFFFFFF 0x41000000
  | .tileReady => .opWord 0xFFFFFFFF 0x42000000
  | .tileTake => .opWord 0xFFFFFFFF 0x43000000
  | .scEncode _ => .opWord 0xFFFFFF00 0x50000000
  | .scDecode _ => .opWord 0xFFFFFF00 0x51000000
  | .hsWrite _ => .opWord 0xFFFFFF00 0x52000000
  | .prSheets => .opWord 0xFFFFFFFF 0x60000000
  | .prMarginPre => .opWord 0xFFFFFFFF 0x61000000
  | .prMarginPost => .opWord 0xFFFFFFFF 0x62000000
  | .prPalette => .opWord 0xFFFFFFFF 0x63000000
  | .prDensity => .opWord 0xFFFFFFFF 0x64000000
  | .reset => .opWord 0xFFFFFFFF 0xF0000000
  | .rleDocLiteral _ _ => .rleDoc 0x80 0x00
  | .rleDocRepeat _ _ => .rleDoc 0x80 0x80
  | .rleGbLiteral _ => .rleGb 0x80 0x00
  | .rleGbRepeat _ => .rleGb 0x80 0x80
  | .cmdInit => .cmd 0xFF 0x01
  | .cmdPrint => .cmd 0xFF 0x04
  | .cmdData => .cmd 0xFF 0x02
  | .cmdBreak => .cmd 0xFF 0x08
  | .cmdInquiry => .cmd 0xFF 0x0F
  | .cmdUnknown _ => .cmd 0x00 0x00

/-- The unit that spells the instruction fits the instruction's row. -/
def Statement (i : Instr) : Prop := (row i).fits (encode i) = true

/-- A word whose bits above the low `n` are the row's and whose other bits the row ignores fits it. -/
theorem and_mask_eq {w mask value : OpWord} {n : Nat} (hm : ∀ k, k < 32 → mask.getLsbD k = decide (n ≤ k))
    (hlow : ∀ k, k < 32 → k < n → value.getLsbD k = false)
    (hhigh : ∀ k, k < 32 → n ≤ k → w.getLsbD k = value.getLsbD k) : w &&& mask = value := by
  apply BitVec.eq_of_getLsbD_eq
  intro k hk
  rw [BitVec.getLsbD_and, hm k hk]
  by_cases h : n ≤ k
  · simp [h, hhigh k hk h]
  · simp [h, hlow k hk (by omega)]

/-- Format B: an eight-bit operand does not reach the fixed bits. -/
theorem encodeB_fits (op : Byte) (value : OpWord) (h : value = op.setWidth 32 <<< 24) (b : Byte) :
    encodeB op b &&& 0xFFFFFF00 = value := by
  subst h
  refine and_mask_eq (n := 8) (by decide) ?_ ?_
  · intro k _ hlt
    simp [show k < 24 by omega]
  · intro k _ hge
    simp [encodeB, BitVec.getLsbD_of_ge b k hge]

theorem encodeO_fits (off : Half) : encodeO 0x11 off &&& 0xFFFF0000 = 0x11000000 := by
  refine and_mask_eq (n := 16) (by decide) (by decide) ?_
  intro k _ hge
  simp [encodeO, BitVec.getLsbD_of_ge off k hge]

theorem encodeT_fits (ms : BitVec 24) : encodeT 0x20 ms &&& 0xFF000000 = 0x20000000 := by
  refine and_mask_eq (n := 24) (by decide) (by decide) ?_
  intro k _ hge
  simp [encodeT, BitVec.getLsbD_of_ge ms k hge]

theorem edge (c d : Bool) : Statement (.edge c d) := by unfold Statement; revert c d; decide
theorem fbPush (b : Byte) : Statement (.fbPush b) := beq_iff_eq.mpr (encodeB_fits _ _ rfl b)
theorem fbPop : Statement .fbPop := rfl
theorem fbPeek (off : Half) : Statement (.fbPeek off) := beq_iff_eq.mpr (encodeO_fits off)
theorem fbCount : Statement .fbCount := rfl
theorem fbCapacity : Statement .fbCapacity := rfl
theorem fbMaxfill : Statement .fbMaxfill := rfl
theorem fbOverflow : Statement .fbOverflow := rfl
theorem fbClearOvf : Statement .fbClearOvf := rfl
theorem tmTick (ms : BitVec 24) : Statement (.tmTick ms) := beq_iff_eq.mpr (encodeT_fits ms)
theorem ppProcess (b : Byte) : Statement (.ppProcess b) := beq_iff_eq.mpr (encodeB_fits _ _ rfl b)
theorem ppReady : Statement .ppReady := rfl
theorem ppTake : Statement .ppTake := rfl
theorem decFeed : Statement .decFeed := rfl
theorem decPending : Statement .decPending := rfl
theorem tileReady : Statement .tileReady := rfl
theorem tileTake : Statement .tileTake := rfl
theorem scEncode (f : StatusFlags) : Statement (.scEncode f) := beq_iff_eq.mpr (encodeB_fits _ _ rfl (statusPack f))
theorem scDecode (v : Byte) : Statement (.scDecode v) := beq_iff_eq.mpr (encodeB_fits _ _ rfl v)
theorem hsWrite (v : Byte) : Statement (.hsWrite v) := beq_iff_eq.mpr (encodeB_fits _ _ rfl v)
theorem prSheets : Statement .prSheets := rfl
theorem prMarginPre : Statement .prMarginPre := rfl
theorem prMarginPost : Statement .prMarginPost := rfl
theorem prPalette : Statement .prPalette := rfl
theorem prDensity : Statement .prDensity := rfl
theorem reset : Statement .reset := rfl
theorem rleDocLiteral (ignored : Bool) (n : BitVec 6) : Statement (.rleDocLiteral ignored n) := by
  unfold Statement; revert ignored n; decide
theorem rleDocRepeat (ignored : Bool) (n : BitVec 6) : Statement (.rleDocRepeat ignored n) := by
  unfold Statement; revert ignored n; decide
theorem rleGbLiteral (n : BitVec 7) : Statement (.rleGbLiteral n) := by unfold Statement; revert n; decide
theorem rleGbRepeat (n : BitVec 7) : Statement (.rleGbRepeat n) := by unfold Statement; revert n; decide
theorem cmdInit : Statement .cmdInit := rfl
theorem cmdPrint : Statement .cmdPrint := rfl
theorem cmdData : Statement .cmdData := rfl
theorem cmdBreak : Statement .cmdBreak := rfl
theorem cmdInquiry : Statement .cmdInquiry := rfl
theorem cmdUnknown (raw : Byte) : Statement (.cmdUnknown raw) := by unfold Statement; revert raw; decide

end Sys2Proof.Laws.TableRow
end

