-- ==== Sys2Proof/Laws/Ring.lean ====
section
/-! SUPPORT. The FrameBuffer's ring: what a push and a pop do to its invariant (10_state.md rule R26) and to the bytes it holds. -/

namespace Sys2Proof.Machine

theorem pushByte_of_lt (cap b : Byte) (f : FrameBuffer) (ht : f.tail.toNat < cap.toNat) (hc : f.count ≠ cap) :
    pushByte cap b f = .stored (bufferAfterPush cap b f) := by
  rw [pushByte_eq]
  simp only [hc, if_false, ht, if_true, bufferAfterPush, ringNext, BitVec.lt_def]

theorem pushByte_of_full (cap b : Byte) (f : FrameBuffer) (hc : f.count = cap) :
    pushByte cap b f = .dropped { f with overflow := true } := by
  rw [pushByte_eq]
  simp [hc]

/-- A buffer that is not full has room. -/
theorem count_lt_of_ne {cap : Byte} {f : FrameBuffer} (h : FbInv cap f) (hc : f.count ≠ cap) : f.count.toNat < cap.toNat := by
  rcases Nat.lt_or_ge f.count.toNat cap.toNat with hl | hg
  · exact hl
  · exact absurd (BitVec.eq_of_toNat_eq (Nat.le_antisymm h.1 hg)) hc

theorem tail_lt {cap : Byte} {f : FrameBuffer} (h : FbInv cap f) : f.tail.toNat < cap.toNat := by
  rw [h.2.2.1]
  exact Nat.mod_lt _ (by have := h.2.1; omega)

/-- A stored push keeps the invariant. -/
theorem fbInv_push {cap b : Byte} {f : FrameBuffer} (h : FbInv cap f) (hc : f.count ≠ cap) :
    FbInv cap (bufferAfterPush cap b f) := by
  have hcc := count_lt_of_ne h hc
  have ht := tail_lt h
  obtain ⟨_, h2, h3, h4, h5, h6⟩ := h
  have hcap := cap.isLt
  have hu := toNat_add_one_byte f.count (by omega)
  have hr := ringNext_toNat cap f.tail (by omega)
  simp only [ringNext] at hr
  refine ⟨?_, h2, ?_, ?_, ?_, memWf_memSet b h6 ht⟩ <;> simp only [bufferAfterPush]
  · rw [hu]; omega
  · rw [hr, h3, hu, Nat.mod_add_mod]; congr 1
  · split <;> omega
  · split <;> omega

/-- A pop keeps the invariant. -/
theorem fbInv_pop {cap : Byte} {f : FrameBuffer} (h : FbInv cap f) (hc : f.count ≠ 0) :
    FbInv cap { f with head := ringNext cap f.head, count := f.count - 1 } := by
  obtain ⟨h1, h2, h3, h4, h5, h6⟩ := h
  have hp : 0 < cap.toNat := by omega
  have hz : 1 ≤ f.count.toNat := by
    by_contra hh
    exact hc (BitVec.eq_of_toNat_eq (by simp; omega))
  have he : (f.count - 1).toNat = f.count.toNat - 1 := by
    rw [BitVec.toNat_sub_of_le (by rw [BitVec.le_def]; exact hz)]; rfl
  refine ⟨?_, ?_, ?_, ?_, h5, h6⟩ <;> simp only
  · rw [he]; omega
  · rw [ringNext_toNat cap _ hp]; exact Nat.mod_lt _ hp
  · rw [ringNext_toNat cap _ hp, he, h3, Nat.mod_add_mod]
    congr 1; omega
  · rw [he]; omega

/-- A stored push puts its byte at the end of the queue. -/
theorem fbContents_push {cap b : Byte} {f : FrameBuffer} (h : FbInv cap f) (hc : f.count ≠ cap) :
    fbContents cap (bufferAfterPush cap b f) = fbContents cap f ++ [b] := by
  have hcc := count_lt_of_ne h hc
  obtain ⟨_, _, h3, _, _, h6⟩ := h
  have hcap := cap.isLt
  have hu := toNat_add_one_byte f.count (by omega)
  simp only [fbContents, bufferAfterPush, hu, List.range_succ, List.map_append, List.map_cons, List.map_nil]
  congr 1
  · apply List.map_congr_left
    intro k hk
    rw [List.mem_range] at hk
    apply memGet_memSet_ne
    rw [h3]
    intro e
    have hk' : f.head.toNat + k ≡ f.head.toNat + f.count.toNat [MOD cap.toNat] := e
    have heq := Nat.ModEq.add_left_cancel' _ hk'
    unfold Nat.ModEq at heq
    rw [Nat.mod_eq_of_lt (by omega), Nat.mod_eq_of_lt hcc] at heq
    omega
  · rw [← h3]
    simp only [memWf, Bool.and_eq_true] at h6
    rw [memGet_memSet_same (lo := 0) _ _ h6.1]

/-- A nonempty queue is its oldest byte and the queue a pop leaves. -/
theorem fbContents_pop {cap : Byte} {f : FrameBuffer} (h : FbInv cap f) (hc : f.count ≠ 0) :
    fbContents cap f =
      memGet f.data f.head.toNat :: fbContents cap { f with head := ringNext cap f.head, count := f.count - 1 } := by
  obtain ⟨h1, h2, _⟩ := h
  have hz : 1 ≤ f.count.toNat := by
    by_contra hh
    exact hc (BitVec.eq_of_toNat_eq (by simp; omega))
  obtain ⟨n, hn⟩ : ∃ n, f.count.toNat = n + 1 := ⟨f.count.toNat - 1, by omega⟩
  have he : (f.count - 1).toNat = n := by
    rw [BitVec.toNat_sub_of_le (by rw [BitVec.le_def]; exact hz)]; simp [hn]
  simp only [fbContents, hn, he, List.range_succ_eq_map, List.map_cons, List.map_map, Nat.add_zero, Nat.mod_eq_of_lt h2,
    List.cons.injEq, true_and]
  apply List.map_congr_left
  intro k _
  simp only [Function.comp_apply]
  rw [ringNext_toNat cap _ (by omega), Nat.mod_add_mod]
  congr 2; omega

end Sys2Proof.Machine
end

