-- ==== Sys2Proof/Tests/Slice0.lean ====
section
/-! SUPPORT. The model's own tests: the smoke test of WellFormed, words written out from 30_encoding.md, at most two small tests
per instruction from the vectors of 95_test_vectors.md and the examples of the rules, and for every statement of
Certificates/Slice0/Obligations.lean that has hypotheses a state and operands that meet them. -/

namespace Sys2Proof.Machine.Tests

/-! ### Helpers -/

/-- `o` is a next state that passes the check `p`. -/
def gives (o : Step) (p : State → Bool) : Bool :=
  match o with
  | .next t => p t
  | _ => false

/-- `o` is a next state with result `r`. -/
def answers (o : Step) (r : Result) : Bool := gives o (fun t => decide (t.reply = .returned r))

/-- The reset state in context INT. -/
def int : State := { State.reset with ctx := .int }

/-- The reset state in context HOST. -/
def host : State := { State.reset with ctx := .host }

/-- The reset state with a FrameBuffer of `cap` bytes that holds `n` bytes from index `head` on. -/
def queue (c : Ctx) (cap head n : Byte) (cells : List Host.Cell) : State :=
  { State.reset with
      ctx := c
      cfg := { defaultParams with fbCap := cap }
      fb := { data := cells, head := head, tail := BitVec.ofNat 8 ((head.toNat + n.toNat) % cap.toNat), count := n,
              maxFill := n, overflow := false } }

/-- The reset state with the monitor armed and `ms` milliseconds idle. -/
def idle (ms : Millis) : State := { State.reset with tm := { idle := ms, armed := true } }

/-- The reset state with the parser in state `p`. -/
def parsing (p : ParserState) : State := { State.reset with pp := { State.reset.pp with state := p } }

/-- Between frames with a frame of command `k` in the Packet register, its payload stored whole. -/
def received (k : Command) (comp : Bool) (n : Half) (cells : List Host.Cell) : State :=
  { State.reset with
      pp := { state := .done, index := n, sum := 0, chk := 0, ready := true }
      pkt := { command := k, commandRaw := 0x02, compression := comp, length := n, payload := cells, stored := n,
               status := 0x00, checksumOk := true } }

/-- The PRINT payload 01 13 E4 40 of V-PR-1. -/
def printed : State := received .print false 4 [(0, 0x01), (1, 0x13), (2, 0xE4), (3, 0x40)]

/-- The compressed payload 83 55 of V-DEC-12. -/
def packed : State := received .data true 2 [(0, 0x83), (1, 0x55)]

/-- `s` inside a run. -/
def inRun (m : DecMode) (n : Byte) (pos : Half) (s : State) : State :=
  { s with dec := { mode := m, remaining := n, repeatByte := 0x55, inPos := pos } }

/-- `s` with a tile of `n` bytes. -/
def tiled (n : BitVec 5) (s : State) : State := { s with tile := { buf := [], cursor := n } }

/-- `s` in context INT with a receiver that has sampled `n` bits. -/
def sampled (n : BitVec 3) (acc : Byte) (s : State) : State :=
  { s with ctx := .int, rx := { bitIndex := n, acc := acc, txShift := 0x00, response := false } }

/-- `s` with the parameters changed by `f`. -/
def withCfg (f : Params → Params) (s : State) : State := { s with cfg := f s.cfg }

/-- `s` with the words `ops` issued. -/
def issued (ops : List Issue) (s : State) : State := { s with ops := ops }

/-! ### WellFormed: each check refuses an ill-formed term -/

theorem test_wf_cmd_unknown : (Instr.cmdUnknown 0x02).wf = false ∧ (Instr.cmdUnknown 0x7E).wf = true := by decide

theorem test_legal_defaults : defaultParams.legal = true := by decide

theorem test_illegal_fb_cap : { defaultParams with fbCap := 0 }.legal = false := by decide

theorem test_illegal_timeout :
    { defaultParams with timeoutMs := 0 }.legal = false ∧ { defaultParams with timeoutMs := 0xFFFFFFFF }.legal = false := by
  decide

theorem test_illegal_cmd_code : { defaultParams with cmdCode := { cmdDoc with print := 0x02 } }.legal = false := by decide

theorem test_illegal_rle_count :
    { defaultParams with rleDecode := .table { kind := .literal, count := 1 } [(0x80, { kind := .repeated, count := 0 })] }.legal
      = false ∧
    { defaultParams with rleDecode := .table { kind := .literal, count := 0 } [] }.legal = false := by decide

/-! ### Decoding: words written out from R111 and R112, each with the encoder's answer -/

/-- `w` decodes to `i` and `i` encodes to `w`. -/
def spells (w : OpWord) (i : Instr) : Bool := decide (decodeOp w = .instr i ∧ encode i = .opWord w)

/-- Format E: bit 1 is `c`, bit 0 is `d` (V-ENC-1). -/
theorem test_decode_edge :
    spells 0x01000003 (.edge true true) ∧ spells 0x01000001 (.edge false true) ∧ spells 0x01000002 (.edge true false) := by decide

/-- V-ENC-2, V-ENC-3, P1. -/
theorem test_decode_frame_buffer :
    spells 0x020000AA (.fbPush 0xAA) ∧ spells 0x10000000 .fbPop ∧ spells 0x11000002 (.fbPeek 2) ∧
      spells 0x12000000 .fbCount ∧ spells 0x13000000 .fbCapacity ∧ spells 0x14000000 .fbMaxfill ∧
      spells 0x15000000 .fbOverflow ∧ spells 0x16000000 .fbClearOvf := by decide

/-- V-ENC-4, and all 24 operand bits. -/
theorem test_decode_timeout : spells 0x200001F4 (.tmTick 500) ∧ spells 0x20FFFFFF (.tmTick 0xFFFFFF) := by decide

/-- V-ENC-5, P1. -/
theorem test_decode_parser :
    spells 0x30000088 (.ppProcess 0x88) ∧ spells 0x31000000 .ppReady ∧ spells 0x32000000 .ppTake := by decide

theorem test_decode_decompressor :
    spells 0x40000000 .decFeed ∧ spells 0x41000000 .decPending ∧ spells 0x42000000 .tileReady ∧ spells 0x43000000 .tileTake := by
  decide

/-- P4; SC_ENCODE #0x11 is packet_error and checksum_error (V-SC-1). -/
theorem test_decode_status :
    spells 0x50000011 (.scEncode { lowBattery := false, errorOther := false, paperJam := false, packetError := true,
                                   unprocessedData := false, printBufferFull := false, printerBusy := false,
                                   checksumError := true }) ∧
      spells 0x51000002 (.scDecode 0x02) ∧ spells 0x52000002 (.hsWrite 0x02) := by decide

/-- P4. -/
theorem test_decode_print :
    spells 0x60000000 .prSheets ∧ spells 0x61000000 .prMarginPre ∧ spells 0x62000000 .prMarginPost ∧
      spells 0x63000000 .prPalette ∧ spells 0x64000000 .prDensity := by decide

/-- V-ENC-6. -/
theorem test_decode_reset : spells 0xF0000000 .reset := by decide

/-- V-ENC-7 to V-ENC-9, and one stray bit in formats B and O. -/
theorem test_decode_illegal :
    decodeOp 0x03000000 = .rejected .unassignedOpcode ∧ decodeOp 0x10000001 = .rejected .reservedBits ∧
      decodeOp 0x01000004 = .rejected .reservedBits ∧ decodeOp 0x02000100 = .rejected .reservedBits ∧
      decodeOp 0x11010000 = .rejected .reservedBits := by decide

/-- V-DEC-4, V-DEC-5, V-DEC-9 and P2's 8F: bit 7 the mode, bit 6 ignored, the count less one below (R100). -/
theorem test_decode_rle_doc :
    decode (.rleDocByte 0x40) = .instr (.rleDocLiteral true 0) ∧ decode (.rleDocByte 0x7F) = .instr (.rleDocLiteral true 63) ∧
      decode (.rleDocByte 0x8F) = .instr (.rleDocRepeat false 15) ∧ decode (.rleDocByte 0xC0) = .instr (.rleDocRepeat true 0) ∧
      encode (.rleDocLiteral true 0) = .rleDocByte 0x40 ∧ encode (.rleDocRepeat false 15) = .rleDocByte 0x8F := by decide

/-- V-DEC-10: bit 7 the mode, bits 6:0 the count field (R102). -/
theorem test_decode_rle_gb :
    decode (.rleGbByte 0x00) = .instr (.rleGbLiteral 0) ∧ decode (.rleGbByte 0x81) = .instr (.rleGbRepeat 1) ∧
      encode (.rleGbLiteral 0x40) = .rleGbByte 0x40 ∧ encode (.rleGbRepeat 1) = .rleGbByte 0x81 := by decide

/-- The `CMD_DOC` column of R94. -/
theorem test_decode_cmd :
    decode (.cmdByte 0x01) = .instr .cmdInit ∧ decode (.cmdByte 0x04) = .instr .cmdPrint ∧
      decode (.cmdByte 0x02) = .instr .cmdData ∧ decode (.cmdByte 0x08) = .instr .cmdBreak ∧
      decode (.cmdByte 0x0F) = .instr .cmdInquiry ∧ decode (.cmdByte 0x7E) = .instr (.cmdUnknown 0x7E) ∧
      encode .cmdPrint = .cmdByte 0x04 ∧ encode .cmdInquiry = .cmdByte 0x0F := by decide

/-- The `CMD_GB_WIRE` column of R94. -/
theorem test_decode_cmd_gb_wire : decodeCmd cmdGbWire 0x02 = .cmdPrint ∧ decodeCmd cmdGbWire 0x04 = .cmdData := by decide

/-! ### The step and the fetch -/

/-- V-ENC-7: an illegal word changes no state and sets the mark. -/
theorem test_step_illegal :
    gives (step (issued [{ ctx := .main, word := 0x03000000 }] State.reset))
      (fun t => decide (t = { State.reset with reply := .refused .illegalOp, refused := true })) := by decide

/-- V-ENC-10: EDGE issued in context MAIN. -/
theorem test_step_wrong_context :
    gives (step (issued [{ ctx := .main, word := 0x01000001 }] State.reset))
      (fun t => decide (t = { State.reset with reply := .refused .wrongContext, refused := true })) := by decide

/-- FB_PUSH #0xAA is fetched from context INT and stores its byte. -/
theorem test_fetch_operation :
    gives (step (State.reset.withFetchWord 32 0x020000AA)) (fun t => decide (t.ops = [] ∧ t.fb.count = 1 ∧ t.refused = false)) := by
  decide

/-- The control byte 8F is REPEAT with count 16 (P2). -/
theorem test_fetch_control_byte :
    decodeTableWord 8 0x8F = some (.rleDocRepeat false 15) ∧
      gives (step (State.reset.withFetchWord 8 0x8F))
        (fun t => decide (t.dec = { mode := .repeatByte, remaining := 16, repeatByte := 0x00, inPos := 1 })) := by decide

/-- The command byte 04 is PRINT (R94). -/
theorem test_fetch_command_byte :
    decodeTableWord 8 0x04 = some .cmdPrint ∧
      gives (step (State.reset.withFetchWord 8 0x04))
        (fun t => decide (t.pkt.command = .print ∧ t.pkt.commandRaw = 0x04 ∧ t.pp.state = .compression)) := by decide

/-! ### BitReceiver -/

/-- The last bit of V-RX-4: seven bits of A5 sampled, then a 1, completes A5. -/
theorem test_edge_completes_the_byte :
    gives (execEdge true true (sampled 7 0x52 int))
      (fun t => decide (t.fb.data = [(0, 0xA5)] ∧ t.fb.count = 1 ∧ t.rx.bitIndex = 0 ∧ t.rx.acc = 0x00)) := by decide

/-- The last bit of V-RX-6: the byte 22 finds the buffer full. -/
theorem test_edge_drops_the_byte :
    gives (execEdge true false (sampled 7 0x11 (queue .int 1 0 1 [(0, 0x11)])))
      (fun t => decide (t.fb.data = [(0, 0x11)] ∧ t.fb.overflow = true ∧ t.rx.bitIndex = 0 ∧
        t.event = some (.bufferOverflow 0x22))) := by decide

/-! ### FrameBuffer -/

/-- The example of R150: `FB_CAP = 4`, empty, head 3. -/
theorem test_fb_push_wraps :
    gives (execFbPush 0xAA (queue .int 4 3 0 []))
      (fun t => decide (t.fb.data = [(3, 0xAA)] ∧ t.fb.tail = 0 ∧ t.fb.count = 1)) := by decide

/-- V-FB-7: the second push into one byte of storage. -/
theorem test_fb_push_full : answers (execFbPush 2 (queue .int 1 0 1 [(0, 1)])) .overflow := by decide

/-- The example of R151. -/
theorem test_fb_pop :
    gives (execFbPop (queue .main 4 0 2 [(0, 0x11), (1, 0x22)]))
      (fun t => decide (t.reply = .returned (.value (.byte 0x11)) ∧ t.fb.count = 1 ∧ t.tm = { idle := 0, armed := true })) := by
  decide

/-- V-FB-1. -/
theorem test_fb_pop_empty :
    gives (execFbPop (queue .main 4 0 0 [])) (fun t => decide (t.reply = .returned .empty ∧ t.tm.armed = false)) := by decide

/-- The example of R152, with the second byte stored past the wrap. -/
theorem test_fb_peek : answers (execFbPeek 2 (queue .main 4 2 3 [(0, 0x33), (2, 0x11), (3, 0x22)])) (.value (.byte 0x33)) := by decide

theorem test_fb_peek_out_of_range :
    answers (execFbPeek 3 (queue .main 4 2 3 [(0, 0x33), (2, 0x11), (3, 0x22)])) .outOfRange := by decide

/-- The examples of R153 and R154; FB_CAPACITY from both contexts (V-FB-6). -/
theorem test_fb_count : answers (execFbCount (queue .main 32 0 3 [])) (.value (.count 3)) := by decide

theorem test_fb_capacity :
    answers (execFbCapacity State.reset) (.value (.count 32)) ∧ answers (execFbCapacity int) (.value (.count 32)) := by decide

/-- V-FB-4. -/
theorem test_fb_maxfill :
    answers (execFbMaxfill { State.reset with fb := { State.reset.fb with maxFill := 4 } }) (.value (.count 4)) := by decide

theorem test_fb_overflow :
    gives (execFbOverflow { State.reset with fb := { State.reset.fb with overflow := true } })
      (fun t => decide (t.reply = .returned (.value (.bit true)) ∧ t.fb.overflow = true)) := by decide

theorem test_fb_clear_ovf :
    gives (execFbClearOvf { State.reset with fb := { State.reset.fb with overflow := true } })
      (fun t => decide (t.reply = .returned .ok ∧ t.fb.overflow = false)) := by decide

/-! ### TimeoutMonitor -/

/-- V-TM-2: 500 does not fire, 501 does. -/
theorem test_tm_tick_strict :
    answers (execTmTick 500 (idle 0)) (.value (.bit false)) ∧ answers (execTmTick 1 (idle 500)) (.value (.bit true)) := by decide

/-- The last tick of V-TM-5: the idle time saturates. -/
theorem test_tm_tick_saturates :
    gives (execTmTick 0xFFFFFF (withCfg (fun p => { p with timeoutMs := 0xFFFFFFFE }) (idle 4294967040)))
      (fun t => decide (t.tm = { idle := 0xFFFFFFFF, armed := false } ∧ t.event = some .sessionTimeout)) := by decide

/-! ### PacketParser -/

/-- V-PP-4: the byte that fails as SYNC1 is tested again as SYNC0. -/
theorem test_pp_process_slides :
    gives (execPpProcess 0x88 (parsing .awaitSync1)) (fun t => decide (t.pp.state = .awaitSync1)) ∧
      gives (execPpProcess 0x12 (parsing .awaitSync1)) (fun t => decide (t.pp.state = .awaitSync0)) := by decide

/-- V-PP-11: bits 4 and 0 of the host status are masked. -/
theorem test_pp_process_keepalive :
    gives (execPpProcess 0x00 { parsing .keepalive with hsStatus := 0xFF })
      (fun t => decide (t.reply = .returned (.value (.bit true)) ∧ t.pkt.status = 0xEE ∧ t.pp.ready = true)) := by decide

theorem test_pp_ready : answers (execPpReady packed) (.value (.bit true)) ∧ answers (execPpReady State.reset) (.value (.bit false)) := by
  decide

/-- The Packet value of P2. -/
theorem test_pp_take :
    answers (execPpTake (received .data true 2 [(0, 0x8F), (1, 0xAA)]))
      (.value (.packet { command := .data, commandRaw := 0x02, compression := true, payloadLength := 2, payload := [0x8F, 0xAA],
                         status := 0x00, checksumOk := true })) := by decide

/-- V-PP-8. -/
theorem test_pp_take_twice : answers (execPpTake State.reset) .notReady := by decide

/-! ### TileDecompressor and TileAccumulator -/

/-- V-DEC-12, call 1. -/
theorem test_dec_feed_repeat :
    gives (execDecFeed packed)
      (fun t => decide (t.reply = .returned (.value (.bit false)) ∧ t.tile = { buf := [(0, 0x55)], cursor := 1 } ∧
        t.dec = { mode := .repeatEmit, remaining := 3, repeatByte := 0x55, inPos := 2 })) := by decide

/-- V-DEC-15: a full tile stalls. -/
theorem test_dec_feed_stalls :
    gives (execDecFeed (tiled 16 packed)) (fun t => decide (t.reply = .returned (.value (.bit true)) ∧ t.dec = packed.dec)) := by
  decide

/-- The example of R256, and V-DEC-16. -/
theorem test_dec_pending :
    answers (execDecPending (inRun .repeatEmit 1 2 packed)) (.value (.bit true)) ∧
      answers (execDecPending printed) (.value (.bit false)) := by decide

theorem test_tile_ready :
    answers (execTileReady (tiled 16 packed)) (.value (.bit true)) ∧ answers (execTileReady (tiled 15 packed)) (.value (.bit false)) := by
  decide

/-- V-DEC-15: the tile is taken once. -/
theorem test_tile_take :
    gives (execTileTake { State.reset with tile := { buf := [(0, 0xAA), (15, 0x55)], cursor := 16 } })
      (fun t => decide (t.tile.cursor = 0 ∧ t.reply = .returned (.value (.tile ([0xAA] ++ List.replicate 14 0x00 ++ [0x55]))))) := by
  decide

theorem test_tile_take_partial : answers (execTileTake (tiled 15 packed)) .notReady := by decide

/-! ### StatusCodec, host status, PRINT accessors -/

/-- The example of R291 and V-SC-1. -/
theorem test_sc_encode :
    answers (execScEncode { lowBattery := false, errorOther := false, paperJam := false, packetError := true,
                            unprocessedData := false, printBufferFull := false, printerBusy := false, checksumError := true } int)
      (.value (.byte 0x11)) := by decide

/-- V-SC-2. -/
theorem test_sc_decode :
    answers (execScDecode 0x81 State.reset)
      (.value (.flags { lowBattery := true, errorOther := false, paperJam := false, packetError := false,
                        unprocessedData := false, printBufferFull := false, printerBusy := false, checksumError := true })) := by
  decide

theorem test_hs_write : gives (execHsWrite 0x02 State.reset) (fun t => decide (t.hsStatus = 0x02)) := by decide

/-- `s` under the layout `BYTE_MARGINS`. -/
def byteMargins (s : State) : State := withCfg (fun p => { p with printLayout := .byteMargins }) s

/-- V-PR-1 and V-PR-5, and V-PR-6 for a payload that is not stored. -/
theorem test_pr_sheets :
    answers (execPrSheets printed) (.value (.byte 1)) ∧ answers (execPrSheets State.reset) (.value (.byte 0)) := by decide

theorem test_pr_margin_pre :
    answers (execPrMarginPre printed) (.value (.byte 1)) ∧ answers (execPrMarginPre (byteMargins printed)) (.value (.byte 0x13)) := by
  decide

theorem test_pr_margin_post :
    answers (execPrMarginPost printed) (.value (.byte 3)) ∧ answers (execPrMarginPost (byteMargins printed)) (.value (.byte 0xE4)) := by
  decide

theorem test_pr_palette :
    answers (execPrPalette printed) (.value (.byte 0xE4)) ∧ answers (execPrPalette (byteMargins printed)) (.value (.byte 0x40)) := by
  decide

theorem test_pr_density :
    answers (execPrDensity printed) (.value (.byte 0x40)) ∧ answers (execPrDensity (byteMargins printed)) (.value (.byte 0)) := by
  decide

/-! ### RESET -/

/-- V-RST-1. -/
theorem test_reset :
    gives (execReset { packed with ctx := .host, refused := true, hsStatus := 0x02 })
      (fun t => decide (t.reply = .returned .ok ∧ t.pp.ready = false ∧ t.pkt.stored = 0 ∧ t.hsStatus = 0x00 ∧ t.refused = true)) := by
  decide

/-! ### The wire-byte rows -/

/-- V-DEC-4: 40 is LITERAL with count 1. -/
theorem test_rle_doc_literal :
    gives (execRleDocLiteral true 0 packed) (fun t => decide (t.dec.mode = .control ∧ t.tile.buf = [(0, 0x55)])) := by decide

/-- V-DEC-2: 83 is REPEAT with count 4. -/
theorem test_rle_doc_repeat :
    gives (execRleDocRepeat false 3 packed) (fun t => decide (t.dec.mode = .repeatEmit ∧ t.dec.remaining = 3)) := by decide

/-- `s` under the profile `RLE_GB`. -/
def gb (s : State) : State := withCfg (fun p => { p with rleDecode := .gb }) s

/-- V-DEC-10: 00 is LITERAL with count 1, 81 is REPEAT with count 3. -/
theorem test_rle_gb_literal : gives (execRleGbLiteral 0 (gb packed)) (fun t => decide (t.dec.mode = .control ∧ t.tile.cursor = 1)) := by
  decide

theorem test_rle_gb_repeat :
    gives (execRleGbRepeat 1 (gb packed)) (fun t => decide (t.dec.mode = .repeatEmit ∧ t.dec.remaining = 2)) := by decide

/-- The command `k` and its byte enter the Packet register. -/
def enters (o : Step) (k : Command) (b : Byte) : Bool :=
  gives o (fun t => decide (t.pkt.command = k ∧ t.pkt.commandRaw = b ∧ t.pp.sum = b.setWidth 16))

/-- The `CMD_DOC` column of R94; V-PP-5 for the unknown byte 7E. -/
theorem test_cmd_init : enters (execCmdInit (parsing .command)) .init 0x01 := by decide
theorem test_cmd_print : enters (execCmdPrint (parsing .command)) .print 0x04 := by decide
theorem test_cmd_data : enters (execCmdData (parsing .command)) .data 0x02 := by decide
theorem test_cmd_break : enters (execCmdBreak (parsing .command)) .brk 0x08 := by decide
theorem test_cmd_inquiry : enters (execCmdInquiry (parsing .command)) .inquiry 0x0F := by decide
theorem test_cmd_unknown : enters (execCmdUnknown 0x7E (parsing .command)) .unknown 0x7E := by decide

/-! ### The glue's written forms -/

/-- R116: an operand out of its field's range is an assembly error. -/
theorem test_assemble :
    assemble "FB_PUSH" [0xAA] = some (.fbPush 0xAA) ∧ assemble "FB_PUSH" [256] = none ∧ assemble "EDGE" [1, 2] = none ∧
      assemble "TM_TICK" [500] = some (.tmTick 500) ∧ assemble "RESET" [] = some .reset := by decide

/-- The example of R117: the 16 words of `RXBYTE #0x88`. -/
theorem test_rxbyte :
    (rxByte defaultParams 0x88).map encode =
      ([0x01000001, 0x01000003, 0x01000000, 0x01000002, 0x01000000, 0x01000002, 0x01000000, 0x01000002, 0x01000001, 0x01000003,
        0x01000000, 0x01000002, 0x01000000, 0x01000002, 0x01000000, 0x01000002]).map .opWord := by decide

/-- V-L1-1, P2 and P4: the bytes of three frames. -/
theorem test_frame :
    frame 0x02 0x01 [0, 0, 0, 0] = [0x88, 0x33, 0x02, 0x01, 0x04, 0x00, 0x00, 0x00, 0x00, 0x00, 0x07, 0x00, 0x00] ∧
      frame 0x02 0x01 [0x8F, 0xAA] = [0x88, 0x33, 0x02, 0x01, 0x02, 0x00, 0x8F, 0xAA, 0x3E, 0x01, 0x00] ∧
      frameChecksum 0x04 0x00 [0x01, 0x13, 0xE4, 0x40] = 0x0140 := by decide

/-- R119: what POLL issues after each answer. -/
theorem test_poll :
    pollNext .pop (.returned .empty) = .tick ∧ pollNext (.process 0x00) (.returned (.value (.bit true))) = .take ∧
      pollNext .feed (.returned (.value (.bit true))) = .tileTake ∧ pollNext .pending (.returned (.value (.bit false))) = .pop := by
  decide

/-! ### The hypotheses of the statements are met

One theorem per statement with hypotheses, named after it: a state and operands that meet them together, each clause at a
boundary of its range. Where a hypothesis is about the state an operation leaves, `gives` says that there is one. -/

theorem test_meets_DecodeOfEncode : (Instr.cmdUnknown 0x00).wf = true ∧ (Instr.tmTick 0xFFFFFF).wf = true := by decide

theorem test_meets_EncodeOfDecode :
    decode (.opWord 0x1100FFFF) = .instr (.fbPeek 0xFFFF) ∧ decode (.cmdByte 0xFF) = .instr (.cmdUnknown 0xFF) := by decide

theorem test_meets_IllegalWordsAreRefused :
    (issued [{ ctx := .main, word := 0xFF000000 }] State.reset).ops = { ctx := .main, word := 0xFF000000 } :: [] ∧
      illegalWord 0xFF000000 = true ∧ illegalWord 0x10800000 = true ∧ illegalWord 0x01000004 = true ∧
      illegalWord 0x20FFFFFF = false := by decide

theorem test_meets_StepRunsTheIssuedOperation :
    (issued [{ ctx := .int, word := 0x020000AA }] State.reset).ops = { ctx := .int, word := 0x020000AA } :: [] ∧
      decodeOp 0x020000AA = .instr (.fbPush 0xAA) := by decide

theorem test_meets_NothingIssuedNothingHappens : State.reset.ops = [] := by decide

theorem test_meets_AccessDisciplineIsEnforced :
    mayIssue int.ctx .fbPop = false ∧ mayIssue State.reset.ctx .reset = false ∧ mayIssue host.ctx .fbCapacity = false ∧
      mayIssue int.ctx .fbCapacity = true ∧ gives (exec .fbCapacity int) (fun _ => true) := by decide

theorem test_meets_RefusedMarkIsNeverCleared :
    gives (step (issued [{ ctx := .host, word := 0xF0000000 }] { State.reset with refused := true }))
        (fun t => decide (t.reply = .returned .ok)) ∧
      (issued [{ ctx := .int, word := 0xF0000000 }] State.reset).ops ≠ [] ∧
      gives (step (issued [{ ctx := .int, word := 0xF0000000 }] State.reset))
        (fun t => decide (t.reply = .refused .wrongContext)) := by decide

theorem test_meets_ParametersAreFixed :
    gives (step (issued [{ ctx := .host, word := 0xF0000000 }] packed)) (fun _ => true) := by decide

/-- The parameters at both ends of their ranges. -/
def smallest : Params := { defaultParams with fbCap := 1, payloadCap := 0, timeoutMs := 1 }

def largest : Params := { defaultParams with fbCap := 255, payloadCap := 65535, timeoutMs := 0xFFFFFFFE, cmdCode := cmdGbWire }

theorem test_meets_ResetMeetsTheInvariant : smallest.legal = true ∧ largest.legal = true := by decide

theorem test_meets_StepKeepsTheInvariant :
    Inv packed ∧ gives (step (issued [{ ctx := .main, word := 0x40000000 }] packed)) (fun _ => true) := by decide

theorem test_meets_NoConditionIsFatal : Inv State.reset ∧ Inv packed ∧ Inv (queue .int 1 0 1 [(0, 0x11)]) :=
  ⟨by decide, by decide, by decide⟩

theorem test_meets_StepKeepsStatusBitsTrue :
    StatusTrue packed.cfg.payloadCap packed.pp packed.pkt ∧
      StatusTrue 2 (parsing .payload).pp { packed.pkt with length := 3, status := 0xFE } ∧
      StatusTrue 2 (parsing .done).pp { packed.pkt with length := 3, status := 0x11, checksumOk := false } ∧
      gives (step (issued [{ ctx := .main, word := 0x30000088 }] packed)) (fun _ => true) := by decide

theorem test_meets_UncountedEdgeHoldsTheResponse :
    int.ctx = .int ∧ int.cfg.edgeMode = .risingOnly ∧ int.rx = (State.resetWith int.cfg).rx ∧
      ({ int with rx := { int.rx with response := true } }).cfg.edgeMode = .risingOnly := by decide

/-- `s` in the edge mode `ALL_EDGES`. -/
def allEdges (s : State) : State := withCfg (fun p => { p with edgeMode := .allEdges }) s

theorem test_meets_CountedEdgeShiftsOneBit :
    (sampled 0 0x00 int).ctx = .int ∧ (sampled 0 0x00 int).rx.bitIndex ≠ 7 ∧ (sampled 6 0x3F int).rx.bitIndex ≠ 7 ∧
      ((sampled 6 0x3F int).cfg.edgeMode = .allEdges ∨ true = true) ∧
      ((allEdges (sampled 6 0x3F int)).cfg.edgeMode = .allEdges ∨ false = true) := by decide

theorem test_meets_EighthEdgePushesTheByte :
    (sampled 7 0x7F (queue .int 2 1 1 [])).ctx = .int ∧ (sampled 7 0x7F (queue .int 2 1 1 [])).rx.bitIndex = 7 ∧
      ((sampled 7 0x7F (queue .int 2 1 1 [])).cfg.edgeMode = .allEdges ∨ true = true) ∧
      (queue .int 2 1 1 []).fb.count ≠ 2 ∧ (queue .int 2 0 1 []).fb.tail.toNat < (2 : Byte).toNat ∧
      (queue .int 2 0 1 []).fb.tail = 1 ∧ (sampled 7 0x7F (queue .int 2 0 2 [])).fb.count = 2 := by decide

theorem test_meets_EdgesOfAByteDeliverTheByte :
    Inv (queue .int 2 1 1 []) ∧ (queue .int 2 1 1 []).rx.bitIndex = 0 ∧ (queue .int 2 1 1 []).fb.count ≠ 2 ∧
      Inv (queue .main 2 1 2 []) ∧ (queue .main 2 1 2 []).rx.bitIndex = 0 ∧ (queue .main 2 1 2 []).fb.count = 2 := by decide

theorem test_meets_PushStoresOrDropsTheByte :
    (queue .int 2 0 1 []).ctx = .int ∧ (queue .int 2 0 1 []).fb.count ≠ 2 ∧
      (queue .int 2 0 1 []).fb.tail.toNat < (2 : Byte).toNat ∧ (queue .int 2 0 2 []).ctx = .int ∧
      (queue .int 2 0 2 []).fb.count = 2 := by decide

theorem test_meets_PopRemovesTheOldestByte :
    (queue .main 2 1 1 []).ctx = .main ∧ (queue .main 2 1 1 []).fb.count ≠ 0 ∧
      (queue .main 2 1 1 []).fb.head.toNat < (2 : Byte).toNat ∧ (queue .main 2 1 0 []).ctx = .main ∧
      (queue .main 2 1 0 []).fb.count = 0 := by decide

theorem test_meets_FrameBufferIsAQueue :
    Inv (queue .int 2 1 1 []) ∧ (queue .int 2 1 1 []).ctx = .int ∧ Inv (queue .int 2 1 2 []) ∧
      (fbContents 2 (queue .int 2 1 2 []).fb).length = 2 ∧ Inv (queue .main 2 1 1 [(1, 0x22)]) ∧
      (queue .main 2 1 1 [(1, 0x22)]).ctx = .main ∧ fbContents 2 (queue .main 2 1 1 [(1, 0x22)]).fb = [0x22] ∧
      Inv (queue .main 2 1 0 []) :=
  ⟨by decide, by decide, by decide, by decide, by decide, by decide, by decide, by decide⟩

theorem test_meets_PeekReadsTheQueueAtTheOffset :
    Inv (queue .main 2 1 2 [(1, 0x22)]) ∧ (queue .main 2 1 2 [(1, 0x22)]).ctx = .main ∧
      (fbContents 2 (queue .main 2 1 2 [(1, 0x22)]).fb)[1]? = some 0x00 ∧
      (fbContents 2 (queue .main 2 1 2 [(1, 0x22)]).fb)[2]? = none := by decide

theorem test_meets_CapacityPlusOneKeepsTheOrder :
    Inv (queue .main 1 0 0 []) ∧ (queue .main 1 0 0 []).fb.count = 0 ∧ [(0x11 : Byte)].length = (1 : Byte).toNat ∧
      Inv (queue .main 4 3 0 []) ∧ (queue .main 4 3 0 []).fb.count = 0 ∧
      [(0xA0 : Byte), 0xA1, 0xA2, 0xA3].length = (4 : Byte).toNat ∧ [(0xA0 : Byte), 0xA1, 0xA2, 0xA3][3]? = some 0xA3 := by decide

theorem test_meets_BufferQueriesAndClear : State.reset.ctx = .main ∧ int.ctx = .int := by decide

theorem test_meets_OnlyPopAndResetRemoveBytes :
    Inv (queue .int 2 1 1 [(1, 0x22)]) ∧ (Instr.fbPush 0x33) ≠ .fbPop ∧ (Instr.fbPush 0x33) ≠ .reset ∧
      gives (exec (.fbPush 0x33) (queue .int 2 1 1 [(1, 0x22)])) (fun _ => true) := by decide

theorem test_meets_TickCountsAndFires :
    State.reset.ctx = .main ∧ State.reset.tm.armed = false ∧ (idle 400).ctx = .main ∧ (idle 400).tm.armed = true ∧
      min ((idle 400).tm.idle.toNat + (100#24).toNat) (2 ^ 32 - 1) ≤ (idle 400).cfg.timeoutMs.toNat ∧
      (idle 400).cfg.timeoutMs.toNat < min ((idle 400).tm.idle.toNat + (101#24).toNat) (2 ^ 32 - 1) := by decide

theorem test_meets_OneTimeoutPerIdlePeriod :
    gives (exec (.tmTick 1) (idle 500)) (fun t => decide (t.event = some .sessionTimeout)) ∧
      (queue .main 2 1 1 []).tm.armed = false ∧
      gives (exec .fbPop (queue .main 2 1 1 [])) (fun t => decide (t.tm.armed = true)) := by decide

theorem test_meets_ParserFollowsTheTable : (parsing .lengthHigh).ctx = .main := by decide

theorem test_meets_SyncSearchAndFrameStart :
    (parsing .awaitSync0).ctx = .main ∧ (parsing .awaitSync0).pp.state = .awaitSync0 ∧ (parsing .awaitSync1).ctx = .main ∧
      (parsing .awaitSync1).pp.state = .awaitSync1 ∧ (0x88 : Byte) ≠ 0x33 := by decide

theorem test_meets_HeaderBytesEnterTheirFields :
    (parsing .command).ctx = .main ∧ (parsing .command).pp.state = .command ∧ (parsing .compression).ctx = .main ∧
      (parsing .compression).pp.state = .compression ∧ (parsing .lengthLow).ctx = .main ∧
      (parsing .lengthLow).pp.state = .lengthLow ∧ (parsing .lengthHigh).ctx = .main ∧
      (parsing .lengthHigh).pp.state = .lengthHigh := by decide

theorem test_meets_PayloadByteIsStoredAndSummed :
    (parsing .payload).ctx = .main ∧ (parsing .payload).pp.state = .payload := by decide

theorem test_meets_ChecksumAndKeepaliveCompleteThePacket :
    (parsing .checksumLow).ctx = .main ∧ (parsing .checksumLow).pp.state = .checksumLow ∧ (parsing .checksumHigh).ctx = .main ∧
      (parsing .checksumHigh).pp.state = .checksumHigh ∧ (parsing .keepalive).ctx = .main ∧
      (parsing .keepalive).pp.state = .keepalive := by decide

theorem test_meets_ByteAfterDoneIsASyncCandidate : packed.ctx = .main ∧ packed.pp.state = .done := by decide

theorem test_meets_AFrameIsReceived :
    Inv State.reset ∧ State.reset.pp.state = .awaitSync0 ∧ Inv packed ∧ packed.pp.state = .done ∧
      ([] : List Byte).length ≤ 65535 ∧ (List.replicate 65535 (0xFF : Byte)).length ≤ 65535 :=
  ⟨by decide, by decide, by decide, by decide, by decide, by rw [List.length_replicate]⟩

theorem test_meets_PacketIsTakenOnce :
    State.reset.ctx = .main ∧ State.reset.pp.ready = false ∧ packed.ctx = .main ∧ packed.pp.ready = true ∧
      (withCfg (fun p => { p with payloadCap := 2 }) packed).pkt.stored.toNat ≤ (2 : Half).toNat := by decide

theorem test_meets_FeedWithNothingToDo :
    (tiled 16 packed).ctx = .main ∧ (tiled 16 packed).tile.cursor = 16 ∧ (tiled 15 printed).ctx = .main ∧
      (tiled 15 printed).tile.cursor ≠ 16 ∧ (tiled 15 printed).pkt.command ≠ .data ∧
      (inRun .literal 1 2 packed).ctx = .main ∧ (inRun .literal 1 2 packed).tile.cursor ≠ 16 ∧
      (inRun .literal 1 2 packed).pkt.command = .data ∧ (inRun .literal 1 2 packed).dec.inPos = packed.pkt.stored ∧
      (packed.pkt.compression = false ∨ (inRun .literal 1 2 packed).dec.mode ≠ .repeatEmit) := by decide

/-- A DATA packet of two bytes that is not compressed, its last byte not yet read. -/
def raw : State := inRun .control 0 1 (received .data false 2 [(0, 0x01), (1, 0x02)])

theorem test_meets_FeedPassesRawBytesThrough :
    (tiled 15 raw).ctx = .main ∧ (tiled 15 raw).tile.cursor.toNat < 16 ∧ raw.pkt.command = .data ∧ raw.pkt.compression = false ∧
      raw.dec.inPos.toNat < raw.pkt.stored.toNat ∧ raw.pkt.stored.toNat ≤ raw.cfg.payloadCap.toNat := by decide

theorem test_meets_FeedContinuesARun :
    (tiled 15 packed).ctx = .main ∧ (tiled 15 packed).tile.cursor.toNat < 16 ∧ packed.pkt.command = .data ∧
      packed.pkt.compression = true ∧ packed.pkt.stored.toNat ≤ packed.cfg.payloadCap.toNat ∧
      (inRun .literal 1 1 packed).dec.mode = .literal ∧ (inRun .literal 1 1 packed).dec.inPos.toNat < packed.pkt.stored.toNat ∧
      (inRun .repeatByte 1 1 packed).dec.mode = .repeatByte ∧
      (inRun .repeatByte 1 1 packed).dec.inPos.toNat < packed.pkt.stored.toNat ∧
      (inRun .repeatEmit 1 2 packed).dec.mode = .repeatEmit := by decide

/-- Two stored bytes, the first a LITERAL control byte. -/
def literal : State := received .data true 2 [(1, 0x55)]

theorem test_meets_FeedBeginsARun :
    packed.ctx = .main ∧ packed.tile.cursor.toNat < 16 ∧ packed.pkt.command = .data ∧ packed.pkt.compression = true ∧
      packed.pkt.stored.toNat ≤ packed.cfg.payloadCap.toNat ∧ packed.dec.mode = .control ∧
      packed.dec.inPos.toNat + 1 < packed.pkt.stored.toNat ∧
      (rleRun packed.cfg.rleDecode (memGet packed.pkt.payload 0)).kind = .repeated ∧
      literal.dec.inPos.toNat + 1 < literal.pkt.stored.toNat ∧
      (rleRun literal.cfg.rleDecode (memGet literal.pkt.payload 0)).kind = .literal ∧
      (inRun .control 0 1 packed).dec.inPos.toNat + 1 = packed.pkt.stored.toNat := by decide

theorem test_meets_PendingMeansFeedMakesProgress :
    Inv packed ∧ packed.ctx = .main ∧ Inv (tiled 16 packed) ∧ (tiled 16 packed).ctx = .main := by decide

theorem test_meets_TileIsTakenWhenFull :
    (tiled 15 packed).ctx = .main ∧ (tiled 15 packed).tile.cursor.toNat < 16 ∧ (tiled 16 packed).ctx = .main ∧
      (tiled 16 packed).tile.cursor = 16 := by decide

theorem test_meets_StatusCodecPlacesTheFlags :
    (State.reset.ctx = .main ∨ State.reset.ctx = .int) ∧ (int.ctx = .main ∨ int.ctx = .int) := by decide

theorem test_meets_HostStatusIsWritten : State.reset.ctx = .main := by decide

theorem test_meets_PrintFieldsOfNibbleMargins :
    printed.ctx = .main ∧ printed.cfg.printLayout = .nibbleMargins ∧ printed.pkt.stored.toNat ≤ printed.cfg.payloadCap.toNat ∧
      (withCfg (fun p => { p with payloadCap := 4 }) printed).pkt.stored.toNat ≤ (4 : Half).toNat := by decide

theorem test_meets_PrintFieldsOfByteMargins :
    (byteMargins printed).ctx = .main ∧ (byteMargins printed).cfg.printLayout = .byteMargins ∧
      (byteMargins printed).pkt.stored.toNat ≤ (byteMargins printed).cfg.payloadCap.toNat := by decide

theorem test_meets_ResetLoadsTheResetValues : host.ctx = .host := by decide

theorem test_meets_CommandRowsEnterTheCommand :
    (parsing .command).ctx = .main ∧ (parsing .command).pp.state = .command ∧
      (0x7E : Byte) ∉ [cmdDoc.init, cmdDoc.print, cmdDoc.data, cmdDoc.brk, cmdDoc.inquiry] := by decide

theorem test_meets_FeedRunsTheControlRow :
    Inv packed ∧ decodeRle packed.cfg.rleDecode (memGet packed.pkt.payload 0) = some (.rleDocRepeat false 3) ∧
      Inv (gb packed) ∧ decodeRle (gb packed).cfg.rleDecode (memGet packed.pkt.payload 0) = some (.rleGbRepeat 3) := by decide

theorem test_meets_ControlRowsBeginTheirRuns :
    (inRun .control 0 1 packed).ctx = .main ∧ (inRun .control 0 1 packed).tile.cursor.toNat < 16 ∧ packed.pkt.command = .data ∧
      packed.pkt.compression = true ∧ (inRun .control 0 1 packed).dec.mode = .control ∧
      (inRun .control 0 1 packed).dec.inPos.toNat + 1 = packed.pkt.stored.toNat ∧ packed.cfg.rleDecode = .doc ∧
      (inRun .control 0 1 (gb packed)).cfg.rleDecode = .gb := by decide

/-- Each of the ways a control row is not at its control byte. -/
theorem test_meets_ControlRowsElsewhereFeed :
    (tiled 16 packed).tile.cursor = 16 ∧ printed.pkt.command ≠ .data ∧ raw.pkt.compression = false ∧
      (inRun .literal 1 1 packed).dec.mode ≠ .control ∧ (inRun .control 0 2 packed).dec.inPos = packed.pkt.stored ∧
      (gb packed).cfg.rleDecode ≠ .doc ∧ packed.cfg.rleDecode ≠ .gb := by decide

/-- A byte stored, and each form that stores none: a full buffer whose tail is its head, an uncounted edge, an earlier edge, a query, a
refused operation. -/
theorem test_meets_InterruptFrame :
    gives (exec (.fbPush 0xAA) int) (fun t => decide (int.ctx = .int ∧ memGet t.fb.data 0 = 0xAA)) ∧
      gives (exec (.edge true true) (sampled 7 0x52 (queue .int 1 0 1 [(0, 0x11)])))
        (fun t => decide (t.fb.overflow = true ∧ storesByte (.edge true true) (sampled 7 0x52 (queue .int 1 0 1 [(0, 0x11)])) = false)) ∧
      (gives (exec (.edge false true) int) (fun t => decide (t.rx = int.rx)) ∧ storesByte (.edge false true) int = false) ∧
      (gives (exec (.edge true true) int) (fun t => decide (t.rx ≠ int.rx)) ∧ storesByte (.edge true true) int = false) ∧
      gives (exec .fbCapacity int) (fun _ => true) ∧ gives (exec .fbPop int) (fun t => decide (t.refused = true)) := by decide

theorem test_meets_MainFrame :
    (idle 500).ctx = .main ∧ gives (exec .fbPop (queue .main 2 1 1 [])) (fun _ => true) ∧
      gives (exec (.tmTick 1) (withCfg (fun p => { p with rxResetOnTimeout := true })
        { idle 500 with rx := { bitIndex := 3, acc := 0x05, txShift := 0x00, response := false } }))
        (fun t => decide (t.rx.bitIndex = 0)) := by decide

theorem test_meets_ProcessFrame :
    gives (exec (.ppProcess 0x33) (parsing .awaitSync1)) (fun t => decide (t.pp.state = .command)) ∧
      gives (exec .cmdData (parsing .command)) (fun _ => true) ∧ (parsing .command).pp.state ≠ .payload ∧
      gives (exec (.ppProcess 0x11) (parsing .payload)) (fun t => decide (memGet t.pkt.payload 0 = 0x11)) ∧
      gives (exec (.ppProcess 0x11) (withCfg (fun p => { p with payloadCap := 0 }) (parsing .payload)))
        (fun t => decide (t.pp.index = 1)) ∧
      gives (exec (.ppProcess 0x11) { parsing .payload with ctx := .int }) (fun t => decide (t.refused = true)) := by decide

theorem test_meets_FeedFrame :
    gives (exec .decFeed packed) (fun t => decide (memGet t.tile.buf 0 = 0x55)) ∧
      gives (exec (.rleDocRepeat false 3) packed) (fun _ => true) ∧ gives (exec (.rleGbRepeat 3) (gb packed)) (fun _ => true) := by
  decide

/-- The operation takes `s` to a state where the bit `flag` has turned from `v` to its opposite. -/
def turns (i : Instr) (s : State) (flag : State → Bool) (v : Bool) : Bool :=
  flag s == v && gives (exec i s) (fun t => flag t == !v)

/-- One millisecond before the timeout, with no packet waiting to be taken. -/
def lapsing (s : State) : State := { s with tm := { idle := 500, armed := true }, pp := { s.pp with ready := false } }

theorem test_meets_FlagsHaveOnlyTheirWriters_buffer_and_monitor :
    turns (.fbPush 0x22) (queue .int 1 0 1 []) (·.fb.overflow) false ∧
      turns .fbClearOvf { State.reset with fb := { State.reset.fb with overflow := true } } (·.fb.overflow) true ∧
      turns .fbPop (queue .main 1 0 1 []) (·.tm.armed) false ∧ turns (.tmTick 1) (idle 500) (·.tm.armed) true ∧
      turns .reset { idle 0 with ctx := .host } (·.tm.armed) true := by decide

theorem test_meets_FlagsHaveOnlyTheirWriters_ready :
    turns (.ppProcess 0x00) (parsing .keepalive) (·.pp.ready) false ∧ turns .ppTake packed (·.pp.ready) true ∧
      turns (.ppProcess 0x00) packed (·.pp.ready) true ∧ turns .cmdInit packed (·.pp.ready) true := by decide

/-- V-PP-4's sync byte over a packet whose checksum held, or whose status bits are both set. -/
def restarting (status : Byte) : State :=
  { parsing .awaitSync1 with pkt := { State.reset.pkt with status := status, checksumOk := true } }

theorem test_meets_FlagsHaveOnlyTheirWriters_checksum :
    turns (.ppProcess 0x00) (parsing .checksumHigh) (·.pkt.checksumOk) false ∧ Inv (restarting 0x00) ∧
      turns (.ppProcess 0x33) (restarting 0x00) (·.pkt.checksumOk) true ∧ Inv (lapsing packed) ∧
      turns (.tmTick 1) (lapsing packed) (·.pkt.checksumOk) true := by decide

theorem test_meets_FlagsHaveOnlyTheirWriters_status :
    turns (.ppProcess 0x00) (withCfg (fun p => { p with payloadCap := 0 })
        { parsing .lengthHigh with pkt := { State.reset.pkt with length := 1 } }) (·.pkt.status.getLsbD 4) false ∧
      turns (.ppProcess 0x33) (restarting 0x11) (·.pkt.status.getLsbD 4) true ∧
      turns (.ppProcess 0x01) (parsing .checksumHigh) (·.pkt.status.getLsbD 0) false ∧
      turns (.ppProcess 0x33) (restarting 0x11) (·.pkt.status.getLsbD 0) true := by decide

theorem test_meets_FlagsHaveOnlyTheirWriters_tile :
    turns .decFeed (tiled 15 packed) (fun s => tileFull s.tile) false ∧
      turns (.rleDocRepeat false 3) (tiled 15 packed) (fun s => tileFull s.tile) false ∧
      turns .tileTake (tiled 16 packed) (fun s => tileFull s.tile) true := by decide

/-- The operation changes the part `f` of the state. -/
def changes {α : Type} [DecidableEq α] (i : Instr) (s : State) (f : State → α) : Bool :=
  gives (exec i s) (fun t => decide (f t ≠ f s))

theorem test_meets_RegistersHaveOnlyTheirWriters_int :
    changes (.edge true true) int (·.rx) ∧
      changes (.tmTick 1) (withCfg (fun p => { p with rxResetOnTimeout := true }) { idle 500 with rx := (sampled 3 0x05 int).rx }) (·.rx) ∧
      changes (.fbPush 0xAA) (queue .int 2 1 1 []) (·.fb.data) ∧ changes (.fbPush 0xAA) (queue .int 2 1 1 []) (·.fb.tail) ∧
      changes (.fbPush 0xAA) (queue .int 2 1 1 []) (·.fb.maxFill) ∧ changes (.fbPush 0xAA) (queue .int 2 1 1 []) (·.fb.count) ∧
      changes .fbPop (queue .main 2 1 1 []) (·.fb.count) ∧ changes .fbPop (queue .main 2 1 1 []) (·.fb.head) ∧
      changes .fbPop (queue .main 2 1 1 []) (·.tm) := by decide

theorem test_meets_RegistersHaveOnlyTheirWriters_main :
    changes (.tmTick 1) (idle 0) (·.tm) ∧ changes (.ppProcess 0x88) State.reset (·.pp.state) ∧
      changes .cmdData (parsing .command) (·.pkt) ∧ changes (.tmTick 1) (lapsing packed) (·.pkt) ∧
      changes (.hsWrite 0x02) State.reset (·.hsStatus) ∧ changes .decFeed packed (·.dec.mode) ∧
      changes .decFeed packed (·.dec.inPos) ∧ changes (.ppProcess 0x33) (inRun .literal 1 2 (parsing .awaitSync1)) (·.dec.inPos) ∧
      changes .decFeed packed (·.tile.buf) ∧ changes .decFeed packed (·.tile.cursor) ∧
      changes .tileTake (tiled 16 packed) (·.tile.cursor) ∧ changes (.tmTick 1) (tiled 15 (idle 500)) (·.tile.cursor) := by decide

theorem test_meets_QueriesAreIdempotent :
    isQuery .ppReady = true ∧ mayIssue packed.ctx .ppReady = true ∧ gives (exec .ppReady packed) (fun _ => true) := by decide

/-- Two states with one receiver and one FrameBuffer and nothing else in common. -/
theorem test_meets_EdgeIsBlindToTheMainContext :
    (sampled 7 0x52 int).ctx = .int ∧ (sampled 7 0x52 packed).ctx = .int ∧ (sampled 7 0x52 int).cfg = (sampled 7 0x52 packed).cfg ∧
      (sampled 7 0x52 int).rx = (sampled 7 0x52 packed).rx ∧ (sampled 7 0x52 int).fb = (sampled 7 0x52 packed).fb ∧
      (sampled 7 0x52 int).pkt ≠ (sampled 7 0x52 packed).pkt ∧
      gives (exec (.edge true true) (sampled 7 0x52 int)) (fun _ => true) := by decide

end Sys2Proof.Machine.Tests
end

/-! SUPPORT. The scope (00_scope.md): the access discipline over every operation (rule R14, 60_exceptions.md rule R340), and the
invariant at construction (R7, 70_reset_and_hazards.md rule R360). -/

namespace Sys2Proof.Machine

/-! ### An operation that ran -/

/-- What every operation that was not refused leaves: a result in the answer, and the parameters and the `refused` mark alone. -/
structure Ran (s t : State) : Prop where
  cfg : t.cfg = s.cfg
  refused : t.refused = s.refused
  returned : ∃ r, t.reply = .returned r

/-- The operation body `k`, run from `s`, refuses nothing: where it answers a next state, it ran. -/
def Completes (s : State) (k : Step) : Prop := ∀ t, k = .next t → Ran s t

/-- `raise e; return r`, and so every form of `return`, over an update that leaves the parameters and the mark alone. -/
theorem completes_raising {e : Option Event} {r : Result} {s u : State} (hc : u.cfg = s.cfg) (hr : u.refused = s.refused) :
    Completes s (raising e r u) := by
  intro t h
  rw [raising_next] at h
  subst h
  exact ⟨hc, hr, r, rfl⟩

theorem completes_fault (s : State) (f : Fault) : Completes s (.fault f) := fun _ h => nomatch h

theorem FeedChange.ran {s t : State} (h : FeedChange s t) : Ran s t := by
  obtain ⟨d, tl, b, rfl, -⟩ := h
  exact ⟨rfl, rfl, _, rfl⟩

theorem ParserChange.ran {s t : State} (h : ParserChange s t) : Ran s t := by
  obtain ⟨p, k, d, r, e, rfl, -⟩ := h
  exact ⟨rfl, rfl, r, rfl⟩

theorem completes_feed (s : State) : Completes s (feed s) := fun _ h => (feedChange_of_feed h).ran

theorem completes_processByte (b : Byte) (s : State) : Completes s (processByte b s) :=
  fun _ h => (parserChange_of_processByte h).ran

/-! ### Every operation is guarded by its context tag -/

/-- The operation runs a body under the tag of its row, and only the guard can refuse it. -/
def Guarded (i : Instr) (s : State) : Prop := ∃ k, exec i s = inContext (tagOf i) s k ∧ Completes s k

theorem guarded_edge (c d : Bool) (s : State) : Guarded (.edge c d) s := by
  refine ⟨_, rfl, ?_⟩
  split
  · exact completes_raising rfl rfl
  · dsimp only
    split
    · split
      · exact completes_raising rfl rfl
      · exact completes_raising rfl rfl
      · exact completes_fault s _
    · exact completes_raising rfl rfl

theorem guarded_fbPush (b : Byte) (s : State) : Guarded (.fbPush b) s := by
  refine ⟨_, rfl, ?_⟩
  split
  · exact completes_raising rfl rfl
  · exact completes_raising rfl rfl
  · exact completes_fault s _

theorem guarded_fbPop (s : State) : Guarded .fbPop s := by
  refine ⟨_, rfl, ?_⟩
  split
  · exact completes_raising rfl rfl
  · split
    · exact completes_fault s _
    · exact completes_raising rfl rfl

theorem guarded_fbPeek (off : Half) (s : State) : Guarded (.fbPeek off) s := by
  refine ⟨_, rfl, ?_⟩
  split
  · exact completes_raising rfl rfl
  · split
    · exact completes_fault s _
    · exact completes_raising rfl rfl

theorem guarded_tmTick (ms : BitVec 24) (s : State) : Guarded (.tmTick ms) s := by
  refine ⟨_, rfl, ?_⟩
  split
  · exact completes_raising rfl rfl
  · dsimp only
    split
    · exact completes_raising (sessionTimeout_cfg _) (sessionTimeout_refused _)
    · exact completes_raising rfl rfl

theorem guarded_ppTake (s : State) : Guarded .ppTake s := by
  refine ⟨_, rfl, ?_⟩
  split
  · exact completes_raising rfl rfl
  · split
    · exact completes_fault s _
    · exact completes_raising rfl rfl

theorem guarded_tileTake (s : State) : Guarded .tileTake s := by
  refine ⟨_, rfl, ?_⟩
  split
  · exact completes_raising rfl rfl
  · exact completes_raising rfl rfl

/-- The five PRINT accessors. -/
theorem guarded_of_readField {i : Instr} {s : State} (f : PrintField) (ht : tagOf i = .main) (he : exec i s = readField f s) :
    Guarded i s := by
  refine ⟨_, by rw [he, ht]; rfl, ?_⟩
  split
  · exact completes_fault s _
  · exact completes_raising rfl rfl

/-- The six command rows (log entry 9). -/
theorem guarded_of_consumeCommand {i : Instr} {s : State} (k : Command) (b : Byte) (ht : tagOf i = .main)
    (he : exec i s = consumeCommand k b s) : Guarded i s := by
  refine ⟨_, by rw [he, ht]; rfl, ?_⟩
  split
  · exact fun _ h => (parserChange_of_takeCommand h).ran
  · exact completes_processByte b s

/-- The four control rows (log entry 9). -/
theorem guarded_of_consumeControl {i : Instr} {s : State} (p : RleDecode) (r : Run) (ht : tagOf i = .main)
    (he : exec i s = consumeControl p r s) : Guarded i s := by
  refine ⟨_, by rw [he, ht]; rfl, ?_⟩
  split
  · exact fun _ h => (feedChange_of_beginRun rfl h).ran
  · exact completes_feed s

theorem exec_guarded (i : Instr) (s : State) : Guarded i s := by
  cases i with
  | edge c d => exact guarded_edge c d s
  | fbPush b => exact guarded_fbPush b s
  | fbPop => exact guarded_fbPop s
  | fbPeek off => exact guarded_fbPeek off s
  | tmTick ms => exact guarded_tmTick ms s
  | ppProcess b => exact ⟨_, rfl, completes_processByte b s⟩
  | ppTake => exact guarded_ppTake s
  | decFeed => exact ⟨_, rfl, completes_feed s⟩
  | tileTake => exact guarded_tileTake s
  | prSheets => exact guarded_of_readField .sheets rfl rfl
  | prMarginPre => exact guarded_of_readField .marginPre rfl rfl
  | prMarginPost => exact guarded_of_readField .marginPost rfl rfl
  | prPalette => exact guarded_of_readField .palette rfl rfl
  | prDensity => exact guarded_of_readField .density rfl rfl
  | rleDocLiteral ignored n => exact guarded_of_consumeControl _ _ rfl rfl
  | rleDocRepeat ignored n => exact guarded_of_consumeControl _ _ rfl rfl
  | rleGbLiteral n => exact guarded_of_consumeControl _ _ rfl rfl
  | rleGbRepeat n => exact guarded_of_consumeControl _ _ rfl rfl
  | cmdInit => exact guarded_of_consumeCommand _ _ rfl rfl
  | cmdPrint => exact guarded_of_consumeCommand _ _ rfl rfl
  | cmdData => exact guarded_of_consumeCommand _ _ rfl rfl
  | cmdBreak => exact guarded_of_consumeCommand _ _ rfl rfl
  | cmdInquiry => exact guarded_of_consumeCommand _ _ rfl rfl
  | cmdUnknown raw => exact guarded_of_consumeCommand _ _ rfl rfl
  | fbCount | fbCapacity | fbMaxfill | fbOverflow | fbClearOvf | ppReady | decPending | tileReady | scEncode f | scDecode v
  | hsWrite v | reset => exact ⟨_, rfl, completes_raising rfl rfl⟩

/-- Issued from a context its tag names, an operation that answers a next state ran. -/
theorem exec_ran {i : Instr} {s t : State} (hp : permits (tagOf i) s.ctx = true) (h : exec i s = .next t) : Ran s t := by
  obtain ⟨k, hk, hc⟩ := exec_guarded i s
  rw [hk, inContext_of_permits hp] at h
  exact hc t h

/-- Issued from any other context, it is refused. -/
theorem exec_of_not_permits {i : Instr} {s : State} (hp : permits (tagOf i) s.ctx = false) :
    exec i s = refuse .wrongContext s := by
  obtain ⟨k, hk, -⟩ := exec_guarded i s
  rw [hk, inContext_of_not_permits hp]

/-! ### The access discipline -/

/-- The table of R340 is the one the context tags of R112 give. -/
theorem mayIssue_eq_permits (c : Ctx) (i : Instr) : mayIssue c i = permits (tagOf i) c := by
  cases c with
  | int => cases i <;> rfl
  | main => cases i <;> rfl
  | host => cases i <;> rfl

/-- Settles O7: every operation is a body under its context tag, no body refuses, and the tags give the table of R340. -/
theorem accessDisciplineIsEnforced : Obligations.AccessDisciplineIsEnforced := by
  intro i s
  rw [mayIssue_eq_permits]
  refine ⟨exec_of_not_permits, fun t hp h => ?_⟩
  have hran := exec_ran hp h
  exact ⟨hran.refused, hran.returned⟩

/-! ### The invariant at construction -/

theorem fbCap_pos_of_legal {p : Params} (h : p.legal = true) : 0 < p.fbCap.toNat := by
  simp only [Params.legal, Params.fbCapLegal, Bool.and_eq_true, bne_iff_ne, ne_eq] at h
  obtain ⟨⟨⟨hcap, -⟩, -⟩, -⟩ := h
  exact Nat.pos_of_ne_zero fun e => hcap (BitVec.eq_of_toNat_eq e)

/-- The empty FrameBuffer needs a capacity of at least 1: its head lies within the storage. -/
theorem fbInv_resetWith {p : Params} (h : 0 < p.fbCap.toNat) : FbInv p.fbCap (State.resetWith p).fb :=
  ⟨Nat.zero_le _, h, (Nat.zero_mod _).symm, le_rfl, Nat.zero_le _, rfl⟩

theorem ppInv_resetWith (p : Params) : PpInv p.payloadCap (State.resetWith p).pp (State.resetWith p).pkt :=
  ⟨le_rfl, (Nat.zero_min _).symm, nofun, fun _ => rfl, fun _ => rfl, nofun, rfl⟩

theorem decInv_resetWith (p : Params) :
    DecInv (State.resetWith p).pkt.stored (State.resetWith p).dec (State.resetWith p).tile :=
  ⟨le_rfl, Nat.zero_le _, iff_of_true rfl rfl, rfl⟩

/-- Settles O10, component by component; only the FrameBuffer's part needs a legal parameter, `FB_CAP` of at least 1. -/
theorem resetMeetsTheInvariant : Obligations.ResetMeetsTheInvariant :=
  fun p h => ⟨h, fbInv_resetWith (fbCap_pos_of_legal h), ppInv_resetWith p, decInv_resetWith p⟩

end Sys2Proof.Machine

/-! SUPPORT. The step (20_memory.md rule R70, 30_encoding.md rule R110): what it can do, and the `refused` mark (10_state.md rule R45). -/

namespace Sys2Proof.Machine

/-! ### The step -/

/-- Everything a step can do: nothing is issued, the issued operation runs on the state with its word taken from the stream, or the word
is refused. -/
theorem step_next {s t : State} (h : step s = .next t) :
    (s.ops = [] ∧ t = s) ∨ ∃ e rest, s.ops = e :: rest ∧
      ((∃ i, exec i { s with ops := rest, ctx := e.ctx } = .next t) ∨
        refuse .illegalOp { s with ops := rest, ctx := e.ctx } = .next t) := by
  cases ho : s.ops with
  | nil =>
    simp only [step, fetchIssue, ho] at h
    injection h with h
    exact .inl ⟨rfl, h.symm⟩
  | cons e rest =>
    refine .inr ⟨e, rest, rfl, ?_⟩
    simp only [step, fetchIssue, ho] at h
    split at h
    · exact .inl ⟨_, h⟩
    · exact .inr h

/-- A predicate that reads neither the stream nor the answer, and that every operation keeps, is kept by every step. -/
theorem step_keeps {P : State → Prop}
    (hcontrol : ∀ s o c r e m, P s → P { s with ops := o, ctx := c, reply := r, event := e, refused := m })
    (hexec : ∀ i s t, P s → exec i s = .next t → P t) {s t : State} (hs : P s) (h : step s = .next t) : P t := by
  rcases step_next h with ⟨-, rfl⟩ | ⟨e, rest, -, ⟨i, hi⟩ | hr⟩
  · exact hs
  · exact hexec i _ t (hcontrol s _ _ _ _ _ hs) hi
  · rw [refuse_next] at hr
    subst hr
    exact hcontrol s _ _ _ _ _ hs

/-- Settles O5: the fetch gives the oldest word, the decoder its operation. -/
theorem stepRunsTheIssuedOperation : Obligations.StepRunsTheIssuedOperation := by
  intro s e rest i ho hd
  simp only [step, fetchIssue, ho, hd]

/-! ### The refused mark (R45, R326) -/

theorem exec_ran_or_refused {i : Instr} {s t : State} (h : exec i s = .next t) :
    Ran s t ∨ t = { s with reply := .refused .wrongContext, event := none, refused := true } := by
  cases hp : permits (tagOf i) s.ctx with
  | true => exact .inl (exec_ran hp h)
  | false =>
    rw [exec_of_not_permits hp] at h
    exact .inr (refuse_next.mp h)

theorem Ran.not_refused {s t : State} (h : Ran s t) (why : RefuseReason) : t.reply ≠ .refused why := by
  obtain ⟨r, hr⟩ := h.returned
  rw [hr]
  exact nofun

/-- Settles O8: an operation that ran leaves the mark and returns a result; every other way a step answers sets it, but for the step
with nothing issued. -/
theorem refusedMarkIsNeverCleared : Obligations.RefusedMarkIsNeverCleared := by
  refine ⟨fun _ => rfl, fun s t h => ?_⟩
  rcases step_next h with ⟨ho, rfl⟩ | ⟨e, rest, -, ⟨i, hi⟩ | hr⟩
  · exact ⟨id, fun _ hops => absurd ho hops⟩
  · rcases exec_ran_or_refused hi with hran | rfl
    · exact ⟨fun hs => hran.refused.trans hs, fun why _ hw => absurd hw (hran.not_refused why)⟩
    · exact ⟨fun _ => rfl, fun _ _ _ => rfl⟩
  · rw [refuse_next] at hr
    subst hr
    exact ⟨fun _ => rfl, fun _ _ _ => rfl⟩

end Sys2Proof.Machine

/-! SUPPORT. What every operation writes (10_state.md), component by component (rule R20): one inversion of `exec`, from which the
invariant, the truth of the status bits and the writers of every flag and register follow. -/

namespace Sys2Proof.Machine

/-! ### The bodies that several operations share -/

/-- A byte has been given to the parser: PP_PROCESS of it, or a command row in state COMMAND (log entry 9). -/
def Consumes (s t : State) : Prop :=
  (∃ b, processByte b s = .next t) ∨ (s.pp.state = .command ∧ ∃ k b, takeCommand k b s = .next t)

/-- The decompressor has been fed: DEC_FEED, or a control row at a control byte (log entry 9). -/
def Feeds (s t : State) : Prop :=
  feed s = .next t ∨ (atControlByte s = true ∧ ∃ r : Run, r.count ≠ 0 ∧
    beginRun r { s with dec := { s.dec with inPos := s.dec.inPos + 1 } } = .next t)

theorem Consumes.change {s t : State} (h : Consumes s t) : ParserChange s t := by
  rcases h with ⟨b, hb⟩ | ⟨-, k, b, hk⟩
  · exact parserChange_of_processByte hb
  · exact parserChange_of_takeCommand hk

theorem Feeds.change {s t : State} (h : Feeds s t) : FeedChange s t := by
  rcases h with hf | ⟨-, r, -, hr⟩
  · exact feedChange_of_feed hf
  · exact feedChange_of_beginRun rfl hr

theorem Feeds.cursor_kept_or_advanced {s t : State} (h : Feeds s t) :
    t.tile.cursor = s.tile.cursor ∨ (s.tile.cursor.toNat < 16 ∧ t.tile.cursor = s.tile.cursor + 1) := by
  obtain ⟨d, tl, b, rfl, rfl | ⟨hc, v, rfl⟩⟩ := h.change
  · exact .inl rfl
  · exact .inr ⟨hc, rfl⟩

theorem Consumes.tile_kept {s t : State} (h : Consumes s t) : t.tile = s.tile := by
  obtain ⟨p, k, d, r, e, rfl, -⟩ := h.change
  rfl

theorem pushByte_stored {cap b : Byte} {f g : FrameBuffer} (h : pushByte cap b f = .stored g) :
    f.count ≠ cap ∧ f.tail.toNat < cap.toNat ∧ g = bufferAfterPush cap b f := by
  rcases pushByte_cases cap b f with ⟨-, e⟩ | ⟨hc, ht, -⟩ | ⟨-, -, e⟩
  · rw [e] at h
    cases h
  · rw [pushByte_of_lt cap b f ht hc] at h
    injection h with h
    exact ⟨hc, ht, h.symm⟩
  · rw [e] at h
    cases h

theorem pushByte_dropped {cap b : Byte} {f g : FrameBuffer} (h : pushByte cap b f = .dropped g) :
    f.count = cap ∧ g = { f with overflow := true } := by
  rcases pushByte_cases cap b f with ⟨hc, e⟩ | ⟨-, -, e⟩ | ⟨-, -, e⟩
  · rw [e] at h
    injection h with h
    exact ⟨hc, h.symm⟩
  · rw [e] at h
    cases h
  · rw [e] at h
    cases h

/-! ### The writes, by component -/

/-- TM_TICK has fired (R170, R172). -/
def TimedOut (i : Instr) (t : State) : Prop := (∃ ms, i = .tmTick ms) ∧ t.event = some .sessionTimeout

/-- What an operation does to the BitReceiver (R21). -/
inductive RxWrite (i : Instr) (s t : State) : Prop where
  | kept (h : t.rx = s.rx)
  | sampled (hi : ∃ c d, i = .edge c d)
  | timedOut (hi : TimedOut i t) (hc : s.cfg.rxResetOnTimeout = true)
  | reset (hi : i = .reset)

/-- What an operation does to the FrameBuffer (R23, R24, R25). -/
inductive FbWrite (i : Instr) (s t : State) : Prop where
  | kept (h : t.fb = s.fb)
  | dropped (hi : (∃ b, i = .fbPush b) ∨ ∃ c d, i = .edge c d) (hc : s.fb.count = s.cfg.fbCap)
      (h : t.fb = { s.fb with overflow := true })
  | stored (hi : storesByte i s = true) (hc : s.fb.count ≠ s.cfg.fbCap) (b : Byte)
      (h : t.fb = bufferAfterPush s.cfg.fbCap b s.fb)
  | popped (hi : i = .fbPop) (hc : s.fb.count ≠ 0)
      (h : t.fb = { s.fb with head := ringNext s.cfg.fbCap s.fb.head, count := s.fb.count - 1 })
  | cleared (hi : i = .fbClearOvf) (h : t.fb = { s.fb with overflow := false })
  | reset (hi : i = .reset) (h : t.fb = { s.fb with head := 0, tail := 0, count := 0, overflow := false, maxFill := 0 })

/-- What an operation does to the TimeoutMonitor (R27). -/
inductive TmWrite (i : Instr) (s t : State) : Prop where
  | kept (h : t.tm = s.tm)
  | started (hi : i = .fbPop) (hc : s.fb.count ≠ 0) (h : t.tm.armed = true)
  | ticked (hi : ∃ ms, i = .tmTick ms) (ha : s.tm.armed = true) (h : t.tm.armed = true)
  | fired (hi : TimedOut i t) (ha : s.tm.armed = true) (h : t.tm.armed = false)
  | reset (hi : i = .reset) (h : t.tm.armed = false)

/-- What an operation does to the PacketParser and the Packet register (R28 to R35). -/
inductive ParserWrite (i : Instr) (s t : State) : Prop where
  | kept (hp : t.pp = s.pp) (hk : t.pkt = s.pkt)
  | consumed (hi : isProcess i = true) (h : Consumes s t)
  | taken (hi : i = .ppTake) (hp : t.pp = { s.pp with ready := false }) (hk : t.pkt = s.pkt)
  | timedOut (hi : TimedOut i t) (hr : s.pp.ready = false) (hp : t.pp = { parserCleared s.pp with state := .awaitSync0 })
      (hk : t.pkt = packetCleared s.pkt)
  | reset (hi : i = .reset) (hp : t.pp = { state := .awaitSync0, ready := false, index := 0, sum := 0, chk := 0 })
      (hk : t.pkt = packetCleared s.pkt)

/-- What an operation does to the DecompressorState and the TileAccumulator (R37, R38), and to the `pkt_stored` that bounds the input
position. -/
inductive DecWrite (i : Instr) (s t : State) : Prop where
  | kept (hd : t.dec = s.dec) (ht : t.tile = s.tile) (hk : t.pkt.stored = s.pkt.stored)
  | consumed (hi : isProcess i = true) (h : Consumes s t)
  | fed (hi : isFeed i = true) (h : Feeds s t)
  | taken (hi : i = .tileTake) (hd : t.dec = s.dec) (ht : t.tile = { s.tile with cursor := 0 })
      (hk : t.pkt.stored = s.pkt.stored)
  | timedOut (hi : TimedOut i t)
      (hd : t.dec = { mode := .control, remaining := 0, repeatByte := 0x00, inPos := t.pkt.stored })
      (ht : t.tile = if s.tile.cursor < 16 then { s.tile with cursor := 0 } else s.tile)
  | reset (hi : i = .reset) (hd : t.dec = { mode := .control, remaining := 0, repeatByte := 0x00, inPos := 0 })
      (ht : t.tile = { s.tile with cursor := 0 })

/-- What an operation does to every component; a component that a proof of `Writes` does not name is kept. -/
structure Writes (i : Instr) (s t : State) : Prop where
  cfg : t.cfg = s.cfg := by rfl
  rx : RxWrite i s t := by exact .kept rfl
  fb : FbWrite i s t := by exact .kept rfl
  tm : TmWrite i s t := by exact .kept rfl
  parser : ParserWrite i s t := by exact .kept rfl rfl
  hsStatus : t.hsStatus = s.hsStatus ∨ (∃ v, i = .hsWrite v) ∨ i = .reset := by exact .inl rfl
  dec : DecWrite i s t := by exact .kept rfl rfl rfl

/-! ### Every operation writes so -/

/-- A refusal writes no component, so the body decides. -/
theorem writes_of_inContext {g : Tag} {i : Instr} {s t : State} {k : Step} (h : inContext g s k = .next t)
    (hk : permits g s.ctx = true → k = .next t → Writes i s t) : Writes i s t := by
  rcases inContext_next h with ⟨hp, hn⟩ | ⟨-, rfl⟩
  · exact hk hp hn
  · exact {}

/-- `raise e; return r` over the state as it was. -/
theorem writes_of_raising {i : Instr} {e : Option Event} {r : Result} {s t : State} (h : raising e r s = .next t) :
    Writes i s t := by
  rw [raising_next] at h
  subst h
  exact {}

/-- The operations that only answer. -/
theorem writes_of_query {g : Tag} {i : Instr} {v : Value} {s t : State} (h : inContext g s (returningValue v s) = .next t) :
    Writes i s t :=
  writes_of_inContext h fun _ => writes_of_raising

theorem ctx_int_of_permits {c : Ctx} (h : permits .int c = true) : c = .int := by
  cases c with
  | int => rfl
  | main => cases h
  | host => cases h

theorem counted_eq (m : EdgeMode) (c : Bool) : counted m c = (m == .allEdges || c) := by
  cases m <;> rfl

theorem writes_edge {c d : Bool} {s t : State} (h : execEdge c d s = .next t) : Writes (.edge c d) s t := by
  refine writes_of_inContext h fun hp hk => ?_
  have hctx := ctx_int_of_permits hp
  have hsampled : RxWrite (.edge c d) s t := .sampled ⟨c, d, rfl⟩
  split at hk
  · exact writes_of_raising hk
  · rename_i hcounted
    dsimp only at hk
    split at hk
    · rename_i hlast
      split at hk
      · rename_i f hf
        obtain ⟨hc, -, rfl⟩ := pushByte_stored hf
        rw [returningValue_next] at hk
        have hstores : storesByte (.edge c d) s = true := by
          simp only [Bool.not_eq_true', Bool.not_eq_false, counted_eq] at hcounted
          simp [storesByte, hctx, hlast, hcounted, hc]
        subst hk
        exact { rx := hsampled, fb := .stored hstores hc _ rfl }
      · rename_i f hf
        obtain ⟨hc, rfl⟩ := pushByte_dropped hf
        rw [raising_next] at hk
        subst hk
        exact { rx := hsampled, fb := .dropped (.inr ⟨c, d, rfl⟩) hc rfl }
      · cases hk
    · rw [returningValue_next] at hk
      subst hk
      exact { rx := hsampled }

theorem writes_fbPush {b : Byte} {s t : State} (h : execFbPush b s = .next t) : Writes (.fbPush b) s t := by
  refine writes_of_inContext h fun hp hk => ?_
  split at hk
  · rename_i f hf
    obtain ⟨hc, -, rfl⟩ := pushByte_stored hf
    rw [returning_next] at hk
    have hstores : storesByte (.fbPush b) s = true := by simp [storesByte, ctx_int_of_permits hp, hc]
    subst hk
    exact { fb := .stored hstores hc b rfl }
  · rename_i f hf
    obtain ⟨hc, rfl⟩ := pushByte_dropped hf
    rw [raising_next] at hk
    subst hk
    exact { fb := .dropped (.inl ⟨b, rfl⟩) hc rfl }
  · cases hk

theorem writes_fbPop {s t : State} (h : execFbPop s = .next t) : Writes .fbPop s t := by
  refine writes_of_inContext h fun _ hk => ?_
  split at hk
  · exact writes_of_raising hk
  · rename_i hc
    split at hk
    · cases hk
    · rw [returningValue_next] at hk
      subst hk
      exact { fb := .popped rfl hc rfl, tm := .started rfl hc rfl }

theorem writes_fbPeek {off : Half} {s t : State} (h : execFbPeek off s = .next t) : Writes (.fbPeek off) s t := by
  refine writes_of_inContext h fun _ hk => ?_
  split at hk
  · exact writes_of_raising hk
  · split at hk
    · cases hk
    · exact writes_of_raising hk

theorem writes_fbClearOvf {s t : State} (h : execFbClearOvf s = .next t) : Writes .fbClearOvf s t := by
  refine writes_of_inContext h fun _ hk => ?_
  rw [returning_next] at hk
  subst hk
  exact { fb := .cleared rfl rfl }

/-- A tick that fires resets the session; a packet not yet taken is kept (R230). -/
theorem writes_tmTick {ms : BitVec 24} {s t : State} (h : execTmTick ms s = .next t) : Writes (.tmTick ms) s t := by
  refine writes_of_inContext h fun _ hk => ?_
  split at hk
  · exact writes_of_raising hk
  · rename_i hunarmed
    have harmed : s.tm.armed = true := by simpa using hunarmed
    dsimp only at hk
    split at hk
    · rw [raising_next] at hk
      have hfired : TimedOut (.tmTick ms) t := ⟨⟨ms, rfl⟩, by rw [hk]⟩
      subst hk
      refine { cfg := by simp, rx := ?_, fb := .kept (by simp), tm := .fired hfired harmed (by simp), parser := ?_,
               hsStatus := .inl (by simp), dec := .timedOut hfired ?_ (by simp) }
      · cases hc : s.cfg.rxResetOnTimeout with
        | false => exact .kept (by simp [hc])
        | true => exact .timedOut hfired hc
      · cases hr : s.pp.ready with
        | false => exact .timedOut hfired hr (by simp [hr]) (by simp [hr])
        | true => exact .kept (by simp [hr]) (by simp [hr])
      · cases hr : s.pp.ready <;> simp [hr]
    · rw [returningValue_next] at hk
      subst hk
      exact { tm := .ticked ⟨ms, rfl⟩ harmed harmed }

theorem writes_ppTake {s t : State} (h : execPpTake s = .next t) : Writes .ppTake s t := by
  refine writes_of_inContext h fun _ hk => ?_
  split at hk
  · exact writes_of_raising hk
  · split at hk
    · cases hk
    · rw [returningValue_next] at hk
      subst hk
      exact { parser := .taken rfl rfl rfl }

theorem writes_tileTake {s t : State} (h : execTileTake s = .next t) : Writes .tileTake s t := by
  refine writes_of_inContext h fun _ hk => ?_
  split at hk
  · exact writes_of_raising hk
  · rw [returningValue_next] at hk
    subst hk
    exact { dec := .taken rfl rfl rfl rfl }

theorem writes_hsWrite {v : Byte} {s t : State} (h : execHsWrite v s = .next t) : Writes (.hsWrite v) s t := by
  refine writes_of_inContext h fun _ hk => ?_
  rw [returning_next] at hk
  subst hk
  exact { hsStatus := .inr (.inl ⟨v, rfl⟩) }

theorem writes_readField {i : Instr} {f : PrintField} {s t : State} (h : readField f s = .next t) : Writes i s t := by
  refine writes_of_inContext h fun _ hk => ?_
  split at hk
  · cases hk
  · exact writes_of_raising hk

theorem writes_reset {s t : State} (h : execReset s = .next t) : Writes .reset s t := by
  refine writes_of_inContext h fun _ hk => ?_
  rw [returning_next] at hk
  subst hk
  exact { rx := .reset rfl, fb := .reset rfl rfl, tm := .reset rfl rfl, parser := .reset rfl rfl rfl,
          hsStatus := .inr (.inr rfl), dec := .reset rfl rfl rfl }

theorem writes_of_consumes {i : Instr} {s t : State} (hi : isProcess i = true) (h : Consumes s t) : Writes i s t := by
  have hparser : ParserWrite i s t := .consumed hi h
  have hdec : DecWrite i s t := .consumed hi h
  obtain ⟨p, k, d, r, e, rfl, -⟩ := h.change
  exact { parser := hparser, dec := hdec }

theorem writes_ppProcess {b : Byte} {s t : State} (h : execPpProcess b s = .next t) : Writes (.ppProcess b) s t :=
  writes_of_inContext h fun _ hk => writes_of_consumes rfl (.inl ⟨b, hk⟩)

/-- The six command rows. -/
theorem writes_consumeCommand {i : Instr} {k : Command} {b : Byte} {s t : State} (hi : isProcess i = true)
    (h : consumeCommand k b s = .next t) : Writes i s t := by
  refine writes_of_inContext h fun _ hk => writes_of_consumes hi ?_
  split at hk
  · rename_i hs
    exact .inr ⟨hs, k, b, hk⟩
  · exact .inl ⟨b, hk⟩

theorem writes_of_feeds {i : Instr} {s t : State} (hi : isFeed i = true) (h : Feeds s t) : Writes i s t := by
  have hdec : DecWrite i s t := .fed hi h
  obtain ⟨d, tl, b, rfl, -⟩ := h.change
  exact { dec := hdec }

theorem writes_decFeed {s t : State} (h : execDecFeed s = .next t) : Writes .decFeed s t :=
  writes_of_inContext h fun _ hk => writes_of_feeds rfl (.inl hk)

/-- The four control rows; each begins a run of at least one byte. -/
theorem writes_consumeControl {i : Instr} {p : RleDecode} {r : Run} {s t : State} (hi : isFeed i = true) (hr : r.count ≠ 0)
    (h : consumeControl p r s = .next t) : Writes i s t := by
  refine writes_of_inContext h fun _ hk => writes_of_feeds hi ?_
  split at hk
  · rename_i hat
    exact .inr ⟨hat.1, r, hr, hk⟩
  · exact .inl hk

theorem rleDoc_count_ne_zero : ∀ n : BitVec 6, n.setWidth 8 + 1#8 ≠ 0 := by decide

theorem rleGb_literal_count_ne_zero : ∀ n : BitVec 7, n.setWidth 8 + 1#8 ≠ 0 := by decide

theorem rleGb_repeat_count_ne_zero : ∀ n : BitVec 7, n.setWidth 8 + 2#8 ≠ 0 := by decide

/-- Everything an operation that answers a next state writes. -/
theorem exec_writes {i : Instr} {s t : State} (h : exec i s = .next t) : Writes i s t := by
  cases i with
  | edge c d => exact writes_edge h
  | fbPush b => exact writes_fbPush h
  | fbPop => exact writes_fbPop h
  | fbPeek off => exact writes_fbPeek h
  | fbCount | fbCapacity | fbMaxfill | fbOverflow | ppReady | decPending | tileReady | scEncode f | scDecode v =>
    exact writes_of_query h
  | fbClearOvf => exact writes_fbClearOvf h
  | tmTick ms => exact writes_tmTick h
  | ppProcess b => exact writes_ppProcess h
  | ppTake => exact writes_ppTake h
  | decFeed => exact writes_decFeed h
  | tileTake => exact writes_tileTake h
  | hsWrite v => exact writes_hsWrite h
  | prSheets | prMarginPre | prMarginPost | prPalette | prDensity => exact writes_readField h
  | reset => exact writes_reset h
  | rleDocLiteral ignored n | rleDocRepeat ignored n => exact writes_consumeControl rfl (rleDoc_count_ne_zero n) h
  | rleGbLiteral n => exact writes_consumeControl rfl (rleGb_literal_count_ne_zero n) h
  | rleGbRepeat n => exact writes_consumeControl rfl (rleGb_repeat_count_ne_zero n) h
  | cmdInit | cmdPrint | cmdData | cmdBreak | cmdInquiry | cmdUnknown raw => exact writes_consumeCommand rfl h

end Sys2Proof.Machine

/-! SUPPORT. What every step keeps: the invariant of every component (10_state.md rules R26, R35, R38 and R39) and the truth of the two
status bits the parser writes (R34); and the FrameBuffer as a queue (R26). -/

namespace Sys2Proof.Machine

/-! ### The invariant -/

theorem head_lt {cap : Byte} {f : FrameBuffer} (h : FbInv cap f) : f.head.toNat < cap.toNat := by
  obtain ⟨-, hhead, -⟩ := h
  exact hhead

theorem fbInv_overflow {cap : Byte} {f : FrameBuffer} (h : FbInv cap f) (b : Bool) : FbInv cap { f with overflow := b } := h

/-- Emptying the FrameBuffer keeps its storage. -/
theorem fbInv_reset {cap : Byte} {f : FrameBuffer} (h : FbInv cap f) :
    FbInv cap { f with head := 0, tail := 0, count := 0, overflow := false, maxFill := 0 } := by
  obtain ⟨-, hhead, -, -, -, hdata⟩ := h
  exact ⟨Nat.zero_le _, Nat.zero_lt_of_lt hhead, (Nat.zero_mod _).symm, le_rfl, Nat.zero_le _, hdata⟩

theorem FbWrite.fbInv {i : Instr} {s t : State} (w : FbWrite i s t) (h : FbInv s.cfg.fbCap s.fb) :
    FbInv s.cfg.fbCap t.fb := by
  cases w with
  | kept e => rwa [e]
  | dropped _ _ e =>
    rw [e]
    exact fbInv_overflow h true
  | stored _ hc b e =>
    rw [e]
    exact fbInv_push h hc
  | popped _ hc e =>
    rw [e]
    exact fbInv_pop h hc
  | cleared _ e =>
    rw [e]
    exact fbInv_overflow h false
  | reset _ e =>
    rw [e]
    exact fbInv_reset h

theorem payload_wf {cap : Half} {p : Parser} {k : Packet} (h : PpInv cap p k) : memWf cap.toNat k.payload = true := by
  obtain ⟨-, -, -, -, -, -, hw⟩ := h
  exact hw

/-- The parser between frames with the Packet register cleared, as a session reset and RESET leave them. -/
theorem ppInv_cleared {cap : Half} {p : Parser} {k : Packet} (hw : memWf cap.toNat k.payload = true)
    (hs : p.state = .awaitSync0) (hi : p.index = 0) (hr : p.ready = false) : PpInv cap p (packetCleared k) := by
  refine ⟨by simp [hi], by simp [hi], ?_, ?_, ?_, ?_, hw⟩
  · simp [hr]
  · simp
  · simp [hi]
  · simp [hs]

theorem Consumes.keepsInv {s t : State} (h : Consumes s t) (hp : PpGood s) (hd : InputGood s) : PpGood t ∧ InputGood t := by
  rcases h with ⟨b, hb⟩ | ⟨hs, k, b, hk⟩
  · exact ppGood_processByte hp hd hb
  · exact ppGood_takeCommand hp hd hs hk

theorem Feeds.keepsInv {s t : State} (h : Feeds s t) (hr : s.cfg.rleDecode.positive = true) (hd : DecGood s) : DecGood t := by
  rcases h with hf | ⟨hat, r, hc, hb⟩
  · exact decGood_feed hr hd hf
  · simp only [atControlByte, inputLeft, Bool.and_eq_true, decide_eq_true_eq] at hat
    exact decGood_beginRun (inPos_advances hd hat.2) hc hb

theorem ParserWrite.ppInv {i : Instr} {s t : State} (w : ParserWrite i s t) (hcfg : t.cfg = s.cfg) (hp : PpGood s)
    (hd : InputGood s) : PpGood t := by
  have hpayload := payload_wf hp
  cases w with
  | kept ep ek => rwa [PpGood, hcfg, ep, ek]
  | consumed _ h => exact (h.keepsInv hp hd).1
  | taken _ ep ek =>
    rw [PpGood, hcfg, ep, ek]
    obtain ⟨h1, h2, -, h4⟩ := hp
    exact ⟨h1, h2, nofun, h4⟩
  | timedOut _ hr ep ek =>
    rw [PpGood, hcfg, ep, ek]
    exact ppInv_cleared hpayload rfl rfl hr
  | reset _ ep ek =>
    rw [PpGood, hcfg, ep, ek]
    exact ppInv_cleared hpayload rfl rfl rfl

/-- A tile buffer begun again, or a full tile kept, and the run state cleared. -/
theorem decInv_cleared {stored pos : Half} {t : TileAccumulator} (hpos : pos.toNat ≤ stored.toNat)
    (hc : t.cursor.toNat ≤ tileSize) (hw : memWf tileSize t.buf = true) :
    DecInv stored { mode := .control, remaining := 0, repeatByte := 0x00, inPos := pos } t :=
  ⟨hpos, hc, iff_of_true rfl rfl, hw⟩

theorem DecWrite.decInv {i : Instr} {s t : State} (w : DecWrite i s t) (hr : s.cfg.rleDecode.positive = true)
    (hp : PpGood s) (hd : DecGood s) : DecGood t := by
  cases w with
  | kept ed et ek => rwa [DecGood, ed, et, ek]
  | consumed _ h => exact (h.keepsInv hp hd).2
  | fed _ h => exact h.keepsInv hr hd
  | taken _ ed et ek =>
    rw [DecGood, ed, et, ek]
    obtain ⟨h1, -, h3, h4⟩ := hd
    exact ⟨h1, Nat.zero_le _, h3, h4⟩
  | timedOut _ ed et =>
    rw [DecGood, ed, et]
    obtain ⟨-, h2, -, h4⟩ := hd
    split
    · exact decInv_cleared le_rfl (Nat.zero_le _) h4
    · exact decInv_cleared le_rfl h2 h4
  | reset _ ed et =>
    rw [DecGood, ed, et]
    obtain ⟨-, -, -, h4⟩ := hd
    exact decInv_cleared (Nat.zero_le _) (Nat.zero_le _) h4

theorem rlePositive_of_legal {p : Params} (h : p.legal = true) : p.rleDecode.positive = true := by
  simp only [Params.legal, Bool.and_eq_true] at h
  exact h.2

theorem exec_keepsInv {i : Instr} {s t : State} (hs : Inv s) (h : exec i s = .next t) : Inv t := by
  have w := exec_writes h
  obtain ⟨hlegal, hfb, hpp, hdec⟩ := hs
  refine ⟨?_, ?_, w.parser.ppInv w.cfg hpp hdec, w.dec.decInv (rlePositive_of_legal hlegal) hpp hdec⟩
  · rwa [w.cfg]
  · rw [w.cfg]
    exact w.fb.fbInv hfb

/-- Settles O11, component by component: what an operation writes keeps the component's invariant, and the invariant reads neither the
stream nor the answer. -/
theorem stepKeepsTheInvariant : Obligations.StepKeepsTheInvariant :=
  fun _ _ hs h => step_keeps (P := Inv) (fun _ _ _ _ _ _ h => h) (fun _ _ _ => exec_keepsInv) hs h

/-! ### The status bits -/

/-- Between frames nothing is said of them. -/
theorem statusTrue_between {cap : Half} {p : Parser} {k : Packet} (hs : p.state = .awaitSync0) : StatusTrue cap p k := by
  refine ⟨?_, ?_, ?_⟩
  · simp [hs, beforeLength]
  · simp [hs]
  · simp [hs]

theorem Consumes.keepsStatusTrue {s t : State} (h : Consumes s t) (hs : StatusGood s) : StatusGood t := by
  rcases h with ⟨b, hb⟩ | ⟨hc, k, b, hk⟩
  · exact statusGood_processByte hs hb
  · exact statusGood_takeCommand hs hc hk

theorem exec_keepsStatusTrue {i : Instr} {s t : State} (hs : StatusGood s) (h : exec i s = .next t) : StatusGood t := by
  have w := exec_writes h
  cases w.parser with
  | kept ep ek => rwa [StatusGood, w.cfg, ep, ek]
  | consumed _ hc => exact hc.keepsStatusTrue hs
  | taken _ ep ek => rwa [StatusGood, w.cfg, ep, ek]
  | timedOut _ _ ep _ => exact statusTrue_between (by rw [ep])
  | reset _ ep _ => exact statusTrue_between (by rw [ep])

/-- Settles O13: only the parser's bytes write the bits inside a frame, and every other writer leaves the parser between frames. -/
theorem stepKeepsStatusBitsTrue : Obligations.StepKeepsStatusBitsTrue :=
  fun _ _ hs h => step_keeps (P := StatusGood) (fun _ _ _ _ _ _ h => h) (fun _ _ _ => exec_keepsStatusTrue) hs h

/-- Settles O14: RESET leaves the parser between frames. -/
theorem statusBitsTrueAtReset : Obligations.StatusBitsTrueAtReset := fun _ => statusTrue_between rfl

/-! ### Issued from the context its tag names -/

theorem inContext_int {s : State} {k : Step} (h : s.ctx = .int) : inContext .int s k = k :=
  inContext_of_permits (by rw [h, permits_int_int])

theorem inContext_main {s : State} {k : Step} (h : s.ctx = .main) : inContext .main s k = k :=
  inContext_of_permits (by rw [h, permits_main_main])

/-! ### The FrameBuffer as a queue -/

@[simp] theorem length_fbContents (cap : Byte) (f : FrameBuffer) : (fbContents cap f).length = f.count.toNat := by
  simp [fbContents]

theorem fbContents_eq_nil {cap : Byte} {f : FrameBuffer} (h : f.count = 0) : fbContents cap f = [] := by
  simp [fbContents, h]

theorem exec_fbPush_of_full {b : Byte} {s : State} (hctx : s.ctx = .int) (hc : s.fb.count = s.cfg.fbCap) :
    exec (.fbPush b) s = raising (some (.bufferOverflow b)) .overflow { s with fb := { s.fb with overflow := true } } := by
  simp only [exec, execFbPush, inContext_int hctx, pushByte_of_full _ _ _ hc]

theorem exec_fbPush_of_room {b : Byte} {s : State} (hctx : s.ctx = .int) (hc : s.fb.count ≠ s.cfg.fbCap)
    (ht : s.fb.tail.toNat < s.cfg.fbCap.toNat) :
    exec (.fbPush b) s = returning .ok { s with fb := bufferAfterPush s.cfg.fbCap b s.fb } := by
  simp only [exec, execFbPush, inContext_int hctx, pushByte_of_lt _ _ _ ht hc]

theorem exec_fbPop_of_empty {s : State} (hctx : s.ctx = .main) (hc : s.fb.count = 0) :
    exec .fbPop s = returning .empty s := by
  simp only [exec, execFbPop, inContext_main hctx, hc, if_true]

theorem exec_fbPop_of_stored {s : State} (hctx : s.ctx = .main) (hc : s.fb.count ≠ 0)
    (hh : s.fb.head.toNat < s.cfg.fbCap.toNat) :
    exec .fbPop s = returningValue (.byte (memGet s.fb.data s.fb.head.toNat))
      { s with fb := { s.fb with head := ringNext s.cfg.fbCap s.fb.head, count := s.fb.count - 1 }, tm := tmNoteArrival } := by
  simp only [exec, execFbPop, inContext_main hctx, hc, if_false, spaceRead_of_lt _ hh]

/-- Settles O21: the ring holds as many bytes as the count says; a push into room appends, a push into a full buffer changes the flag
alone, and a pop takes the head of the list. -/
theorem frameBufferIsAQueue : Obligations.FrameBufferIsAQueue := by
  intro s hs
  obtain ⟨-, hfb, -, -⟩ := hs
  refine ⟨fun b hctx => ?_, fun hctx => ?_⟩
  · rw [length_fbContents]
    by_cases hc : s.fb.count = s.cfg.fbCap
    · refine ⟨_, exec_fbPush_of_full hctx hc, ?_⟩
      rw [if_pos (congrArg BitVec.toNat hc)]
      rfl
    · refine ⟨_, exec_fbPush_of_room hctx hc (tail_lt hfb), ?_⟩
      rw [if_neg (count_lt_of_ne hfb hc).ne]
      exact fbContents_push hfb hc
  · by_cases hc : s.fb.count = 0
    · refine ⟨_, exec_fbPop_of_empty hctx hc, ?_⟩
      rw [fbContents_eq_nil hc]
      exact ⟨rfl, rfl⟩
    · refine ⟨_, exec_fbPop_of_stored hctx hc (head_lt hfb), ?_⟩
      rw [fbContents_pop hfb hc]
      exact ⟨rfl, rfl⟩

/-! ### Single writes -/

/-- Settles O44. -/
theorem hostStatusIsWritten : Obligations.HostStatusIsWritten := by
  intro s v hctx
  simp only [exec, execHsWrite, inContext_main hctx]
  rfl

/-- Settles O31: the write of the byte lands exactly within the capacity. -/
theorem payloadByteIsStoredAndSummed : Obligations.PayloadByteIsStoredAndSummed := by
  intro s b hctx hstate
  simp only [exec, execPpProcess, inContext_main hctx, processByte, hstate, parsePayload, storePayload]
  by_cases hi : s.pp.index.toNat < s.cfg.payloadCap.toNat
  · rw [spaceWrite_of_lt _ _ hi, if_pos hi]
    rfl
  · rw [spaceWrite_of_ge _ _ (Nat.le_of_not_lt hi), if_neg hi]
    rfl

theorem consumeCommand_of_command {s : State} (k : Command) (b : Byte) (hctx : s.ctx = .main) (hs : s.pp.state = .command) :
    consumeCommand k b s = takeCommand k b s := by
  simp only [consumeCommand, inContext_main hctx, hs, if_true]

/-- A byte that is no code is UNKNOWN (R192). -/
theorem cmdDecode_of_not_mem {c : CmdCodes} {b : Byte} (h : b ∉ [c.init, c.print, c.data, c.brk, c.inquiry]) :
    cmdDecode c b = .unknown := by
  simp only [List.mem_cons, List.not_mem_nil, or_false, not_or] at h
  obtain ⟨h1, h2, h3, h4, h5⟩ := h
  simp only [cmdDecode, h1, h2, h3, h4, h5, if_false]

/-- Settles O49: in state COMMAND each row is `takeCommand` of its command and byte. -/
theorem commandRowsEnterTheCommand : Obligations.CommandRowsEnterTheCommand := by
  intro s hctx hs
  have hrow := fun k b => consumeCommand_of_command k b hctx hs
  refine ⟨hrow _ _, hrow _ _, hrow _ _, hrow _ _, hrow _ _, fun b hb => ?_⟩
  rw [← cmdDecode_of_not_mem hb]
  exact hrow _ b

end Sys2Proof.Machine

/-! SUPPORT. The writers of every flag (10_state.md rule R42) and of every register (R21 to R38), read off the inversion of `exec`. -/

namespace Sys2Proof.Machine

/-! ### What a parser's byte does to the flags -/

theorem getLsbD_statusAtLength_four (v : Byte) (large : Bool) :
    (statusAtLength v large).getLsbD 4 = (v.getLsbD 4 || large) := by
  cases large <;> simp [statusAtLength, packetErrorBit]

theorem getLsbD_statusAtLength_zero (v : Byte) (large : Bool) : (statusAtLength v large).getLsbD 0 = v.getLsbD 0 := by
  cases large <;> simp [statusAtLength, packetErrorBit]

theorem getLsbD_statusAtChecksum_four (v : Byte) (good : Bool) : (statusAtChecksum v good).getLsbD 4 = v.getLsbD 4 := by
  cases good <;> simp [statusAtChecksum, checksumErrorBit]

theorem getLsbD_statusAtChecksum_zero (v : Byte) (good : Bool) :
    (statusAtChecksum v good).getLsbD 0 = (v.getLsbD 0 || !good) := by
  cases good <;> simp [statusAtChecksum, checksumErrorBit]

theorem getLsbD_statusAtKeepalive_four (v hs : Byte) : (statusAtKeepalive v hs).getLsbD 4 = v.getLsbD 4 := by
  simp [statusAtKeepalive, hostStatusMask]

theorem getLsbD_statusAtKeepalive_zero (v hs : Byte) : (statusAtKeepalive v hs).getLsbD 0 = v.getLsbD 0 := by
  simp [statusAtKeepalive, hostStatusMask]

/-- What a byte given to the parser does to `pp_ready`, `pkt_checksum_ok` and `pkt_status`, by the framing states that write one of
them (R190, R191). -/
inductive ByteFlags (s t : State) : Prop where
  | kept (hr : t.pp.ready = s.pp.ready) (hk : t.pkt.checksumOk = s.pkt.checksumOk) (hv : t.pkt.status = s.pkt.status)
  | frameStarted (hs : s.pp.state = .awaitSync1) (ht : t.pp.state = .command) (hr : t.pp.ready = s.pp.ready)
      (hk : t.pkt = packetCleared s.pkt)
  | lengthKnown (hs : s.pp.state = .lengthHigh) (hr : t.pp.ready = s.pp.ready) (hk : t.pkt.checksumOk = s.pkt.checksumOk)
      (hv : t.pkt.status = statusAtLength s.pkt.status (decide (s.cfg.payloadCap.toNat < t.pkt.length.toNat)))
  | checked (hs : s.pp.state = .checksumHigh) (hr : t.pp.ready = s.pp.ready) (hk : t.pkt.checksumOk = (t.pp.chk == s.pp.sum))
      (hv : t.pkt.status = statusAtChecksum s.pkt.status (t.pp.chk == s.pp.sum))
  | completed (hs : s.pp.state = .keepalive) (hr : t.pp.ready = true) (hk : t.pkt.checksumOk = s.pkt.checksumOk)
      (hv : t.pkt.status = statusAtKeepalive s.pkt.status s.hsStatus)
  | left (hs : s.pp.state = .done) (hr : t.pp.ready = false) (hk : t.pkt.checksumOk = s.pkt.checksumOk)
      (hv : t.pkt.status = s.pkt.status)

theorem byteFlags_of_takeCommand {k : Command} {b : Byte} {s t : State} (h : takeCommand k b s = .next t) : ByteFlags s t := by
  simp only [takeCommand, notReadyYet_next] at h
  subst h
  exact .kept rfl rfl rfl

/-- A sync candidate writes the framing state alone. -/
theorem parseSync0_next {b : Byte} {s t : State} (h : parseSync0 b s = .next t) :
    t.pp.ready = s.pp.ready ∧ t.pkt = s.pkt ∧ t.dec = s.dec := by
  simp only [parseSync0, notReadyYet_next] at h
  subst h
  split
  · exact ⟨rfl, rfl, rfl⟩
  · exact ⟨rfl, rfl, rfl⟩

/-- The byte after SYNC0 starts a frame, or writes the framing state alone. -/
theorem parseSync1_next {b : Byte} {s t : State} (h : parseSync1 b s = .next t) :
    (t.pp.state = .command ∧ t.pp.ready = s.pp.ready ∧ t.pkt = packetCleared s.pkt) ∨
      (t.pp.ready = s.pp.ready ∧ t.pkt = s.pkt ∧ t.dec = s.dec) := by
  unfold parseSync1 at h
  split at h
  · rw [notReadyYet_next] at h
    subst h
    exact .inl ⟨rfl, rfl, rfl⟩
  · split at h
    · rw [raising_next] at h
      subst h
      exact .inr ⟨rfl, rfl, rfl⟩
    · rw [raising_next] at h
      subst h
      exact .inr ⟨rfl, rfl, rfl⟩

theorem storePayload_flags (cap n : Half) (b : Byte) (p : Packet) :
    (storePayload cap n b p).checksumOk = p.checksumOk ∧ (storePayload cap n b p).status = p.status := by
  unfold storePayload
  split
  · exact ⟨rfl, rfl⟩
  · exact ⟨rfl, rfl⟩

theorem byteFlags_of_processByte {b : Byte} {s t : State} (h : processByte b s = .next t) : ByteFlags s t := by
  unfold processByte at h
  split at h
  next =>
    obtain ⟨hr, hk, -⟩ := parseSync0_next h
    exact .kept hr (by rw [hk]) (by rw [hk])
  next hs =>
    rcases parseSync1_next h with ⟨ht, hr, hk⟩ | ⟨hr, hk, -⟩
    · exact .frameStarted hs ht hr hk
    · exact .kept hr (by rw [hk]) (by rw [hk])
  next => exact byteFlags_of_takeCommand h
  next =>
    simp only [parseCompression, notReadyYet_next] at h
    subst h
    exact .kept rfl rfl rfl
  next =>
    simp only [parseLengthLow, notReadyYet_next] at h
    subst h
    exact .kept rfl rfl rfl
  next hs =>
    simp only [parseLengthHigh, raising_next] at h
    subst h
    exact .lengthKnown hs rfl rfl rfl
  next =>
    simp only [parsePayload, notReadyYet_next] at h
    subst h
    obtain ⟨hk, hv⟩ := storePayload_flags s.cfg.payloadCap s.pp.index b s.pkt
    exact .kept rfl hk hv
  next =>
    simp only [parseChecksumLow, notReadyYet_next] at h
    subst h
    exact .kept rfl rfl rfl
  next hs =>
    simp only [parseChecksumHigh, raising_next] at h
    subst h
    exact .checked hs rfl rfl rfl
  next hs =>
    simp only [parseKeepalive, returningValue_next] at h
    subst h
    exact .completed hs rfl rfl rfl
  next hs =>
    obtain ⟨hr, hk, -⟩ := parseSync0_next h
    exact .left hs hr (by rw [hk]; rfl) (by rw [hk]; rfl)

theorem Consumes.flags {s t : State} (h : Consumes s t) : ByteFlags s t := by
  rcases h with ⟨b, hb⟩ | ⟨-, k, b, hk⟩
  · exact byteFlags_of_processByte hb
  · exact byteFlags_of_takeCommand hk

/-- Of the run state a parser's byte writes the input position alone, and only where it starts a frame. -/
theorem Consumes.inPos_kept_or_frameStarted {s t : State} (h : Consumes s t) :
    t.dec.inPos = s.dec.inPos ∨ (s.pp.state = .awaitSync1 ∧ t.pp.state = .command) := by
  obtain ⟨p, k, d, r, e, ht, hd, -⟩ := h.change
  have htd : t.dec.inPos = d := by rw [ht]
  rw [htd]
  rcases hd with hd | ⟨-, hs⟩
  · exact .inl hd
  · rcases h with ⟨b, hb⟩ | ⟨hc, -⟩
    · simp only [processByte, hs] at hb
      rcases parseSync1_next hb with ⟨hcmd, -⟩ | ⟨-, -, hdec⟩
      · exact .inr ⟨hs, hcmd⟩
      · exact .inl (by rw [← htd, hdec])
    · rw [hs] at hc
      cases hc

/-! ### The writers of the flags (R42) -/

section Flags

variable {i : Instr} {s t : State}

theorem FbWrite.overflow_set (w : FbWrite i s t) (h0 : s.fb.overflow = false) (h1 : t.fb.overflow = true) :
    s.fb.count = s.cfg.fbCap ∧ ((∃ b, i = .fbPush b) ∨ ∃ c d, i = .edge c d) := by
  cases w with
  | dropped hi hc _ => exact ⟨hc, hi⟩
  | kept e | stored _ _ _ e | popped _ _ e | cleared _ e | reset _ e => simp [e, h0, bufferAfterPush] at h1

theorem FbWrite.overflow_cleared (w : FbWrite i s t) (h0 : s.fb.overflow = true) (h1 : t.fb.overflow = false) :
    i = .fbClearOvf ∨ i = .reset := by
  cases w with
  | cleared hi _ => exact .inl hi
  | reset hi _ => exact .inr hi
  | kept e | dropped _ _ e | stored _ _ _ e | popped _ _ e => simp [e, h0, bufferAfterPush] at h1

theorem TmWrite.armed_set (w : TmWrite i s t) (h0 : s.tm.armed = false) (h1 : t.tm.armed = true) :
    i = .fbPop ∧ s.fb.count ≠ 0 := by
  cases w with
  | started hi hc _ => exact ⟨hi, hc⟩
  | kept e => simp [e, h0] at h1
  | ticked _ ha _ | fired _ ha _ => simp [h0] at ha
  | reset _ e => simp [e] at h1

theorem TmWrite.armed_cleared (w : TmWrite i s t) (h0 : s.tm.armed = true) (h1 : t.tm.armed = false) :
    TimedOut i t ∨ i = .reset := by
  cases w with
  | fired hi _ _ => exact .inl hi
  | reset hi _ => exact .inr hi
  | kept e => simp [e, h0] at h1
  | started _ _ e | ticked _ _ e => simp [e] at h1

theorem ParserWrite.ready_set (w : ParserWrite i s t) (h0 : s.pp.ready = false) (h1 : t.pp.ready = true) :
    isProcess i = true ∧ s.pp.state = .keepalive := by
  cases w with
  | consumed hi h =>
    cases h.flags with
    | completed hs _ _ _ => exact ⟨hi, hs⟩
    | kept e _ _ | frameStarted _ _ e _ | lengthKnown _ e _ _ | checked _ e _ _ | left _ e _ _ => simp [e, h0] at h1
  | kept e _ | taken _ e _ | timedOut _ _ e _ | reset _ e _ => simp [e, h0] at h1

theorem ParserWrite.ready_cleared (w : ParserWrite i s t) (h0 : s.pp.ready = true) (h1 : t.pp.ready = false) :
    i = .ppTake ∨ (isProcess i = true ∧ s.pp.state = .done) ∨ i = .reset := by
  cases w with
  | consumed hi h =>
    cases h.flags with
    | left hs _ _ _ => exact .inr (.inl ⟨hi, hs⟩)
    | kept e _ _ | frameStarted _ _ e _ | lengthKnown _ e _ _ | checked _ e _ _ | completed _ e _ _ => simp [e, h0] at h1
  | taken hi _ _ => exact .inl hi
  | reset hi _ _ => exact .inr (.inr hi)
  | kept e _ => simp [e, h0] at h1
  | timedOut _ hr _ _ => simp [h0] at hr

theorem ParserWrite.checksumOk_set (w : ParserWrite i s t) (h0 : s.pkt.checksumOk = false) (h1 : t.pkt.checksumOk = true) :
    isProcess i = true ∧ s.pp.state = .checksumHigh ∧ t.pp.chk = s.pp.sum := by
  cases w with
  | consumed hi h =>
    cases h.flags with
    | checked hs _ e _ => exact ⟨hi, hs, by simpa [e] using h1⟩
    | kept _ e _ | frameStarted _ _ _ e | lengthKnown _ _ e _ | completed _ _ e _ | left _ _ e _ => simp [e, h0] at h1
  | kept _ e | taken _ _ e | timedOut _ _ _ e | reset _ _ e => simp [e, h0] at h1

/-- A status bit is set by one of the three bytes that write the status inside a frame. -/
theorem ParserWrite.statusBit_set (w : ParserWrite i s t) {k : Nat} (h0 : s.pkt.status.getLsbD k = false)
    (h1 : t.pkt.status.getLsbD k = true) :
    isProcess i = true ∧
      ((s.pp.state = .lengthHigh ∧
          t.pkt.status = statusAtLength s.pkt.status (decide (s.cfg.payloadCap.toNat < t.pkt.length.toNat))) ∨
        (s.pp.state = .checksumHigh ∧ t.pkt.status = statusAtChecksum s.pkt.status (t.pp.chk == s.pp.sum)) ∨
        (s.pp.state = .keepalive ∧ t.pkt.status = statusAtKeepalive s.pkt.status s.hsStatus)) := by
  cases w with
  | consumed hi h =>
    cases h.flags with
    | lengthKnown hs _ _ e => exact ⟨hi, .inl ⟨hs, e⟩⟩
    | checked hs _ _ e => exact ⟨hi, .inr (.inl ⟨hs, e⟩)⟩
    | completed hs _ _ e => exact ⟨hi, .inr (.inr ⟨hs, e⟩)⟩
    | kept _ _ e | frameStarted _ _ _ e | left _ _ _ e => simp [e, h0] at h1
  | kept _ e | taken _ _ e | timedOut _ _ _ e | reset _ _ e => simp [e, h0] at h1

theorem ParserWrite.packetError_set (w : ParserWrite i s t) (h0 : s.pkt.status.getLsbD 4 = false)
    (h1 : t.pkt.status.getLsbD 4 = true) :
    isProcess i = true ∧ s.pp.state = .lengthHigh ∧ s.cfg.payloadCap.toNat < t.pkt.length.toNat := by
  obtain ⟨hi, ⟨hs, e⟩ | ⟨-, e⟩ | ⟨-, e⟩⟩ := w.statusBit_set h0 h1
  · rw [e, getLsbD_statusAtLength_four, h0] at h1
    exact ⟨hi, hs, by simpa using h1⟩
  · rw [e, getLsbD_statusAtChecksum_four, h0] at h1
    cases h1
  · rw [e, getLsbD_statusAtKeepalive_four, h0] at h1
    cases h1

theorem ParserWrite.checksumError_set (w : ParserWrite i s t) (h0 : s.pkt.status.getLsbD 0 = false)
    (h1 : t.pkt.status.getLsbD 0 = true) :
    isProcess i = true ∧ s.pp.state = .checksumHigh ∧ t.pp.chk ≠ s.pp.sum := by
  obtain ⟨hi, ⟨-, e⟩ | ⟨hs, e⟩ | ⟨-, e⟩⟩ := w.statusBit_set h0 h1
  · rw [e, getLsbD_statusAtLength_zero, h0] at h1
    cases h1
  · rw [e, getLsbD_statusAtChecksum_zero, h0] at h1
    exact ⟨hi, hs, by simpa using h1⟩
  · rw [e, getLsbD_statusAtKeepalive_zero, h0] at h1
    cases h1

/-- The Packet register has been cleared: by FrameStart, by a session reset with no packet waiting to be taken, or by RESET (R191,
R230, R360). -/
def PacketCleared (i : Instr) (s t : State) : Prop :=
  (isProcess i = true ∧ s.pp.state = .awaitSync1 ∧ t.pp.state = .command) ∨ (TimedOut i t ∧ s.pp.ready = false) ∨ i = .reset

/-- Where the register is not cleared, no status bit is, and the checksum outcome is written at CHECKSUM_HIGH alone. -/
theorem ParserWrite.cleared_or_kept (w : ParserWrite i s t) :
    PacketCleared i s t ∨
      ((∀ k, s.pkt.status.getLsbD k = true → t.pkt.status.getLsbD k = true) ∧
        (t.pkt.checksumOk = s.pkt.checksumOk ∨ s.pp.state = .checksumHigh)) := by
  cases w with
  | kept _ e | taken _ _ e => exact .inr ⟨fun k hk => by rwa [e], .inl (by rw [e])⟩
  | timedOut hi hr _ _ => exact .inl (.inr (.inl ⟨hi, hr⟩))
  | reset hi _ _ => exact .inl (.inr (.inr hi))
  | consumed hi h =>
    cases h.flags with
    | frameStarted hs ht _ _ => exact .inl (.inl ⟨hi, hs, ht⟩)
    | kept _ hk e | left _ _ hk e => exact .inr ⟨fun k hb => by rwa [e], .inl hk⟩
    | lengthKnown _ _ hk e =>
      refine .inr ⟨fun k hb => ?_, .inl hk⟩
      rw [e, statusAtLength]
      split <;> simp [hb]
    | checked hs _ _ e =>
      refine .inr ⟨fun k hb => ?_, .inr hs⟩
      rw [e, statusAtChecksum]
      split <;> simp [hb]
    | completed _ _ hk e =>
      refine .inr ⟨fun k hb => ?_, .inl hk⟩
      rw [e, statusAtKeepalive]
      simp [hb]

theorem ParserWrite.statusBit_cleared (w : ParserWrite i s t) {k : Nat} (h0 : s.pkt.status.getLsbD k = true)
    (h1 : t.pkt.status.getLsbD k = false) : PacketCleared i s t := by
  rcases w.cleared_or_kept with h | ⟨hbits, -⟩
  · exact h
  · simp [hbits k h0] at h1

/-- The invariant makes the outcome 0 until CHECKSUM_HIGH has written it (R35). -/
theorem ParserWrite.checksumOk_cleared (w : ParserWrite i s t) (hp : PpGood s) (h0 : s.pkt.checksumOk = true)
    (h1 : t.pkt.checksumOk = false) : PacketCleared i s t := by
  rcases w.cleared_or_kept with h | ⟨-, hk | hs⟩
  · exact h
  · simp [hk, h0] at h1
  · obtain ⟨-, -, -, houtcome, -⟩ := hp
    have := houtcome (by rw [hs]; rfl)
    simp [h0] at this

theorem DecWrite.full_set (w : DecWrite i s t) (h0 : s.tile.cursor ≠ 16) (h1 : t.tile.cursor = 16) :
    isFeed i = true ∧ s.tile.cursor = 15 := by
  cases w with
  | fed hi h =>
    rcases h.cursor_kept_or_advanced with e | ⟨-, e⟩
    · exact absurd (e ▸ h1) h0
    · rw [e] at h1
      exact ⟨hi, by bv_omega⟩
  | kept _ e _ => exact absurd (e ▸ h1) h0
  | consumed _ h => exact absurd (h.tile_kept ▸ h1) h0
  | taken _ _ e _ | reset _ _ e => simp [e] at h1
  | timedOut _ _ e =>
    rw [e] at h1
    split at h1
    · simp at h1
    · exact absurd h1 h0

theorem DecWrite.full_cleared (w : DecWrite i s t) (h0 : s.tile.cursor = 16) (h1 : t.tile.cursor ≠ 16) :
    i = .tileTake ∨ i = .reset := by
  cases w with
  | taken hi _ _ _ => exact .inl hi
  | reset hi _ _ => exact .inr hi
  | fed _ h =>
    rcases h.cursor_kept_or_advanced with e | ⟨hc, -⟩
    · exact absurd (e.trans h0) h1
    · simp [h0] at hc
  | kept _ e _ => exact absurd (e ▸ h0) h1
  | consumed _ h => exact absurd (h.tile_kept ▸ h0) h1
  | timedOut _ _ e => simp [e, h0] at h1

end Flags

/-- Settles O57, flag by flag. -/
theorem flagsHaveOnlyTheirWriters : Obligations.FlagsHaveOnlyTheirWriters := by
  intro i s t h
  have w := exec_writes h
  exact ⟨w.fb.overflow_set, w.fb.overflow_cleared, w.tm.armed_set, w.tm.armed_cleared, w.parser.ready_set,
    w.parser.ready_cleared, w.parser.checksumOk_set, fun ⟨_, _, hpp, _⟩ => w.parser.checksumOk_cleared hpp,
    w.parser.packetError_set, w.parser.statusBit_cleared, w.parser.checksumError_set, w.parser.statusBit_cleared,
    w.dec.full_set, w.dec.full_cleared⟩

/-! ### The writers of the registers (R21 to R38) -/

section Registers

variable {i : Instr} {s t : State}

theorem RxWrite.rx_changed (w : RxWrite i s t) (h : t.rx ≠ s.rx) :
    (∃ c d, i = .edge c d) ∨ (TimedOut i t ∧ s.cfg.rxResetOnTimeout = true) ∨ i = .reset := by
  cases w with
  | kept e => exact absurd e h
  | sampled hi => exact .inl hi
  | timedOut hi hc => exact .inr (.inl ⟨hi, hc⟩)
  | reset hi => exact .inr (.inr hi)

theorem FbWrite.data_changed (w : FbWrite i s t) (h : t.fb.data ≠ s.fb.data) : storesByte i s = true := by
  cases w with
  | stored hi _ _ _ => exact hi
  | kept e | dropped _ _ e | popped _ _ e | cleared _ e | reset _ e => simp [e] at h

theorem FbWrite.tail_changed (w : FbWrite i s t) (h : t.fb.tail ≠ s.fb.tail) : storesByte i s = true ∨ i = .reset := by
  cases w with
  | stored hi _ _ _ => exact .inl hi
  | reset hi _ => exact .inr hi
  | kept e | dropped _ _ e | popped _ _ e | cleared _ e => simp [e] at h

theorem FbWrite.maxFill_changed (w : FbWrite i s t) (h : t.fb.maxFill ≠ s.fb.maxFill) :
    storesByte i s = true ∨ i = .reset := by
  cases w with
  | stored hi _ _ _ => exact .inl hi
  | reset hi _ => exact .inr hi
  | kept e | dropped _ _ e | popped _ _ e | cleared _ e => simp [e] at h

theorem FbWrite.head_changed (w : FbWrite i s t) (h : t.fb.head ≠ s.fb.head) :
    (i = .fbPop ∧ s.fb.count ≠ 0) ∨ i = .reset := by
  cases w with
  | popped hi hc _ => exact .inl ⟨hi, hc⟩
  | reset hi _ => exact .inr hi
  | kept e | dropped _ _ e | stored _ _ _ e | cleared _ e => simp [e, bufferAfterPush] at h

theorem FbWrite.count_changed (w : FbWrite i s t) (h : t.fb.count ≠ s.fb.count) :
    storesByte i s = true ∨ (i = .fbPop ∧ s.fb.count ≠ 0) ∨ i = .reset := by
  cases w with
  | stored hi _ _ _ => exact .inl hi
  | popped hi hc _ => exact .inr (.inl ⟨hi, hc⟩)
  | reset hi _ => exact .inr (.inr hi)
  | kept e | dropped _ _ e | cleared _ e => simp [e] at h

theorem TmWrite.tm_changed (w : TmWrite i s t) (h : t.tm ≠ s.tm) :
    (i = .fbPop ∧ s.fb.count ≠ 0) ∨ ((∃ ms, i = .tmTick ms) ∧ s.tm.armed = true) ∨ i = .reset := by
  cases w with
  | kept e => exact absurd e h
  | started hi hc _ => exact .inl ⟨hi, hc⟩
  | ticked hi ha _ => exact .inr (.inl ⟨hi, ha⟩)
  | fired hi ha _ => exact .inr (.inl ⟨hi.1, ha⟩)
  | reset hi _ => exact .inr (.inr hi)

theorem ParserWrite.framing_changed (w : ParserWrite i s t)
    (h : t.pp.state ≠ s.pp.state ∨ t.pp.index ≠ s.pp.index ∨ t.pp.sum ≠ s.pp.sum ∨ t.pp.chk ≠ s.pp.chk) :
    isProcess i = true ∨ (TimedOut i t ∧ s.pp.ready = false) ∨ i = .reset := by
  cases w with
  | consumed hi _ => exact .inl hi
  | timedOut hi hr _ _ => exact .inr (.inl ⟨hi, hr⟩)
  | reset hi _ _ => exact .inr (.inr hi)
  | kept e _ | taken _ e _ => simp [e] at h

theorem ParserWrite.pkt_changed (w : ParserWrite i s t) (h : t.pkt ≠ s.pkt) :
    isProcess i = true ∨ (TimedOut i t ∧ s.pp.ready = false) ∨ i = .reset := by
  cases w with
  | consumed hi _ => exact .inl hi
  | timedOut hi hr _ _ => exact .inr (.inl ⟨hi, hr⟩)
  | reset hi _ _ => exact .inr (.inr hi)
  | kept _ e | taken _ _ e => exact absurd e h

theorem DecWrite.run_changed (w : DecWrite i s t)
    (h : t.dec.mode ≠ s.dec.mode ∨ t.dec.remaining ≠ s.dec.remaining ∨ t.dec.repeatByte ≠ s.dec.repeatByte) :
    isFeed i = true ∨ TimedOut i t ∨ i = .reset := by
  cases w with
  | fed hi _ => exact .inl hi
  | timedOut hi _ _ => exact .inr (.inl hi)
  | reset hi _ _ => exact .inr (.inr hi)
  | kept e _ _ | taken _ e _ _ => simp [e] at h
  | consumed _ hc =>
    obtain ⟨p, k, d, r, ev, rfl, -⟩ := hc.change
    simp at h

theorem DecWrite.inPos_changed (w : DecWrite i s t) (h : t.dec.inPos ≠ s.dec.inPos) :
    isFeed i = true ∨ (isProcess i = true ∧ s.pp.state = .awaitSync1 ∧ t.pp.state = .command) ∨ TimedOut i t ∨ i = .reset := by
  cases w with
  | fed hi _ => exact .inl hi
  | timedOut hi _ _ => exact .inr (.inr (.inl hi))
  | reset hi _ _ => exact .inr (.inr (.inr hi))
  | kept e _ _ | taken _ e _ _ => simp [e] at h
  | consumed hi hc =>
    rcases hc.inPos_kept_or_frameStarted with e | hs
    · exact absurd e h
    · exact .inr (.inl ⟨hi, hs⟩)

theorem DecWrite.buf_changed (w : DecWrite i s t) (h : t.tile.buf ≠ s.tile.buf) : isFeed i = true := by
  cases w with
  | fed hi _ => exact hi
  | kept _ e _ | taken _ _ e _ | reset _ _ e => simp [e] at h
  | consumed _ hc => simp [hc.tile_kept] at h
  | timedOut _ _ e =>
    rw [e] at h
    split at h
    · exact absurd rfl h
    · exact absurd rfl h

theorem DecWrite.cursor_changed (w : DecWrite i s t) (h : t.tile.cursor ≠ s.tile.cursor) :
    isFeed i = true ∨ i = .tileTake ∨ TimedOut i t ∨ i = .reset := by
  cases w with
  | fed hi _ => exact .inl hi
  | taken hi _ _ _ => exact .inr (.inl hi)
  | timedOut hi _ _ => exact .inr (.inr (.inl hi))
  | reset hi _ _ => exact .inr (.inr (.inr hi))
  | kept _ e _ => simp [e] at h
  | consumed _ hc => simp [hc.tile_kept] at h

end Registers

/-- Settles O58, register by register. -/
theorem registersHaveOnlyTheirWriters : Obligations.RegistersHaveOnlyTheirWriters := by
  intro i s t h
  have w := exec_writes h
  exact ⟨w.rx.rx_changed, w.fb.data_changed, w.fb.tail_changed, w.fb.maxFill_changed, w.fb.head_changed, w.fb.count_changed,
    w.tm.tm_changed, w.parser.framing_changed, w.parser.pkt_changed, w.hsStatus.resolve_left, w.dec.run_changed,
    w.dec.inPos_changed, w.dec.buf_changed, w.dec.cursor_changed⟩

end Sys2Proof.Machine

/-! SUPPORT. The memory rules (20_memory.md): what the operations of each context leave alone (R75, R341), the queries (R69), the edges
of one byte (R65, R117), and that no condition is fatal (R68). -/

namespace Sys2Proof.Machine

/-! ### EDGE, form by form (40_bit_receiver.md rule R132) -/

/-- The receiver's registers once a counted edge has sampled `d`, the bit index not yet advanced. -/
def sampledRegs (p : Params) (d : Bool) (r : RxRegs) : RxRegs := rxShift p.bitOrder d (rxLoad p.txPolicy r)

theorem sampledRegs_acc (p : Params) (d : Bool) (r : RxRegs) : (sampledRegs p d r).acc = bitIn p.bitOrder d r.acc := by
  rw [sampledRegs, rxShift_eq, rxLoad]
  split <;> rfl

section Edge
variable {c d : Bool} {s : State}

theorem exec_edge_of_uncounted (hctx : s.ctx = .int) (hc : counted s.cfg.edgeMode c = false) :
    exec (.edge c d) s = returningValue (.bit s.rx.response) s := by
  simp only [exec, execEdge, inContext_int hctx, hc, Bool.not_false, if_true]

theorem exec_edge_of_early (hctx : s.ctx = .int) (hc : counted s.cfg.edgeMode c = true) (hi : s.rx.bitIndex ≠ 7) :
    exec (.edge c d) s = returningValue (.bit (sampledRegs s.cfg d s.rx).response)
      { s with rx := { sampledRegs s.cfg d s.rx with bitIndex := s.rx.bitIndex + 1 } } := by
  simp only [exec, execEdge, inContext_int hctx, hc, hi, Bool.not_true, Bool.false_eq_true, if_false]
  rfl

/-- The eighth counted edge runs the body of FB_PUSH. -/
theorem exec_edge_of_last (hctx : s.ctx = .int) (hc : counted s.cfg.edgeMode c = true) (hi : s.rx.bitIndex = 7) :
    exec (.edge c d) s =
      match pushByte s.cfg.fbCap (sampledRegs s.cfg d s.rx).acc s.fb with
      | .stored f => returningValue (.bit (sampledRegs s.cfg d s.rx).response)
          { s with rx := rxNextByte (sampledRegs s.cfg d s.rx), fb := f }
      | .dropped f => raising (some (.bufferOverflow (sampledRegs s.cfg d s.rx).acc))
          (.value (.bit (sampledRegs s.cfg d s.rx).response)) { s with rx := rxNextByte (sampledRegs s.cfg d s.rx), fb := f }
      | .outside => .fault (.outsideSpace .fb) := by
  simp only [exec, execEdge, inContext_int hctx, hc, hi, Bool.not_true, Bool.false_eq_true, if_false, if_true]
  rfl

end Edge

/-- Settles O60: which form of EDGE runs, and all that the form writes, is computed from the parameters, the receiver and the
FrameBuffer. -/
theorem edgeIsBlindToTheMainContext : Obligations.EdgeIsBlindToTheMainContext := by
  intro s u t c d hs hu hcfg hrx hfb h
  cases hc : counted s.cfg.edgeMode c with
  | false =>
    rw [exec_edge_of_uncounted hs hc, returningValue_next] at h
    rw [exec_edge_of_uncounted hu (hcfg ▸ hc), ← hrx]
    subst h
    exact ⟨_, rfl, hrx.symm, hfb.symm, rfl, rfl⟩
  | true =>
    by_cases hi : s.rx.bitIndex = 7
    · rw [exec_edge_of_last hs hc hi] at h
      rw [exec_edge_of_last hu (hcfg ▸ hc) (hrx ▸ hi), ← hcfg, ← hrx, ← hfb]
      cases hp : pushByte s.cfg.fbCap (sampledRegs s.cfg d s.rx).acc s.fb with
      | stored f =>
        simp only [hp, returningValue_next] at h
        subst h
        exact ⟨_, rfl, rfl, rfl, rfl, rfl⟩
      | dropped f =>
        simp only [hp, raising_next] at h
        subst h
        exact ⟨_, rfl, rfl, rfl, rfl, rfl⟩
      | outside => simp only [hp, reduceCtorEq] at h
    · rw [exec_edge_of_early hs hc hi, returningValue_next] at h
      rw [exec_edge_of_early hu (hcfg ▸ hc) (hrx ▸ hi), ← hcfg, ← hrx]
      subst h
      exact ⟨_, rfl, rfl, hfb.symm, rfl, rfl⟩

/-! ### The frame of the INT operations (R75, R341) -/

/-- Of the state, an operation that ran in INT changes the receiver and the FrameBuffer at most. -/
def IntChange (s t : State) : Prop := ∃ x f r e, t = { s with rx := x, fb := f, reply := .returned r, event := e }

theorem intChange_of_raising {e : Option Event} {r : Result} {s t : State} {x : RxRegs} {f : FrameBuffer}
    (h : raising e r { s with rx := x, fb := f } = .next t) : IntChange s t := ⟨x, f, r, e, raising_next.mp h⟩

theorem intChange_edge {c d : Bool} {s t : State} (hctx : s.ctx = .int) (h : exec (.edge c d) s = .next t) : IntChange s t := by
  cases hc : counted s.cfg.edgeMode c with
  | false =>
    rw [exec_edge_of_uncounted hctx hc] at h
    exact intChange_of_raising h
  | true =>
    by_cases hi : s.rx.bitIndex = 7
    · rw [exec_edge_of_last hctx hc hi] at h
      split at h
      · exact intChange_of_raising h
      · exact intChange_of_raising h
      · cases h
    · rw [exec_edge_of_early hctx hc hi] at h
      exact intChange_of_raising h

theorem inContext_next_of_permits {g : Tag} {s t : State} {k : Step} (hp : permits g s.ctx = true)
    (h : inContext g s k = .next t) : k = .next t := by
  rwa [inContext_of_permits hp] at h

theorem intChange_fbPush {b : Byte} {s t : State} (hp : permits .int s.ctx = true) (h : exec (.fbPush b) s = .next t) :
    IntChange s t := by
  have hk := inContext_next_of_permits hp h
  split at hk
  · exact intChange_of_raising hk
  · exact intChange_of_raising hk
  · cases hk

theorem exec_intChange {i : Instr} {s t : State} (hctx : s.ctx = .int) (hp : permits (tagOf i) s.ctx = true)
    (h : exec i s = .next t) : IntChange s t := by
  cases i with
  | edge c d => exact intChange_edge hctx h
  | fbPush b => exact intChange_fbPush hp h
  | fbCapacity | scEncode f | scDecode v =>
    exact intChange_of_raising (inContext_next_of_permits hp h)
  | _ =>
    rw [hctx] at hp
    cases hp

/-- In INT the FrameBuffer keeps all but its overflow flag, or stores one byte. -/
theorem FbWrite.flag_or_stored_of_int {i : Instr} {s t : State} (w : FbWrite i s t) (hp : permits (tagOf i) .int = true) :
    (∃ v, t.fb = { s.fb with overflow := v }) ∨ (storesByte i s = true ∧ ∃ b, t.fb = bufferAfterPush s.cfg.fbCap b s.fb) := by
  cases w with
  | kept e => exact .inl ⟨s.fb.overflow, e⟩
  | dropped _ _ e => exact .inl ⟨true, e⟩
  | stored hi _ b e => exact .inr ⟨hi, b, e⟩
  | cleared _ e => exact .inl ⟨false, e⟩
  | popped hi _ _ | reset hi _ =>
    subst hi
    cases hp

theorem rx_changed_of_int {i : Instr} {s t : State} (hctx : s.ctx = .int) (hp : permits (tagOf i) s.ctx = true)
    (h : exec i s = .next t) (hrx : t.rx ≠ s.rx) : ∃ c d, i = .edge c d ∧ (s.cfg.edgeMode = .allEdges ∨ c = true) := by
  rw [hctx] at hp
  rcases (exec_writes h).rx.rx_changed hrx with ⟨c, d, rfl⟩ | ⟨⟨⟨ms, rfl⟩, -⟩, -⟩ | rfl
  · refine ⟨c, d, rfl, ?_⟩
    cases hc : counted s.cfg.edgeMode c with
    | false =>
      rw [exec_edge_of_uncounted hctx hc, returningValue_next] at h
      exact absurd (by rw [h]) hrx
    | true => simpa [counted_eq] using hc
  · cases hp
  · cases hp

/-- Settles O53: a refused operation changes the answer and the mark alone; one that ran changes the receiver and the FrameBuffer, and
of the FrameBuffer the flag alone or what one stored byte writes. -/
theorem interruptFrame : Obligations.InterruptFrame := by
  intro i s t hctx h
  cases hp : permits (tagOf i) s.ctx with
  | false =>
    rw [exec_of_not_permits hp, refuse_next] at h
    subst h
    exact ⟨rfl, rfl, fun _ _ => rfl, fun _ => ⟨rfl, fun _ => rfl⟩, fun hrx => absurd rfl hrx⟩
  | true =>
    have hrx := rx_changed_of_int hctx hp h
    have hframe : t = { s with rx := t.rx, fb := t.fb, reply := t.reply, event := t.event, refused := t.refused } := by
      obtain ⟨x, f, r, e, rfl⟩ := exec_intChange hctx hp h
      rfl
    refine ⟨hframe, ?_⟩
    rcases (exec_writes h).fb.flag_or_stored_of_int (hctx ▸ hp) with ⟨v, hf⟩ | ⟨hstores, b, hf⟩
    · rw [hf]
      exact ⟨rfl, fun _ _ => rfl, fun _ => ⟨rfl, fun _ => rfl⟩, hrx⟩
    · rw [hf]
      exact ⟨rfl, fun a ha => memGet_memSet_ne _ b ha, fun hn => absurd hstores (by simp [hn]), hrx⟩

/-! ### The frame of the MAIN operations (R75, R341) -/

/-- The stream and the running context, which only the fetch writes (R22). -/
structure StreamKept (s t : State) : Prop where
  ops : t.ops = s.ops
  ctx : t.ctx = s.ctx

theorem IntChange.streamKept {s t : State} (h : IntChange s t) : StreamKept s t := by
  obtain ⟨x, f, r, e, rfl⟩ := h
  exact ⟨rfl, rfl⟩

theorem FeedChange.streamKept {s t : State} (h : FeedChange s t) : StreamKept s t := by
  obtain ⟨d, tl, b, rfl, -⟩ := h
  exact ⟨rfl, rfl⟩

theorem ParserChange.streamKept {s t : State} (h : ParserChange s t) : StreamKept s t := by
  obtain ⟨p, k, d, r, e, rfl, -⟩ := h
  exact ⟨rfl, rfl⟩

theorem streamKept_of_raising {e : Option Event} {r : Result} {s u t : State} (h : raising e r u = .next t)
    (hu : StreamKept s u) : StreamKept s t := by
  rw [raising_next] at h
  subst h
  exact ⟨hu.ops, hu.ctx⟩

theorem streamKept_of_inContext {g : Tag} {s t : State} {k : Step} (h : inContext g s k = .next t)
    (hk : k = .next t → StreamKept s t) : StreamKept s t := by
  rcases inContext_next h with ⟨-, hn⟩ | ⟨-, rfl⟩
  · exact hk hn
  · exact ⟨rfl, rfl⟩

theorem streamKept_edge {c d : Bool} {s t : State} (h : exec (.edge c d) s = .next t) : StreamKept s t := by
  rcases inContext_next h with ⟨hp, -⟩ | ⟨-, rfl⟩
  · exact (intChange_edge (ctx_int_of_permits hp) h).streamKept
  · exact ⟨rfl, rfl⟩

theorem streamKept_fbPush {b : Byte} {s t : State} (h : exec (.fbPush b) s = .next t) : StreamKept s t := by
  rcases inContext_next h with ⟨hp, -⟩ | ⟨-, rfl⟩
  · exact (intChange_fbPush hp h).streamKept
  · exact ⟨rfl, rfl⟩

theorem streamKept_fbPop {s t : State} (h : execFbPop s = .next t) : StreamKept s t := by
  refine streamKept_of_inContext h fun hk => ?_
  split at hk
  · exact streamKept_of_raising hk ⟨rfl, rfl⟩
  · split at hk
    · cases hk
    · exact streamKept_of_raising hk ⟨rfl, rfl⟩

theorem streamKept_fbPeek {off : Half} {s t : State} (h : execFbPeek off s = .next t) : StreamKept s t := by
  refine streamKept_of_inContext h fun hk => ?_
  split at hk
  · exact streamKept_of_raising hk ⟨rfl, rfl⟩
  · split at hk
    · cases hk
    · exact streamKept_of_raising hk ⟨rfl, rfl⟩

theorem streamKept_tmTick {ms : BitVec 24} {s t : State} (h : execTmTick ms s = .next t) : StreamKept s t := by
  refine streamKept_of_inContext h fun hk => ?_
  split at hk
  · exact streamKept_of_raising hk ⟨rfl, rfl⟩
  · dsimp only at hk
    split at hk
    · exact streamKept_of_raising hk ⟨sessionTimeout_ops _, sessionTimeout_ctx _⟩
    · exact streamKept_of_raising hk ⟨rfl, rfl⟩

theorem streamKept_ppTake {s t : State} (h : execPpTake s = .next t) : StreamKept s t := by
  refine streamKept_of_inContext h fun hk => ?_
  split at hk
  · exact streamKept_of_raising hk ⟨rfl, rfl⟩
  · split at hk
    · cases hk
    · exact streamKept_of_raising hk ⟨rfl, rfl⟩

theorem streamKept_tileTake {s t : State} (h : execTileTake s = .next t) : StreamKept s t := by
  refine streamKept_of_inContext h fun hk => ?_
  split at hk
  · exact streamKept_of_raising hk ⟨rfl, rfl⟩
  · exact streamKept_of_raising hk ⟨rfl, rfl⟩

theorem streamKept_readField {f : PrintField} {s t : State} (h : readField f s = .next t) : StreamKept s t := by
  refine streamKept_of_inContext h fun hk => ?_
  split at hk
  · cases hk
  · exact streamKept_of_raising hk ⟨rfl, rfl⟩

theorem streamKept_consumeCommand {k : Command} {b : Byte} {s t : State} (h : consumeCommand k b s = .next t) :
    StreamKept s t := by
  refine streamKept_of_inContext h fun hk => ?_
  split at hk
  · exact (parserChange_of_takeCommand hk).streamKept
  · exact (parserChange_of_processByte hk).streamKept

theorem streamKept_consumeControl {p : RleDecode} {r : Run} {s t : State} (h : consumeControl p r s = .next t) :
    StreamKept s t := by
  refine streamKept_of_inContext h fun hk => ?_
  split at hk
  · exact (feedChange_of_beginRun rfl hk).streamKept
  · exact (feedChange_of_feed hk).streamKept

theorem exec_streamKept {i : Instr} {s t : State} (h : exec i s = .next t) : StreamKept s t := by
  cases i with
  | edge c d => exact streamKept_edge h
  | fbPush b => exact streamKept_fbPush h
  | fbPop => exact streamKept_fbPop h
  | fbPeek off => exact streamKept_fbPeek h
  | tmTick ms => exact streamKept_tmTick h
  | ppProcess b => exact streamKept_of_inContext h fun hk => (parserChange_of_processByte hk).streamKept
  | ppTake => exact streamKept_ppTake h
  | decFeed => exact streamKept_of_inContext h fun hk => (feedChange_of_feed hk).streamKept
  | tileTake => exact streamKept_tileTake h
  | prSheets | prMarginPre | prMarginPost | prPalette | prDensity => exact streamKept_readField h
  | rleDocLiteral ignored n | rleDocRepeat ignored n | rleGbLiteral n | rleGbRepeat n => exact streamKept_consumeControl h
  | cmdInit | cmdPrint | cmdData | cmdBreak | cmdInquiry | cmdUnknown raw => exact streamKept_consumeCommand h
  | fbCount | fbCapacity | fbMaxfill | fbOverflow | fbClearOvf | ppReady | decPending | tileReady | scEncode f | scDecode v
  | hsWrite v | reset => exact streamKept_of_inContext h fun hk => streamKept_of_raising hk ⟨rfl, rfl⟩

theorem storesByte_of_main {i : Instr} {s : State} (hctx : s.ctx = .main) : storesByte i s = false := by
  cases i with
  | edge c d | fbPush b => simp [storesByte, hctx]
  | _ => rfl

theorem FbWrite.storage_kept_of_main {i : Instr} {s t : State} (w : FbWrite i s t) (hctx : s.ctx = .main)
    (hp : permits (tagOf i) .main = true) :
    t.fb = { s.fb with head := t.fb.head, count := t.fb.count, overflow := t.fb.overflow } := by
  cases w with
  | kept e | dropped _ _ e | popped _ _ e | cleared _ e => rw [e]
  | stored hi _ _ _ => simp [storesByte_of_main hctx] at hi
  | reset hi _ =>
    subst hi
    cases hp

theorem RxWrite.timedOut_of_main {i : Instr} {s t : State} (w : RxWrite i s t) (hp : permits (tagOf i) .main = true)
    (hrx : t.rx ≠ s.rx) : s.cfg.rxResetOnTimeout = true ∧ t.event = some .sessionTimeout := by
  rcases w.rx_changed hrx with ⟨c, d, rfl⟩ | ⟨⟨-, hevent⟩, hcfg⟩ | rfl
  · cases hp
  · exact ⟨hcfg, hevent⟩
  · cases hp

/-- Settles O54, component by component; the operations that would write more are not MAIN's, and are refused. -/
theorem mainFrame : Obligations.MainFrame := by
  intro i s t hctx h
  cases hp : permits (tagOf i) s.ctx with
  | false =>
    rw [exec_of_not_permits hp, refuse_next] at h
    subst h
    exact ⟨rfl, rfl, rfl, rfl, fun hrx => absurd rfl hrx⟩
  | true =>
    rw [hctx] at hp
    have w := exec_writes h
    have hstream := exec_streamKept h
    exact ⟨w.cfg, hstream.ops, hstream.ctx, w.fb.storage_kept_of_main hctx hp, w.rx.timedOut_of_main hp⟩

/-! ### The queries (R69) -/

theorem answered_of_readField {f : PrintField} {s t : State} (hp : permits .main s.ctx = true) (h : readField f s = .next t) :
    ∃ r, t = answered r s := by
  have hk := inContext_next_of_permits hp h
  split at hk
  · cases hk
  · exact ⟨_, returningValue_next.mp hk⟩

theorem answered_of_fbPeek {off : Half} {s t : State} (hp : permits .main s.ctx = true) (h : execFbPeek off s = .next t) :
    ∃ r, t = answered r s := by
  have hk := inContext_next_of_permits hp h
  split at hk
  · exact ⟨_, returning_next.mp hk⟩
  · split at hk
    · cases hk
    · exact ⟨_, returningValue_next.mp hk⟩

/-- A query answers and does nothing else. -/
theorem exec_query_answered {i : Instr} {s t : State} (hq : isQuery i = true) (hp : permits (tagOf i) s.ctx = true)
    (h : exec i s = .next t) : ∃ r, t = answered r s := by
  cases i with
  | fbPeek off => exact answered_of_fbPeek hp h
  | prSheets | prMarginPre | prMarginPost | prPalette | prDensity => exact answered_of_readField hp h
  | fbCount | fbCapacity | fbMaxfill | fbOverflow | ppReady | decPending | tileReady | scEncode f | scDecode v =>
    exact ⟨_, returningValue_next.mp (inContext_next_of_permits hp h)⟩
  | _ => cases hq

/-- A query reads no earlier answer and overwrites it, so it does the same after another one. -/
theorem exec_query_of_answered {i : Instr} (hq : isQuery i = true) (r : Result) (s : State) :
    exec i (answered r s) = exec i s := by
  cases i with
  | fbPeek off | prSheets | prMarginPre | prMarginPost | prPalette | prDensity | fbCount | fbCapacity | fbMaxfill | fbOverflow
  | ppReady | decPending | tileReady | scEncode f | scDecode v => rfl
  | _ => cases hq

/-- Settles O59: a query only answers, and its answer is nothing a query reads. -/
theorem queriesAreIdempotent : Obligations.QueriesAreIdempotent := by
  intro i s t hq hmay h
  rw [mayIssue_eq_permits] at hmay
  obtain ⟨r, rfl⟩ := exec_query_answered hq hmay h
  exact ⟨rfl, (exec_query_of_answered hq r s).trans h⟩

/-! ### No condition is fatal (R68, R320) -/

theorem inContext_total {g : Tag} {s : State} {k : Step} (hk : ∃ t, k = .next t) : ∃ t, inContext g s k = .next t := by
  unfold inContext
  split
  · exact hk
  · exact ⟨_, rfl⟩

theorem tail_lt_of_inv {s : State} (hs : Inv s) : s.fb.tail.toNat < s.cfg.fbCap.toNat := by
  obtain ⟨-, hfb, -, -⟩ := hs
  exact tail_lt hfb

theorem stored_le_of_inv {s : State} (hs : Inv s) : s.pkt.stored.toNat ≤ s.cfg.payloadCap.toNat := by
  obtain ⟨-, -, ⟨-, hstored, -⟩, -⟩ := hs
  omega

theorem pushByte_stored_or_dropped {cap b : Byte} {f : FrameBuffer} (ht : f.tail.toNat < cap.toNat) :
    pushByte cap b f = .stored (bufferAfterPush cap b f) ∨ pushByte cap b f = .dropped { f with overflow := true } := by
  by_cases hc : f.count = cap
  · exact .inr (pushByte_of_full cap b f hc)
  · exact .inl (pushByte_of_lt cap b f ht hc)

theorem ringIndex_lt {cap : Byte} (head : Byte) (off : Nat) (h : 0 < cap.toNat) : ringIndex cap head off < cap.toNat :=
  Nat.mod_lt _ h

/-- A field is read only within the stored payload (R302). -/
theorem printField_of_stored_le {s : State} (f : PrintField) (h : s.pkt.stored.toNat ≤ s.cfg.payloadCap.toNat) :
    ∃ v, printField f s = some v := by
  unfold printField
  split
  · rw [spaceRead_of_lt _ (by omega)]
    exact ⟨_, rfl⟩
  · exact ⟨_, rfl⟩

section Total
variable {s : State}

theorem execTmTick_total (ms : BitVec 24) : ∃ t, execTmTick ms s = .next t := by
  refine inContext_total ?_
  split
  · exact ⟨_, rfl⟩
  · dsimp only
    split
    · exact ⟨_, rfl⟩
    · exact ⟨_, rfl⟩

theorem execTileTake_total : ∃ t, execTileTake s = .next t := by
  refine inContext_total ?_
  split
  · exact ⟨_, rfl⟩
  · exact ⟨_, rfl⟩

theorem consumeCommand_total (k : Command) (b : Byte) : ∃ t, consumeCommand k b s = .next t := by
  refine inContext_total ?_
  split
  · exact ⟨_, rfl⟩
  · exact processByte_total b s

variable (hs : Inv s)
include hs

theorem execEdge_total (c d : Bool) : ∃ t, execEdge c d s = .next t := by
  refine inContext_total ?_
  split
  · exact ⟨_, rfl⟩
  · dsimp only
    split
    · rcases pushByte_stored_or_dropped (tail_lt_of_inv hs) with hp | hp
      · rw [hp]
        exact ⟨_, rfl⟩
      · rw [hp]
        exact ⟨_, rfl⟩
    · exact ⟨_, rfl⟩

theorem execFbPush_total (b : Byte) : ∃ t, execFbPush b s = .next t := by
  refine inContext_total ?_
  rcases pushByte_stored_or_dropped (tail_lt_of_inv hs) with hp | hp
  · rw [hp]
    exact ⟨_, rfl⟩
  · rw [hp]
    exact ⟨_, rfl⟩

theorem execFbPop_total : ∃ t, execFbPop s = .next t := by
  obtain ⟨-, hfb, -, -⟩ := hs
  refine inContext_total ?_
  split
  · exact ⟨_, rfl⟩
  · rw [spaceRead_of_lt _ (head_lt hfb)]
    exact ⟨_, rfl⟩

theorem execFbPeek_total (off : Half) : ∃ t, execFbPeek off s = .next t := by
  obtain ⟨-, hfb, -, -⟩ := hs
  refine inContext_total ?_
  split
  · exact ⟨_, rfl⟩
  · have hindex := ringIndex_lt s.fb.head off.toNat (Nat.zero_lt_of_lt (head_lt hfb))
    rw [spaceRead_of_lt _ hindex]
    exact ⟨_, rfl⟩

theorem execPpTake_total : ∃ t, execPpTake s = .next t := by
  refine inContext_total ?_
  split
  · exact ⟨_, rfl⟩
  · rw [payloadView, spaceRun_of_le _ (stored_le_of_inv hs)]
    exact ⟨_, rfl⟩

theorem feed_total_of_inv : ∃ t, feed s = .next t := by
  have hstored := stored_le_of_inv hs
  obtain ⟨-, -, -, hpos, hcursor, -, -⟩ := hs
  exact feed_total hpos hcursor hstored

theorem readField_total (f : PrintField) : ∃ t, readField f s = .next t := by
  obtain ⟨v, hv⟩ := printField_of_stored_le f (stored_le_of_inv hs)
  refine inContext_total ?_
  rw [hv]
  exact ⟨_, rfl⟩

/-- At a control byte there is a tile to fill and the byte itself is stored. -/
theorem consumeControl_total (p : RleDecode) (r : Run) : ∃ t, consumeControl p r s = .next t := by
  refine inContext_total ?_
  split
  · rename_i hat
    have hstored := stored_le_of_inv hs
    obtain ⟨-, -, -, hdec⟩ := hs
    simp only [atControlByte, inputLeft, Bool.and_eq_true, Bool.not_eq_true', decide_eq_true_eq] at hat
    obtain ⟨⟨⟨⟨⟨hnotFull, -⟩, -⟩, -⟩, hleft⟩, -⟩ := hat
    obtain ⟨hpos, hcursor, -, -⟩ := inPos_advances hdec hleft
    exact beginRun_total (cursor_lt_of_not_tileFull hcursor (by simp [hnotFull])) hpos hstored
  · exact feed_total_of_inv hs

/-- From the invariant every operation answers a next state. -/
theorem exec_total (i : Instr) : ∃ t, exec i s = .next t := by
  cases i with
  | edge c d => exact execEdge_total hs c d
  | fbPush b => exact execFbPush_total hs b
  | fbPop => exact execFbPop_total hs
  | fbPeek off => exact execFbPeek_total hs off
  | tmTick ms => exact execTmTick_total ms
  | ppProcess b => exact inContext_total (processByte_total b s)
  | ppTake => exact execPpTake_total hs
  | decFeed => exact inContext_total (feed_total_of_inv hs)
  | tileTake => exact execTileTake_total
  | prSheets | prMarginPre | prMarginPost | prPalette | prDensity => exact readField_total hs _
  | rleDocLiteral ignored n | rleDocRepeat ignored n | rleGbLiteral n | rleGbRepeat n => exact consumeControl_total hs _ _
  | cmdInit | cmdPrint | cmdData | cmdBreak | cmdInquiry | cmdUnknown raw => exact consumeCommand_total _ _
  | fbCount | fbCapacity | fbMaxfill | fbOverflow | fbClearOvf | ppReady | decPending | tileReady | scEncode f | scDecode v
  | hsWrite v | reset => exact inContext_total ⟨_, rfl⟩

end Total

/-- Settles O12: the fetch and the refusal of an illegal word always answer, and an operation does from the invariant, which reads
neither the stream nor the context. -/
theorem noConditionIsFatal : Obligations.NoConditionIsFatal := by
  intro s hs
  unfold step
  cases ho : s.ops with
  | nil =>
    simp only [fetchIssue, ho]
    exact ⟨_, rfl⟩
  | cons e rest =>
    simp only [fetchIssue, ho]
    split
    · exact exec_total (s := { s with ops := rest, ctx := e.ctx }) hs _
    · exact ⟨_, rfl⟩

/-! ### The edges of one byte (R65, R117) -/

/-- The FrameBuffer once `b` has been pushed: stored, or dropped with the flag set (R150). -/
def pushedBuffer (cap b : Byte) (f : FrameBuffer) : FrameBuffer :=
  if f.count = cap then { f with overflow := true } else bufferAfterPush cap b f

/-- From a tail within the storage the eighth counted edge completes its byte, whether stored or dropped. -/
theorem exec_edge_pushes {c d : Bool} {s : State} (hctx : s.ctx = .int) (hc : counted s.cfg.edgeMode c = true)
    (hi : s.rx.bitIndex = 7) (ht : s.fb.tail.toNat < s.cfg.fbCap.toNat) :
    ∃ r e, exec (.edge c d) s = raising e r
      { s with rx := rxNextByte (sampledRegs s.cfg d s.rx)
               fb := pushedBuffer s.cfg.fbCap (bitIn s.cfg.bitOrder d s.rx.acc) s.fb } := by
  rw [exec_edge_of_last hctx hc hi, sampledRegs_acc, pushedBuffer]
  by_cases hfull : s.fb.count = s.cfg.fbCap
  · rw [pushByte_of_full _ _ _ hfull, if_pos hfull]
    exact ⟨_, _, rfl⟩
  · rw [pushByte_of_lt _ _ _ ht hfull, if_neg hfull]
    exact ⟨_, _, rfl⟩

/-- `edges` clock the bits in, one at each counted edge, and end with the last bit (R130). -/
inductive Clocks (m : EdgeMode) : List Instr → List Bool → Prop where
  | done : Clocks m [] []
  | sample {c d : Bool} {edges : List Instr} {bits : List Bool} (hc : counted m c = true) (h : Clocks m edges bits) :
      Clocks m (.edge c d :: edges) (d :: bits)
  | hold {c x d : Bool} {edges : List Instr} {bits : List Bool} (hc : counted m c = false) (h : Clocks m edges (d :: bits)) :
      Clocks m (.edge c x :: edges) (d :: bits)

theorem clocks_alternating (level : Bool) (bits : List Bool) : Clocks .allEdges (alternating level bits) bits := by
  induction bits generalizing level with
  | nil => exact .done
  | cons d rest ih => exact .sample rfl (ih (!level))

theorem clocks_rising (bits : List Bool) :
    Clocks .risingOnly (bits.flatMap fun x => [.edge false x, .edge true x]) bits := by
  induction bits with
  | nil => exact .done
  | cons d rest ih => exact .hold rfl (.sample rfl ih)

theorem clocks_rxByte (p : Params) (b : Byte) : Clocks p.edgeMode (rxByte p b) (lineBits p.bitOrder b) := by
  unfold rxByte
  cases p.edgeMode with
  | allEdges => exact clocks_alternating false _
  | risingOnly => exact clocks_rising _

/-- The accumulator once `bits` have been sampled. -/
def bitsIn (o : BitOrder) (bits : List Bool) (acc : Byte) : Byte := bits.foldl (fun a d => bitIn o d a) acc

/-- Eight bits fill the accumulator, whatever it held, and `BIT_ORDER` cancels out (R65). -/
theorem bitsIn_lineBits (o : BitOrder) (b acc : Byte) : bitsIn o (lineBits o b) acc = b := by
  apply BitVec.eq_of_getLsbD_eq
  intro k hk
  cases o with
  | msbFirst => interval_cases k <;> simp [bitsIn, lineBits, bitIn]
  | lsbFirst => interval_cases k <;> simp [bitsIn, lineBits, bitIn]

/-- The bits that complete a byte push it and leave the receiver at a byte boundary. -/
theorem runFrom_of_clocks {m : EdgeMode} {edges : List Instr} {bits : List Bool} (h : Clocks m edges bits) (s : State)
    (hm : s.cfg.edgeMode = m) (ht : s.fb.tail.toNat < s.cfg.fbCap.toNat) (hn : s.rx.bitIndex.toNat + bits.length = 8) :
    ∃ t, runFrom .int edges s = .next t ∧ t.rx.bitIndex = 0 ∧ t.rx.acc = 0x00 ∧
      t.fb = pushedBuffer s.cfg.fbCap (bitsIn s.cfg.bitOrder bits s.rx.acc) s.fb := by
  induction h generalizing s with
  | done =>
    have := s.rx.bitIndex.isLt
    simp only [List.length_nil] at hn
    omega
  | @hold c x d edges bits hc _ ih =>
    have he := exec_edge_of_uncounted (d := x) (s := { s with ctx := .int }) rfl (by rw [← hm] at hc; exact hc)
    rw [runFrom_cons_of_next he]
    exact ih _ hm ht hn
  | @sample c d edges bits hc hrest ih =>
    rw [← hm] at hc
    rw [List.length_cons] at hn
    by_cases hi : s.rx.bitIndex = 7
    · obtain ⟨r, e, he⟩ := exec_edge_pushes (d := d) (s := { s with ctx := .int }) rfl hc hi ht
      have hnil : bits = [] := by
        have h7 : s.rx.bitIndex.toNat = 7 := congrArg BitVec.toNat hi
        exact List.eq_nil_of_length_eq_zero (by omega)
      subst hnil
      cases hrest
      rw [runFrom_cons_of_next he, runFrom_nil]
      exact ⟨_, rfl, rfl, rfl, rfl⟩
    · have he := exec_edge_of_early (d := d) (s := { s with ctx := .int }) rfl hc hi
      have hnext : (s.rx.bitIndex + 1).toNat = s.rx.bitIndex.toNat + 1 := by bv_omega
      rw [runFrom_cons_of_next he]
      obtain ⟨t, hrun, hindex, hacc, hfb⟩ := ih
        { s with ctx := .int, rx := { sampledRegs s.cfg d s.rx with bitIndex := s.rx.bitIndex + 1 },
                 reply := .returned (.value (.bit (sampledRegs s.cfg d s.rx).response)), event := none }
        hm ht (by simp only [hnext]; omega)
      rw [sampledRegs_acc] at hfb
      exact ⟨t, hrun, hindex, hacc, hfb⟩

/-- Settles O18: the expansion clocks in the bits of the byte in line order, which make up the byte again, and the eighth pushes it. -/
theorem edgesOfAByteDeliverTheByte : Obligations.EdgesOfAByteDeliverTheByte := by
  intro s b hs hi
  have ht := tail_lt_of_inv hs
  obtain ⟨-, hfb, -, -⟩ := hs
  have hlen : s.rx.bitIndex.toNat + (lineBits s.cfg.bitOrder b).length = 8 := by
    rw [hi]
    cases s.cfg.bitOrder <;> rfl
  obtain ⟨t, hrun, hindex, hacc, hpushed⟩ := runFrom_of_clocks (clocks_rxByte s.cfg b) s rfl ht hlen
  rw [bitsIn_lineBits] at hpushed
  refine ⟨t, hrun, hindex, hacc, fun hroom => ?_, fun hfull => ?_⟩
  · rw [hpushed, pushedBuffer, if_neg hroom]
    exact ⟨fbContents_push hfb hroom, rfl⟩
  · rw [hpushed, pushedBuffer, if_pos hfull]

/-! ### The end of a frame (42_packet_parser.md rule R190) -/

theorem exec_ppProcess_of_main {b : Byte} {s : State} (hctx : s.ctx = .main) : exec (.ppProcess b) s = processByte b s :=
  inContext_main hctx

/-- Settles O32: in each state the byte enters as the rule writes it, with the two bytes of `pp_chk` joined by masks. -/
theorem checksumAndKeepaliveCompleteThePacket : Obligations.ChecksumAndKeepaliveCompleteThePacket := by
  intro s b hctx
  rw [exec_ppProcess_of_main hctx]
  refine ⟨fun hs => ?_, fun hs => ?_, fun hs => ?_⟩
  · simp only [processByte, hs, parseChecksumLow, joinBytes_highByte]
    rfl
  · simp only [processByte, hs, parseChecksumHigh, joinBytes_lowByte, statusAtChecksum, beq_iff_eq]
    rfl
  · simp only [processByte, hs, parseKeepalive, statusAtKeepalive, hostStatusMask]
    rfl

end Sys2Proof.Machine

/-! SUPPORT. The encoding (30_encoding.md): what each format's words say of their fields (rule R111), how a word is read (rules R112 and
R113), the two round trips, and the illegal words. -/

namespace Sys2Proof

/-! ### The fields of a word (R111) -/

theorem extractLsb'_eq_zero_iff {w : OpWord} {lo len : Nat} :
    w.extractLsb' lo len = 0 ↔ ∀ k, lo ≤ k → k < lo + len → w.getLsbD k = false := by
  constructor
  · intro h k hlo hhi
    have hbit := congrArg (fun v => v.getLsbD (k - lo)) h
    simpa [BitVec.getLsbD_extractLsb', show k - lo < len by omega, show lo + (k - lo) = k by omega] using hbit
  · intro h
    apply BitVec.eq_of_getLsbD_eq
    intro k hk
    simp [hk, h (lo + k) (by omega) (by omega)]

theorem getLsbD_opcodeOf (w : OpWord) (k : Nat) : (opcodeOf w).getLsbD k = (decide (k < 8) && w.getLsbD (24 + k)) :=
  BitVec.getLsbD_extractLsb' ..

/-- A word is its opcode and, below it, the 24 bits that say the rest. -/
theorem eq_of_opcodeOf_eq {w v : OpWord} (hop : opcodeOf w = opcodeOf v) (hlow : ∀ k, k < 24 → w.getLsbD k = v.getLsbD k) :
    w = v := by
  apply BitVec.eq_of_getLsbD_eq
  intro k hk
  by_cases h : k < 24
  · exact hlow k h
  · have hbit := congrArg (fun x => x.getLsbD (k - 24)) hop
    simpa only [getLsbD_opcodeOf, show k - 24 < 8 by omega, show 24 + (k - 24) = k by omega, decide_true, Bool.true_and] using hbit

/-! ### A word read in a format is the word the format encodes (R111) -/

theorem encodeN_opcodeOf {w : OpWord} (h : w.extractLsb' 0 24 = 0) : encodeN (opcodeOf w) = w := by
  rw [extractLsb'_eq_zero_iff] at h
  refine eq_of_opcodeOf_eq (opcodeOf_encodeN _) fun k hk => ?_
  simp [encodeN, hk, h k]

theorem encodeB_imm8Of {w : OpWord} (h : w.extractLsb' 8 16 = 0) : encodeB (opcodeOf w) (imm8Of w) = w := by
  rw [extractLsb'_eq_zero_iff] at h
  refine eq_of_opcodeOf_eq (opcodeOf_encodeB _ _) fun k hk => ?_
  by_cases h8 : k < 8
  · simp [encodeB, imm8Of, hk, h8, show k < 32 by omega]
  · simp [encodeB, imm8Of, BitVec.getLsbD_extractLsb', hk, h8, h k (by omega) (by omega)]

theorem encodeE_bits {w : OpWord} (h : w.extractLsb' 2 22 = 0) : encodeE (opcodeOf w) (w.getLsbD 1) (w.getLsbD 0) = w := by
  rw [extractLsb'_eq_zero_iff] at h
  refine eq_of_opcodeOf_eq (opcodeOf_encodeE _ _ _) fun k hk => ?_
  match k with
  | 0 => simp [encodeE]
  | 1 => simp [encodeE]
  | k + 2 => simp [encodeE, hk, h (k + 2) (by omega) (by omega)]

theorem encodeO_off16Of {w : OpWord} (h : w.extractLsb' 16 8 = 0) : encodeO (opcodeOf w) (off16Of w) = w := by
  rw [extractLsb'_eq_zero_iff] at h
  refine eq_of_opcodeOf_eq (opcodeOf_encodeO _ _) fun k hk => ?_
  by_cases h16 : k < 16
  · simp [encodeO, off16Of, hk, h16, show k < 32 by omega]
  · simp [encodeO, off16Of, BitVec.getLsbD_extractLsb', hk, h16, h k (by omega) (by omega)]

theorem encodeT_ms24Of (w : OpWord) : encodeT (opcodeOf w) (ms24Of w) = w := by
  refine eq_of_opcodeOf_eq (opcodeOf_encodeT _ _) fun k hk => ?_
  simp [encodeT, ms24Of, hk, show k < 32 by omega]

/-! ### The operations with an operand, by their opcode (R112) -/

theorem decodeOp_of_edge {w : OpWord} (h : opcodeOf w = 0x01#8) : decodeOp w = decodeE w .edge := by
  simp only [decodeOp, h]

theorem decodeOp_of_fbPush {w : OpWord} (h : opcodeOf w = 0x02#8) : decodeOp w = decodeB w .fbPush := by
  simp only [decodeOp, h]

theorem decodeOp_of_fbPeek {w : OpWord} (h : opcodeOf w = 0x11#8) : decodeOp w = decodeO w .fbPeek := by
  simp only [decodeOp, h]

theorem decodeOp_of_tmTick {w : OpWord} (h : opcodeOf w = 0x20#8) : decodeOp w = decodeT w .tmTick := by
  simp only [decodeOp, h]

theorem decodeOp_of_ppProcess {w : OpWord} (h : opcodeOf w = 0x30#8) : decodeOp w = decodeB w .ppProcess := by
  simp only [decodeOp, h]

theorem decodeOp_of_scEncode {w : OpWord} (h : opcodeOf w = 0x50#8) :
    decodeOp w = decodeB w (fun v => .scEncode (statusUnpack v)) := by
  simp only [decodeOp, h]

theorem decodeOp_of_scDecode {w : OpWord} (h : opcodeOf w = 0x51#8) : decodeOp w = decodeB w .scDecode := by
  simp only [decodeOp, h]

theorem decodeOp_of_hsWrite {w : OpWord} (h : opcodeOf w = 0x52#8) : decodeOp w = decodeB w .hsWrite := by
  simp only [decodeOp, h]

/-! ### Decoding an encoded instruction -/

/-- A command byte that is no row's code is UNKNOWN (R94). -/
theorem decodeCmd_of_unknown {raw : Byte} (h : (Instr.cmdUnknown raw).wf = true) : decodeCmd cmdDoc raw = .cmdUnknown raw := by
  simp only [Instr.wf, tableCommandBytes, List.contains_eq_mem, List.mem_cons, List.not_mem_nil, or_false, Bool.not_eq_true',
    decide_eq_false_iff_not, not_or] at h
  obtain ⟨hinit, hprint, hdata, hbrk, hinquiry⟩ := h
  simp only [decodeCmd, cmdDoc, hinit, hprint, hdata, hbrk, hinquiry, if_false]

/-- Settles O1: the opcode of an encoded word chooses the operation, and each format gives its operand back; the rows with no operand are
single units. -/
theorem decodeOfEncode : Obligations.DecodeOfEncode := by
  intro i hwf
  cases i with
  | edge c d => exact (decodeOp_of_edge (opcodeOf_encodeE _ c d)).trans (decodeE_encodeE _ c d _)
  | fbPush b => exact (decodeOp_of_fbPush (opcodeOf_encodeB _ b)).trans (decodeB_encodeB _ b _)
  | fbPeek off => exact (decodeOp_of_fbPeek (opcodeOf_encodeO _ off)).trans (decodeO_encodeO _ off _)
  | tmTick ms => exact (decodeOp_of_tmTick (opcodeOf_encodeT _ ms)).trans (decodeT_encodeT _ ms _)
  | ppProcess b => exact (decodeOp_of_ppProcess (opcodeOf_encodeB _ b)).trans (decodeB_encodeB _ b _)
  | scEncode f =>
    have h := (decodeOp_of_scEncode (opcodeOf_encodeB _ (statusPack f))).trans (decodeB_encodeB _ _ _)
    rwa [statusUnpack_statusPack] at h
  | scDecode v => exact (decodeOp_of_scDecode (opcodeOf_encodeB _ v)).trans (decodeB_encodeB _ v _)
  | hsWrite v => exact (decodeOp_of_hsWrite (opcodeOf_encodeB _ v)).trans (decodeB_encodeB _ v _)
  | rleDocLiteral x n => exact congrArg Decoded.instr (decodeRleDoc_encodeRleDoc false x n)
  | rleDocRepeat x n => exact congrArg Decoded.instr (decodeRleDoc_encodeRleDoc true x n)
  | rleGbLiteral n => exact congrArg Decoded.instr (decodeRleGb_encodeRleGb false n)
  | rleGbRepeat n => exact congrArg Decoded.instr (decodeRleGb_encodeRleGb true n)
  | cmdUnknown raw => exact congrArg Decoded.instr (decodeCmd_of_unknown hwf)
  | fbPop | fbCount | fbCapacity | fbMaxfill | fbOverflow | fbClearOvf | ppReady | ppTake | decFeed | decPending | tileReady
  | tileTake | prSheets | prMarginPre | prMarginPost | prPalette | prDensity | reset | cmdInit | cmdPrint | cmdData | cmdBreak
  | cmdInquiry => rfl

/-! ### How a word is read (R112, R113) -/

open Machine (opcodesN opcodesB illegalWord)

/-- The one reading `decodeOp` has for a word: a format, by the opcode, and the operation whose words the encoder writes in that format;
or none. -/
inductive Reading (w : OpWord) : Prop where
  | plain (i : Instr) (hop : opcodeOf w ∈ opcodesN) (hd : decodeOp w = decodeN w i)
      (he : encode i = .opWord (encodeN (opcodeOf w)))
  | byte (f : Byte → Instr) (hop : opcodeOf w ∈ opcodesB) (hd : decodeOp w = decodeB w f)
      (he : ∀ b, encode (f b) = .opWord (encodeB (opcodeOf w) b))
  | edge (hop : opcodeOf w = 0x01#8) (hd : decodeOp w = decodeE w .edge)
  | offset (hop : opcodeOf w = 0x11#8) (hd : decodeOp w = decodeO w .fbPeek)
  | time (hop : opcodeOf w = 0x20#8) (hd : decodeOp w = decodeT w .tmTick)
  | unassigned (hn : opcodeOf w ∉ opcodesN) (hb : opcodeOf w ∉ opcodesB) (he : opcodeOf w ≠ 0x01#8) (ho : opcodeOf w ≠ 0x11#8)
      (ht : opcodeOf w ≠ 0x20#8) (hd : decodeOp w = .rejected .unassignedOpcode)

theorem reading_of_mem_opcodesN {w : OpWord} (hop : opcodeOf w ∈ opcodesN) : Reading w := by
  have h := hop
  simp only [opcodesN, List.mem_cons, List.not_mem_nil, or_false] at h
  rcases h with h | h | h | h | h | h | h | h | h | h | h | h | h | h | h | h | h | h <;>
    exact .plain _ hop (by simp only [decodeOp, h]; rfl) (by rw [h]; rfl)

theorem reading_of_mem_opcodesB {w : OpWord} (hop : opcodeOf w ∈ opcodesB) : Reading w := by
  have h := hop
  simp only [opcodesB, List.mem_cons, List.not_mem_nil, or_false] at h
  rcases h with h | h | h | h | h
  · exact .byte _ hop (decodeOp_of_fbPush h) fun b => by rw [h]; rfl
  · exact .byte _ hop (decodeOp_of_ppProcess h) fun b => by rw [h]; rfl
  · exact .byte _ hop (decodeOp_of_scEncode h) fun b => by rw [h, encode, statusPack_statusUnpack]
  · exact .byte _ hop (decodeOp_of_scDecode h) fun b => by rw [h]; rfl
  · exact .byte _ hop (decodeOp_of_hsWrite h) fun b => by rw [h]; rfl

theorem reading (w : OpWord) : Reading w := by
  by_cases hn : opcodeOf w ∈ opcodesN
  · exact reading_of_mem_opcodesN hn
  by_cases hb : opcodeOf w ∈ opcodesB
  · exact reading_of_mem_opcodesB hb
  by_cases he : opcodeOf w = 0x01#8
  · exact .edge he (decodeOp_of_edge he)
  by_cases ho : opcodeOf w = 0x11#8
  · exact .offset ho (decodeOp_of_fbPeek ho)
  by_cases ht : opcodeOf w = 0x20#8
  · exact .time ht (decodeOp_of_tmTick ht)
  refine .unassigned hn hb he ho ht ?_
  unfold decodeOp
  -- Every arm but the last is for an opcode the five conditions exclude.
  split <;> simp_all [opcodesN, opcodesB]

/-- A reserved field that is not 0 rejects the word, and nothing else does. -/
theorem ifReservedZero_eq_instr {z : Bool} {i j : Instr} : ifReservedZero z i = .instr j ↔ z = true ∧ i = j := by
  cases z <;> simp [ifReservedZero]

/-! ### Encoding a decoded instruction -/

theorem wf_of_encode_opWord {i : Instr} {w : OpWord} (h : encode i = .opWord w) : i.wf = true := by
  cases i with
  | cmdUnknown raw => cases h
  | _ => rfl

/-- A word is the one the encoder gives for the operation it spells. -/
theorem encode_of_decodeOp {w : OpWord} {i : Instr} (h : decodeOp w = .instr i) : encode i = .opWord w := by
  cases reading w with
  | plain j _ hd he =>
    rw [hd, decodeN, ifReservedZero_eq_instr, beq_iff_eq] at h
    obtain ⟨hzero, rfl⟩ := h
    rw [he, encodeN_opcodeOf hzero]
  | byte f _ hd he =>
    rw [hd, decodeB, ifReservedZero_eq_instr, beq_iff_eq] at h
    obtain ⟨hzero, rfl⟩ := h
    rw [he, encodeB_imm8Of hzero]
  | edge hop hd =>
    rw [hd, decodeE, ifReservedZero_eq_instr, beq_iff_eq] at h
    obtain ⟨hzero, rfl⟩ := h
    have hw := encodeE_bits hzero
    rw [hop] at hw
    exact congrArg CodeUnit.opWord hw
  | offset hop hd =>
    rw [hd, decodeO, ifReservedZero_eq_instr, beq_iff_eq] at h
    obtain ⟨hzero, rfl⟩ := h
    have hw := encodeO_off16Of hzero
    rw [hop] at hw
    exact congrArg CodeUnit.opWord hw
  | time hop hd =>
    rw [hd, decodeT] at h
    injection h with h
    subst h
    have hw := encodeT_ms24Of w
    rw [hop] at hw
    exact congrArg CodeUnit.opWord hw
  | unassigned _ _ _ _ _ hd =>
    rw [hd] at h
    cases h

theorem encode_decodeRleDoc : ∀ c : Byte, encode (decodeRleDoc c) = .rleDocByte c ∧ (decodeRleDoc c).wf = true := by decide

theorem encode_decodeRleGb : ∀ c : Byte, encode (decodeRleGb c) = .rleGbByte c ∧ (decodeRleGb c).wf = true := by decide

theorem encode_decodeCmd : ∀ b : Byte, encode (decodeCmd cmdDoc b) = .cmdByte b ∧ (decodeCmd cmdDoc b).wf = true := by decide

/-- Settles O2: by the reading of a word, and over the 256 bytes of each wire space. -/
theorem encodeOfDecode : Obligations.EncodeOfDecode := by
  intro u i h
  cases u with
  | opWord w =>
    have he := encode_of_decodeOp h
    exact ⟨he, wf_of_encode_opWord he⟩
  | rleDocByte c =>
    cases h
    exact encode_decodeRleDoc c
  | rleGbByte c =>
    cases h
    exact encode_decodeRleGb c
  | cmdByte b =>
    cases h
    exact encode_decodeCmd b

/-! ### The illegal words (R113, R326) -/

/-- A mask that picks the bits of a field is 0 on the words whose field is 0. -/
theorem and_mask_eq_zero_iff {w mask : OpWord} {lo len : Nat}
    (hm : ∀ k, k < 32 → mask.getLsbD k = (decide (lo ≤ k) && decide (k < lo + len))) :
    w &&& mask = 0#32 ↔ w.extractLsb' lo len = 0 := by
  rw [extractLsb'_eq_zero_iff]
  constructor
  · intro h k hlo hhi
    by_cases hk : k < 32
    · have hbit := congrArg (fun v => v.getLsbD k) h
      simpa [BitVec.getLsbD_and, hm k hk, hlo, hhi] using hbit
    · exact BitVec.getLsbD_of_ge w k (by omega)
  · intro h
    apply BitVec.eq_of_getLsbD_eq
    intro k hk
    rw [BitVec.getLsbD_and, hm k hk]
    by_cases hlo : lo ≤ k
    · by_cases hhi : k < lo + len
      · simp [h k hlo hhi]
      · simp [hhi]
    · simp [hlo]

theorem opcodeOf_eq_shift (w : OpWord) : (w >>> 24).setWidth 8 = opcodeOf w := by
  apply BitVec.eq_of_getLsbD_eq
  intro k hk
  rw [getLsbD_opcodeOf]
  simp [hk]

/-- Exactly the words with an unassigned opcode or a reserved bit set spell no operation. -/
theorem illegalWord_iff (w : OpWord) : illegalWord w = true ↔ ∀ i, decodeOp w ≠ .instr i := by
  unfold illegalWord
  simp only [opcodeOf_eq_shift]
  cases reading w with
  | plain j hop hd _ =>
    have hm : w &&& 0x00FFFFFF#32 = 0#32 ↔ w.extractLsb' 0 24 = 0 := and_mask_eq_zero_iff (by decide)
    simp [hop, hd, decodeN, ifReservedZero_eq_instr, hm]
  | byte f hop hd _ =>
    have hm : w &&& 0x00FFFF00#32 = 0#32 ↔ w.extractLsb' 8 16 = 0 := and_mask_eq_zero_iff (by decide)
    have hn : ∀ op ∈ opcodesB, op ∉ opcodesN := by decide
    simp [hop, hn _ hop, hd, decodeB, ifReservedZero_eq_instr, hm]
  | edge hop hd =>
    have hm : w &&& 0x00FFFFFC#32 = 0#32 ↔ w.extractLsb' 2 22 = 0 := and_mask_eq_zero_iff (by decide)
    simp [hop, opcodesN, opcodesB, hd, decodeE, ifReservedZero_eq_instr, hm]
  | offset hop hd =>
    have hm : w &&& 0x00FF0000#32 = 0#32 ↔ w.extractLsb' 16 8 = 0 := and_mask_eq_zero_iff (by decide)
    simp [hop, opcodesN, opcodesB, hd, decodeO, ifReservedZero_eq_instr, hm]
  | time hop hd => simp [hop, opcodesN, opcodesB, hd, decodeT]
  | unassigned hn hb he ho ht hd => simp [hn, hb, he, ho, ht, hd]

/-- Settles O4: by the reading of a word; a word that spells nothing is decoded to a rejection, which the step refuses. -/
theorem illegalWordsAreRefused : Obligations.IllegalWordsAreRefused := by
  refine ⟨illegalWord_iff, fun s e rest ho hillegal => ?_⟩
  rw [illegalWord_iff] at hillegal
  cases hd : decodeOp e.word with
  | instr i => exact absurd hd (hillegal i)
  | rejected r =>
    simp only [Machine.step, Machine.fetchIssue, ho, hd]
    rfl

/-! ### Words and bytes of the spec -/

/-- Settles O3, by evaluation of the decoder on the thirteen words. -/
theorem wordsOfTheSpecDecode : Obligations.WordsOfTheSpecDecode := by
  unfold Obligations.WordsOfTheSpecDecode
  decide

/-- Settles O42, over the 256 control bytes. -/
theorem controlByteProfiles : Obligations.ControlByteProfiles := by
  unfold Obligations.ControlByteProfiles
  decide

end Sys2Proof

/-! SUPPORT. The wire bytes (30_encoding.md): the header of a frame (rules R91 to R96), the command rows (R94), the control rows (R100,
R102), and a whole frame received (R91, R118). -/

namespace Sys2Proof.Machine

/-! ### The header bytes (42_packet_parser.md rule R190) -/

/-- AWAIT_SYNC_0, with the sync byte as R190 writes it. -/
theorem parseSync0_eq (b : Byte) (s : State) : parseSync0 b s = notReadyYet (if b = 0x88 then goTo .awaitSync1 s else s) := rfl

/-- AWAIT_SYNC_1, with the sync bytes as R190 writes them. -/
theorem parseSync1_eq (b : Byte) (s : State) : parseSync1 b s =
    if b = 0x33 then notReadyYet (goTo .command (frameStart s))
    else raising (some .framingDesync) (.value (.bit false)) (goTo (if b = 0x88 then .awaitSync1 else .awaitSync0) s) := by
  unfold parseSync1 sync0 sync1
  split
  · rfl
  · split
    · rfl
    · rfl

/-- Settles O29: SYNC0 or another byte, then SYNC1, SYNC0 or another byte. -/
theorem syncSearchAndFrameStart : Obligations.SyncSearchAndFrameStart := by
  intro s b hctx
  rw [exec_ppProcess_of_main hctx]
  refine ⟨fun hs => ?_, fun hs hb => ?_, fun hs hb => ?_⟩
  · simp only [processByte, hs, parseSync0_eq]
    by_cases h0 : b = 0x88
    · rw [if_pos h0, if_pos h0]
      rfl
    · rw [if_neg h0, if_neg h0, ← hs]
      rfl
  · simp only [processByte, hs, parseSync1_eq, if_neg hb]
    rfl
  · simp only [processByte, hs, parseSync1_eq, if_pos hb]
    rfl

/-- Bit 0 of a byte, arithmetically (R95). -/
theorem getLsbD_zero_eq_odd (b : Byte) : b.getLsbD 0 = decide (b.toNat % 2 = 1) := by
  simp [BitVec.getLsbD, Nat.testBit_zero]

theorem statusAtLength_eq (v : Byte) (cap length : Half) :
    statusAtLength v (decide (cap.toNat < length.toNat)) = v ||| lengthBit cap length := by
  by_cases h : cap.toNat < length.toNat
  · simp [statusAtLength, lengthBit, packetErrorBit, h]
  · simp [statusAtLength, lengthBit, h]

/-- Settles O30: in each state the byte enters as the rule writes it, with the two bytes of `pkt_length` joined by masks. -/
theorem headerBytesEnterTheirFields : Obligations.HeaderBytesEnterTheirFields := by
  intro s b hctx
  rw [exec_ppProcess_of_main hctx]
  refine ⟨fun hs => ?_, fun hs => ?_, fun hs => ?_, fun hs => ?_⟩
  · simp only [processByte, hs]
    rfl
  · simp only [processByte, hs, parseCompression, getLsbD_zero_eq_odd]
    rfl
  · simp only [processByte, hs, parseLengthLow, joinBytes_highByte]
    rfl
  · simp only [processByte, hs, parseLengthHigh, joinBytes_lowByte, statusAtLength_eq, decide_eq_true_eq]
    rfl

/-! ### The command rows (R94, log entry 9) -/

theorem processByte_of_command {b : Byte} {s : State} (hs : s.pp.state = .command) :
    processByte b s = takeCommand (cmdDecode s.cfg.cmdCode b) b s := by
  simp only [processByte, hs]

/-- PP_PROCESS of a byte consumes the command its codes give it. -/
theorem execPpProcess_eq_consumeCommand (b : Byte) (s : State) :
    execPpProcess b s = consumeCommand (cmdDecode s.cfg.cmdCode b) b s := by
  unfold execPpProcess consumeCommand
  split
  · rename_i hs
    rw [processByte_of_command hs]
  · rfl

/-- So does the row of the byte: the row and `CmdDecode` compare the same codes in the same order. -/
theorem exec_decodeCmd (b : Byte) (s : State) :
    exec (decodeCmd s.cfg.cmdCode b) s = consumeCommand (cmdDecode s.cfg.cmdCode b) b s := by
  unfold decodeCmd
  split_ifs with hinit hprint hdata hbrk hinquiry
  · simp only [cmdDecode, if_pos hinit]
    rw [hinit]
    rfl
  · simp only [cmdDecode, if_neg hinit, if_pos hprint]
    rw [hprint]
    rfl
  · simp only [cmdDecode, if_neg hinit, if_neg hprint, if_pos hdata]
    rw [hdata]
    rfl
  · simp only [cmdDecode, if_neg hinit, if_neg hprint, if_neg hdata, if_pos hbrk]
    rw [hbrk]
    rfl
  · simp only [cmdDecode, if_neg hinit, if_neg hprint, if_neg hdata, if_neg hbrk, if_pos hinquiry]
    rw [hinquiry]
    rfl
  · rfl

/-- Settles O48: both consume the command the byte's codes give. -/
theorem processRunsTheCommandRow : Obligations.ProcessRunsTheCommandRow := fun s b =>
  (execPpProcess_eq_consumeCommand b s).trans (exec_decodeCmd b s).symm

/-! ### The control rows (R100, R102, log entry 9) -/

/-- The mode a run begins in (R250, R252). -/
def runMode (k : RunKind) : DecMode := if k = .literal then .literal else .repeatByte

/-- With no further byte stored, a run begins and waits. -/
theorem beginRun_of_no_input {r : Run} {s : State} (h : s.dec.inPos = s.pkt.stored) :
    beginRun r s = noTile { s with dec := { s.dec with remaining := r.count, mode := runMode r.kind } } := by
  unfold beginRun
  cases hk : r.kind with
  | literal => exact withInput_of_eq h
  | repeated => exact withInput_of_eq h

/-- With the next byte stored, a literal run copies it. -/
theorem beginRun_literal {r : Run} {s : State} (hr : r.kind = .literal) (ht : s.tile.cursor.toNat < 16)
    (hi : s.dec.inPos.toNat < s.pkt.stored.toNat) (hc : s.pkt.stored.toNat ≤ s.cfg.payloadCap.toNat) :
    beginRun r s = .next (afterEmit .literal r.count s.dec.repeatByte (s.dec.inPos + 1)
      (memGet s.pkt.payload s.dec.inPos.toNat) s) := by
  simp only [beginRun, hr, feedLiteral]
  rw [withInput_of_stored _ (by exact hi) (by exact hc), emitOfRun_eq _ _ (by exact ht)]
  rfl

/-- With the next byte stored, a repeat run latches it and emits it once. -/
theorem beginRun_repeated {r : Run} {s : State} (hr : r.kind = .repeated) (ht : s.tile.cursor.toNat < 16)
    (hi : s.dec.inPos.toNat < s.pkt.stored.toNat) (hc : s.pkt.stored.toNat ≤ s.cfg.payloadCap.toNat) :
    beginRun r s = .next (afterEmit .repeatEmit r.count (memGet s.pkt.payload s.dec.inPos.toNat) (s.dec.inPos + 1)
      (memGet s.pkt.payload s.dec.inPos.toNat) s) := by
  simp only [beginRun, hr, feedRepeatByte]
  rw [withInput_of_stored _ (by exact hi) (by exact hc), feedRepeatEmit, emitOfRun_eq _ _ (by exact ht)]
  rfl

theorem atControlByte_iff {s : State} : atControlByte s = true ↔
    tileFull s.tile = false ∧ s.pkt.command = .data ∧ s.pkt.compression = true ∧ s.dec.mode = .control ∧
      s.dec.inPos.toNat < s.pkt.stored.toNat := by
  simp [atControlByte, inputLeft, and_assoc]

/-- At a stored control byte DEC_FEED moves past it and begins its run (R250, R252). -/
theorem feed_of_atControlByte {s : State} (h : atControlByte s = true) (hc : s.pkt.stored.toNat ≤ s.cfg.payloadCap.toNat) :
    feed s = beginRun (rleRun s.cfg.rleDecode (memGet s.pkt.payload s.dec.inPos.toNat))
      { s with dec := { s.dec with inPos := s.dec.inPos + 1 } } := by
  obtain ⟨hfull, hdata, hcomp, hmode, hleft⟩ := atControlByte_iff.mp h
  simp only [feed, hfull, hdata, hcomp, hmode, feedControl, withInput_of_stored _ hleft hc, Bool.not_true, Bool.false_eq_true,
    if_false, ne_eq, not_true_eq_false]

theorem exec_decFeed_of_main {s : State} (hctx : s.ctx = .main) : exec .decFeed s = feed s := inContext_main hctx

/-- Settles O39: past the control byte, the run waits for its first byte or takes it at once. -/
theorem feedBeginsARun : Obligations.FeedBeginsARun := by
  intro s hctx hcursor hdata hcomp hcap hmode hleft
  dsimp only
  have hat : atControlByte s = true := atControlByte_iff.mpr ⟨tileFull_false hcursor, hdata, hcomp, hmode, hleft⟩
  have hstored := s.pkt.stored.isLt
  have hpos : (s.dec.inPos + 1).toNat = s.dec.inPos.toNat + 1 := toNat_add_one_half _ (by omega)
  have hpos2 : s.dec.inPos + 1 + 1 = s.dec.inPos + 2 := by bv_omega
  rw [exec_decFeed_of_main hctx, feed_of_atControlByte hat hcap]
  refine ⟨fun hlast => ?_, fun hmore hr => ?_, fun hmore hr => ?_⟩
  · rw [beginRun_of_no_input (BitVec.eq_of_toNat_eq (hpos.trans hlast))]
    rfl
  · refine (beginRun_literal hr (by exact hcursor) (by simpa only [hpos] using hmore) (by exact hcap)).trans ?_
    simp only [hpos, hpos2]
    rfl
  · refine (beginRun_repeated hr (by exact hcursor) (by simpa only [hpos] using hmore) (by exact hcap)).trans ?_
    simp only [hpos, hpos2]
    rfl

theorem exec_decodeRleDoc (c : Byte) (s : State) : exec (decodeRleDoc c) s = consumeControl .doc (rleDoc c) s := by
  unfold decodeRleDoc rleDoc
  split
  · rfl
  · rfl

theorem exec_decodeRleGb (c : Byte) (s : State) : exec (decodeRleGb c) s = consumeControl .gb (rleGb c) s := by
  unfold decodeRleGb rleGb
  split
  · rfl
  · rfl

/-- DEC_FEED consumes the control byte it meets under the profile it has. -/
theorem exec_decFeed_eq_consumeControl {s : State} (hc : s.pkt.stored.toNat ≤ s.cfg.payloadCap.toNat) :
    exec .decFeed s =
      consumeControl s.cfg.rleDecode (rleRun s.cfg.rleDecode (memGet s.pkt.payload s.dec.inPos.toNat)) s := by
  simp only [exec, execDecFeed, consumeControl]
  split
  · rename_i h
    rw [feed_of_atControlByte h.1 hc]
  · rfl

/-- Settles O50: the row a profile gives a byte consumes the run the profile decodes it to, as DEC_FEED does. -/
theorem feedRunsTheControlRow : Obligations.FeedRunsTheControlRow := by
  intro s i hs hi
  rw [exec_decFeed_eq_consumeControl (stored_le_of_inv hs)]
  cases hp : s.cfg.rleDecode with
  | doc =>
    rw [hp] at hi
    injection hi with hi
    rw [← hi, exec_decodeRleDoc]
    rfl
  | gb =>
    rw [hp] at hi
    injection hi with hi
    rw [← hi, exec_decodeRleGb]
    rfl
  | table base rows =>
    rw [hp] at hi
    cases hi

/-- At the last stored byte, a control byte under its own profile begins its run and waits. -/
theorem consumeControl_of_last {r : Run} {s : State} (hctx : s.ctx = .main) (hat : atControlByte s = true)
    (hlast : s.dec.inPos.toNat + 1 = s.pkt.stored.toNat) :
    consumeControl s.cfg.rleDecode r s = noTile
      { s with dec := { s.dec with inPos := s.dec.inPos + 1, remaining := r.count, mode := runMode r.kind } } := by
  have hstored := s.pkt.stored.isLt
  have hpos : s.dec.inPos + 1 = s.pkt.stored :=
    BitVec.eq_of_toNat_eq ((toNat_add_one_half _ (by omega)).trans hlast)
  simp only [consumeControl, inContext_main hctx, hat, and_self, if_true]
  exact beginRun_of_no_input hpos

theorem count_setWidth {w : Nat} (n : BitVec w) (k : Nat) : n.setWidth 8 + BitVec.ofNat 8 k = BitVec.ofNat 8 (n.toNat + k) := by
  apply BitVec.eq_of_toNat_eq
  simp

/-- Settles O51: each row consumes its run at the last stored byte. -/
theorem controlRowsBeginTheirRuns : Obligations.ControlRowsBeginTheirRuns := by
  intro s hctx hcursor hdata hcomp hmode hlast begun
  have hat : atControlByte s = true := atControlByte_iff.mpr ⟨tileFull_false hcursor, hdata, hcomp, hmode, by omega⟩
  have hrow : ∀ (k : RunKind) (w m : Nat) (n : BitVec w),
      consumeControl s.cfg.rleDecode { kind := k, count := n.setWidth 8 + BitVec.ofNat 8 m } s = begun (runMode k) (n.toNat + m) := by
    intro k w m n
    rw [consumeControl_of_last hctx hat hlast, count_setWidth]
    rfl
  refine ⟨fun hp x n => ?_, fun hp n => ?_⟩
  · rw [hp] at hrow
    exact ⟨hrow .literal 6 1 n, hrow .repeated 6 1 n⟩
  · rw [hp] at hrow
    exact ⟨hrow .literal 7 1 n, hrow .repeated 7 2 n⟩

end Sys2Proof.Machine

/-! SUPPORT. A whole frame given to the parser (30_encoding.md rules R91 to R98 and R118): the sync bytes and the header, the payload by
induction over its bytes, the checksum and KEEPALIVE. -/

namespace Sys2Proof.Machine

/-! ### Bytes given to PP_PROCESS in order (R118) -/

theorem runFrom_procFrame_cons {b : Byte} {rest : List Byte} {s t : State} (h : processByte b { s with ctx := .main } = .next t) :
    runFrom .main (procFrame (b :: rest)) s = runFrom .main (procFrame rest) t :=
  runFrom_cons_of_next ((exec_ppProcess_of_main rfl).trans h) (procFrame rest)

theorem runFrom_procFrame_append {a : List Byte} {s t : State} (h : runFrom .main (procFrame a) s = .next t) (b : List Byte) :
    runFrom .main (procFrame (a ++ b)) s = runFrom .main (procFrame b) t := by
  rw [procFrame, List.map_append]
  exact runFrom_append_of_next h _

/-- A u16 that arrives low byte first is whole once its high byte has entered, whatever was there before (R64). -/
theorem joinBytes_twice (v old : Half) : joinBytes (highByte v) (lowByte (joinBytes (highByte old) (lowByte v))) = v := by
  rw [lowByte_joinBytes, joinBytes_high_low]

/-! ### Where a frame stands -/

/-- The header fields of the Packet register once the length is known: command `cmd`, compression byte `comp`, length `n`
(R32, R94, R95, R96, R199). -/
structure HeaderHeld (p : Params) (cmd comp : Byte) (n : Half) (k : Packet) : Prop where
  command : k.command = cmdDecode p.cmdCode cmd
  commandRaw : k.commandRaw = cmd
  compression : k.compression = comp.getLsbD 0
  length : k.length = n
  status : k.status = lengthBit p.payloadCap n

/-- The Packet register holds of the payload bytes `got` as many as the storage takes (R33, R199). -/
structure PayloadHeld (cap : Half) (got : List Byte) (k : Packet) : Prop where
  stored : k.stored.toNat = min got.length cap.toNat
  bytes : (List.range k.stored.toNat).map (memGet k.payload) = got.take cap.toNat
  wf : memWf cap.toNat k.payload = true

/-- The running checksum once the header and the payload bytes `got` have entered it (R97, R193). -/
def sumSoFar (cmd comp : Byte) (n : Half) (got : List Byte) : Half :=
  ([cmd, comp, lowByte n, highByte n] ++ got).foldl sumAdd 0

/-- From `s`, the header and the payload bytes `got` of a frame have been processed, and `t` is where that leaves the parser. -/
structure Received (s : State) (cmd comp : Byte) (n : Half) (got : List Byte) (t : State) : Prop where
  cfg : t.cfg = s.cfg
  hsStatus : t.hsStatus = s.hsStatus
  state : t.pp.state = if got.length = n.toNat then .checksumLow else .payload
  index : t.pp.index.toNat = got.length
  sum : t.pp.sum = sumSoFar cmd comp n got
  header : HeaderHeld s.cfg cmd comp n t.pkt
  payload : PayloadHeld s.cfg.payloadCap got t.pkt

/-! ### SYNC0 (R93, R195) -/

/-- Between frames SYNC0 moves the parser on, whether or not the last packet was taken. -/
theorem sync0_received {s : State} (hs : s.pp.state = .awaitSync0 ∨ s.pp.state = .done) :
    ∃ t, runFrom .main (procFrame [sync0]) s = .next t ∧ t.pp.state = .awaitSync1 ∧ t.cfg = s.cfg ∧ t.hsStatus = s.hsStatus ∧
      t.pkt = s.pkt := by
  rcases hs with hs | hs
  · have h : processByte sync0 { s with ctx := .main } = parseSync0 sync0 { s with ctx := .main } := by
      simp only [processByte, hs]
    exact ⟨_, runFrom_procFrame_cons h, rfl, rfl, rfl, rfl⟩
  · have h : processByte sync0 { s with ctx := .main } = parseSync0 sync0 (leaveDone { s with ctx := .main }) := by
      simp only [processByte, hs]
    exact ⟨_, runFrom_procFrame_cons h, rfl, rfl, rfl, rfl⟩

/-! ### SYNC1 and the header (R93 to R96, R191) -/

theorem processByte_sync1 {s : State} (hs : s.pp.state = .awaitSync1) :
    processByte sync1 s = notReadyYet (goTo .command (frameStart s)) := by
  simp only [processByte, hs, parseSync1, if_true]

theorem payloadHeld_nil {cap : Half} {k : Packet} (hs : k.stored = 0) (hw : memWf cap.toNat k.payload = true) :
    PayloadHeld cap [] k :=
  ⟨by simp [hs], by simp [hs], hw⟩

/-- SYNC1 clears the working registers and the Packet register, and the four header bytes enter them. -/
theorem runFrom_header {s : State} {lo hi : Byte} {n : Half} (cmd comp : Byte) (hs : s.pp.state = .awaitSync1)
    (hn : joinBytes hi (lowByte (joinBytes (highByte 0) lo)) = n) :
    ∃ t, runFrom .main (procFrame [sync1, cmd, comp, lo, hi]) s = .next t ∧ t.cfg = s.cfg ∧ t.hsStatus = s.hsStatus ∧
      t.pp = { state := if n = 0 then .checksumLow else .payload, index := 0, sum := [cmd, comp, lo, hi].foldl sumAdd 0,
               chk := 0, ready := s.pp.ready } ∧
      t.pkt = { command := cmdDecode s.cfg.cmdCode cmd, commandRaw := cmd, compression := comp.getLsbD 0, length := n,
                payload := s.pkt.payload, stored := 0,
                status := statusAtLength 0x00 (decide (s.cfg.payloadCap.toNat < n.toNat)), checksumOk := false } := by
  subst hn
  exact ⟨_, (runFrom_procFrame_cons (processByte_sync1 hs)).trans rfl, rfl, rfl, rfl, rfl⟩

theorem header_received {s : State} (cmd comp : Byte) (n : Half) (hs : s.pp.state = .awaitSync1)
    (hw : memWf s.cfg.payloadCap.toNat s.pkt.payload = true) :
    ∃ t, runFrom .main (procFrame [sync1, cmd, comp, lowByte n, highByte n]) s = .next t ∧ Received s cmd comp n [] t := by
  obtain ⟨t, hrun, hcfg, hhost, hpp, hpkt⟩ := runFrom_header cmd comp hs (joinBytes_twice n 0)
  refine ⟨t, hrun, hcfg, hhost, ?_, by rw [hpp]; rfl, by rw [hpp]; rfl, ?_, ?_⟩
  · have hzero : n = 0 ↔ 0 = n.toNat := ⟨fun h => by rw [h]; rfl, fun h => BitVec.eq_of_toNat_eq h.symm⟩
    simp only [hpp, hzero, List.length_nil]
  · rw [hpkt, statusAtLength_eq]
    exact ⟨rfl, rfl, rfl, rfl, BitVec.zero_or⟩
  · rw [hpkt]
    exact payloadHeld_nil rfl hw

/-! ### The payload (R33, R96, R199) -/

/-- Storing a byte writes the payload storage and `pkt_stored` alone. -/
theorem headerHeld_storePayload {p : Params} {cmd comp : Byte} {n : Half} {k : Packet} (h : HeaderHeld p cmd comp n k)
    (cap i : Half) (b : Byte) : HeaderHeld p cmd comp n (storePayload cap i b k) := by
  obtain ⟨hcommand, hraw, hcomp, hlength, hstatus⟩ := h
  unfold storePayload
  split
  · exact ⟨hcommand, hraw, hcomp, hlength, hstatus⟩
  · exact ⟨hcommand, hraw, hcomp, hlength, hstatus⟩

/-- The byte after `got` is stored at the end of the bytes held, or dropped where the storage is full. -/
theorem payloadHeld_storePayload {cap i : Half} {got : List Byte} {k : Packet} (h : PayloadHeld cap got k)
    (hi : i.toNat = got.length) (hlt : got.length < 65535) (b : Byte) :
    PayloadHeld cap (got ++ [b]) (storePayload cap i b k) := by
  obtain ⟨hstored, hbytes, hw⟩ := h
  have hnext := toNat_add_one_half i (by omega)
  unfold storePayload
  by_cases hc : got.length < cap.toNat
  · rw [spaceWrite_of_lt _ _ (by omega)]
    have hk : k.stored.toNat = got.length := by omega
    rw [hk, List.take_of_length_le (by omega)] at hbytes
    refine ⟨?_, ?_, memWf_memSet b hw (by omega)⟩
    · simp only [hnext, List.length_append, List.length_singleton]
      omega
    · simp only [memWf, Bool.and_eq_true] at hw
      have hlast : memGet (memSet k.payload i.toNat b) i.toNat = b := memGet_memSet_same _ b hw.1
      have hkept : (List.range got.length).map (memGet (memSet k.payload i.toNat b)) = got := by
        rw [← hbytes, List.length_map, List.length_range]
        refine List.map_congr_left fun a ha => memGet_memSet_ne _ b ?_
        have := List.mem_range.mp ha
        omega
      rw [List.take_of_length_le (by simp; omega)]
      simp only [hnext, hi, List.range_succ, List.map_append, List.map_cons, List.map_nil]
      rw [hi] at hlast hkept
      rw [hkept, hlast]
  · rw [spaceWrite_of_ge _ _ (by omega)]
    refine ⟨?_, ?_, hw⟩
    · simp only [List.length_append, List.length_singleton]
      omega
    · rw [List.take_append_of_le_length (by omega), hbytes]

/-- One payload byte. -/
theorem payloadByte_received {s t : State} {cmd comp : Byte} {n : Half} {got : List Byte} (h : Received s cmd comp n got t)
    (hlt : got.length < n.toNat) (b : Byte) :
    ∃ u, processByte b { t with ctx := .main } = .next u ∧ Received s cmd comp n (got ++ [b]) u := by
  have hn := n.isLt
  have hstate : t.pp.state = .payload := by rw [h.state, if_neg (by omega)]
  have hnext := toNat_add_one_half t.pp.index (by have := h.index; omega)
  rw [h.index] at hnext
  have hrun : processByte b { t with ctx := .main } = parsePayload b { t with ctx := .main } := by
    simp only [processByte, hstate]
  refine ⟨_, hrun, h.cfg, h.hsStatus, ?_, ?_, ?_, ?_, ?_⟩
  · have hlast : t.pp.index + 1 = t.pkt.length ↔ (got ++ [b]).length = n.toNat := by
      rw [h.header.length, ← BitVec.toNat_inj, hnext, List.length_append, List.length_singleton]
    simp only [hlast]
  · simp only [hnext, List.length_append, List.length_singleton]
  · simp only [h.sum, sumSoFar, ← List.append_assoc, List.foldl_append, List.foldl_cons, List.foldl_nil]
  · exact headerHeld_storePayload h.header _ _ b
  · rw [← h.cfg]
    exact payloadHeld_storePayload (h.cfg ▸ h.payload) h.index (by omega) b

/-- The rest of the payload, byte by byte. -/
theorem payload_received {s : State} {cmd comp : Byte} {n : Half} (rest : List Byte) {got : List Byte} {t : State}
    (h : Received s cmd comp n got t) (hlen : got.length + rest.length ≤ n.toNat) :
    ∃ u, runFrom .main (procFrame rest) t = .next u ∧ Received s cmd comp n (got ++ rest) u := by
  induction rest generalizing got t with
  | nil => exact ⟨t, rfl, by rwa [List.append_nil]⟩
  | cons b rest ih =>
    rw [List.length_cons] at hlen
    obtain ⟨u, hu, hreceived⟩ := payloadByte_received h (by omega) b
    obtain ⟨v, hv, hdone⟩ := ih hreceived (by rw [List.length_append, List.length_singleton]; omega)
    rw [List.append_assoc] at hdone
    exact ⟨v, (runFrom_procFrame_cons hu).trans hv, hdone⟩

/-! ### The checksum and KEEPALIVE (R97, R98, R200, R293) -/

theorem processByte_checksumLow {b : Byte} {s : State} (hs : s.pp.state = .checksumLow) :
    processByte b s = parseChecksumLow b s := by
  simp only [processByte, hs]

/-- The three bytes after the payload: the outcome is the comparison with the running sum, and the packet is ready. -/
theorem runFrom_trailer {s : State} {lo hi : Byte} {chk : Half} (ka : Byte) (hs : s.pp.state = .checksumLow)
    (hchk : joinBytes hi (lowByte (joinBytes (highByte s.pp.chk) lo)) = chk) :
    ∃ t, runFrom .main (procFrame [lo, hi, ka]) s = .next t ∧ t.reply = .returned (.value (.bit true)) ∧ t.cfg = s.cfg ∧
      t.pp = { s.pp with state := .done, chk := chk, ready := true } ∧
      t.pkt = { s.pkt with checksumOk := chk == s.pp.sum
                           status := statusAtKeepalive (statusAtChecksum s.pkt.status (chk == s.pp.sum)) s.hsStatus } := by
  subst hchk
  exact ⟨_, (runFrom_procFrame_cons (processByte_checksumLow hs)).trans rfl, rfl, rfl, rfl, rfl⟩

theorem statusAtChecksum_eq (v : Byte) (good : Bool) : statusAtChecksum v good = v ||| (if good then 0x00 else 0x01) := by
  cases good with
  | false => rfl
  | true => exact BitVec.or_zero.symm

/-! ### The whole frame -/

theorem frameBytes_eq (cmd comp : Byte) (payload : List Byte) (chk : Half) (ka : Byte) :
    frameBytes cmd comp payload chk ka =
      [sync0] ++ ([sync1, cmd, comp, lowByte (BitVec.ofNat 16 payload.length), highByte (BitVec.ofNat 16 payload.length)] ++
        (payload ++ [lowByte chk, highByte chk, ka])) := by
  simp [frameBytes]

/-- The frame as far as its checksum, from between frames. -/
theorem frame_received {s : State} (cmd comp : Byte) (payload : List Byte) (hs : s.pp.state = .awaitSync0 ∨ s.pp.state = .done)
    (hw : memWf s.cfg.payloadCap.toNat s.pkt.payload = true) (hlen : payload.length ≤ 65535) :
    ∃ t, (∀ chk ka, runFrom .main (procFrame (frameBytes cmd comp payload chk ka)) s =
        runFrom .main (procFrame [lowByte chk, highByte chk, ka]) t) ∧
      Received s cmd comp (BitVec.ofNat 16 payload.length) payload t := by
  have hn : (BitVec.ofNat 16 payload.length).toNat = payload.length := Nat.mod_eq_of_lt (by omega)
  obtain ⟨u, hu, hsync, hcfg, hhost, hpkt⟩ := sync0_received hs
  obtain ⟨v, hv, hheader⟩ := header_received cmd comp (BitVec.ofNat 16 payload.length) hsync (by rwa [hcfg, hpkt])
  obtain ⟨t, ht, hreceived⟩ := payload_received payload hheader (by simp [hn])
  refine ⟨t, fun chk ka => ?_, ?_⟩
  · rw [frameBytes_eq, runFrom_procFrame_append hu, runFrom_procFrame_append hv, runFrom_procFrame_append ht]
  · obtain ⟨rcfg, rhost, rstate, rindex, rsum, rheader, rpayload⟩ := hreceived
    rw [hcfg] at rheader rpayload
    exact ⟨rcfg.trans hcfg, rhost.trans hhost, rstate, rindex, rsum, rheader, rpayload⟩

/-- Settles O34: the sync bytes, the header, the payload by induction, and the three bytes after it. -/
theorem aFrameIsReceived : Obligations.AFrameIsReceived := by
  intro s cmd comp payload chk ka hinv hs hlen
  obtain ⟨-, -, hpp, -⟩ := hinv
  obtain ⟨u, hu, hreceived⟩ := frame_received cmd comp payload hs (payload_wf hpp) hlen
  obtain ⟨hcfg, hhost, hstate, -, hsum, ⟨hcommand, hraw, hcomp, hlength, hstatus⟩, ⟨hstored, hbytes, -⟩⟩ := hreceived
  have hn : (BitVec.ofNat 16 payload.length).toNat = payload.length := Nat.mod_eq_of_lt (by omega)
  obtain ⟨t, ht, hreply, tcfg, tpp, tpkt⟩ := runFrom_trailer ka (hstate.trans (if_pos hn.symm)) (joinBytes_twice chk u.pp.chk)
  have hframe : u.pp.sum = frameChecksum cmd comp payload := hsum
  rw [hframe] at tpkt
  refine ⟨t, (hu chk ka).trans ht, hreply, by rw [tpp], by rw [tpp], by rw [tpp, hframe], by rw [tpp], ?_⟩
  rw [payloadView, tcfg, tpkt, hcfg]
  have hle : u.pkt.stored.toNat ≤ s.cfg.payloadCap.toNat := by omega
  refine ⟨hcommand, hraw, hcomp, by rw [hlength, hn], hstored, ?_, ?_, ?_⟩
  · rw [spaceRun_of_le _ hle, hbytes]
  · rfl
  · simp only [statusAtKeepalive, statusAtChecksum_eq, hostStatusMask, hstatus, hlength, hhost, beq_iff_eq]

end Sys2Proof.Machine

/-! SUPPORT. The BitReceiver (40_bit_receiver.md): what each form of EDGE answers and writes, in the registers themselves (rules R130 to
R136). -/

namespace Sys2Proof.Machine

/-! ### The registers a counted edge leaves (R132, R136) -/

/-- The shifts of a counted edge on the transmit register of R136; the bit index is not yet advanced. -/
theorem sampledRegs_eq (d : Bool) (s : State) :
    sampledRegs s.cfg d s.rx =
      { bitIndex := s.rx.bitIndex, acc := bitIn s.cfg.bitOrder d s.rx.acc,
        txShift := shiftOut s.cfg.bitOrder (txBefore s), response := bitOut s.cfg.bitOrder (txBefore s) } := by
  rw [sampledRegs, rxShift_eq, rxLoad, txBefore]
  split <;> rfl

/-- Past the first bit of a byte `TX_POLICY` is not asked (R136). -/
theorem txBefore_of_ne_zero {s : State} (hi : s.rx.bitIndex ≠ 0) : txBefore s = s.rx.txShift := if_neg hi

theorem counted_iff {m : EdgeMode} {c : Bool} : counted m c = true ↔ m = .allEdges ∨ c = true := by
  rw [counted_eq, Bool.or_eq_true, beq_iff_eq]

/-! ### EDGE -/

/-- Settles O15: in `RISING_ONLY` a falling edge is not counted, and the reset value of `rx_response` is 0. -/
theorem uncountedEdgeHoldsTheResponse : Obligations.UncountedEdgeHoldsTheResponse := by
  intro s d hctx hmode
  have hc : counted s.cfg.edgeMode false = false := by rw [hmode]; rfl
  have hheld : exec (.edge false d) s = .next (answered (.value (.bit s.rx.response)) s) := exec_edge_of_uncounted hctx hc
  refine ⟨hheld, fun hreset => ?_⟩
  have hresponse : s.rx.response = false := congrArg RxRegs.response hreset
  rw [hheld, hresponse]

/-- Settles O16: before the eighth bit a counted edge leaves the sampled registers, the bit index advanced. -/
theorem countedEdgeShiftsOneBit : Obligations.CountedEdgeShiftsOneBit := by
  intro s c d hctx hc hi
  rw [exec_edge_of_early hctx (counted_iff.mpr hc) hi, sampledRegs_eq]
  rfl

/-- Settles O17: the eighth counted edge pushes the accumulator it has just completed, and what the push answers decides between the
stored byte and the dropped one. -/
theorem eighthEdgePushesTheByte : Obligations.EighthEdgePushesTheByte := by
  intro s c d hctx hc hi
  have htx : txBefore s = s.rx.txShift := txBefore_of_ne_zero (by rw [hi]; decide)
  have hlast := exec_edge_of_last (d := d) hctx (counted_iff.mpr hc) hi
  rw [sampledRegs_eq, htx] at hlast
  refine ⟨fun hroom htail => ?_, fun hfull => ?_⟩
  · rw [hlast, pushByte_of_lt _ _ _ htail hroom]
    rfl
  · rw [hlast, pushByte_of_full _ _ _ hfull]
    rfl

end Sys2Proof.Machine

/-! SUPPORT. The FrameBuffer and the TimeoutMonitor (41_frame_buffer.md): each operation form by form (rules R150 to R157, R170),
runs of pushes and pops on the queue (R158), what removes bytes (R159), and what raises a session timeout (R173). -/

namespace Sys2Proof.Machine

/-! ### FB_PUSH and FB_POP (R150, R151) -/

/-- Settles O19: the room in the buffer decides between the two forms of FB_PUSH. -/
theorem pushStoresOrDropsTheByte : Obligations.PushStoresOrDropsTheByte :=
  fun _ _ hctx => ⟨fun hroom htail => exec_fbPush_of_room hctx hroom htail, fun hfull => exec_fbPush_of_full hctx hfull⟩

/-- Settles O20: whether a byte is stored decides between the two forms of FB_POP. -/
theorem popRemovesTheOldestByte : Obligations.PopRemovesTheOldestByte :=
  fun _ hctx => ⟨fun hstored hhead => exec_fbPop_of_stored hctx hstored hhead, fun hempty => exec_fbPop_of_empty hctx hempty⟩

/-! ### FB_PEEK (R152) -/

theorem getElem?_fbContents_of_lt {cap : Byte} {f : FrameBuffer} {k : Nat} (h : k < f.count.toNat) :
    (fbContents cap f)[k]? = some (memGet f.data (ringIndex cap f.head k)) := by
  simp [fbContents, ringIndex, h]

theorem getElem?_fbContents_of_le {cap : Byte} {f : FrameBuffer} {k : Nat} (h : f.count.toNat ≤ k) :
    (fbContents cap f)[k]? = none :=
  List.getElem?_eq_none (by rwa [length_fbContents])

theorem exec_fbPeek_of_le {off : Half} {s : State} (hctx : s.ctx = .main) (h : s.fb.count.toNat ≤ off.toNat) :
    exec (.fbPeek off) s = returning .outOfRange s := by
  simp only [exec, execFbPeek, inContext_main hctx, h, if_true]

theorem exec_fbPeek_of_lt {off : Half} {s : State} (hctx : s.ctx = .main) (h : off.toNat < s.fb.count.toNat)
    (hcap : 0 < s.cfg.fbCap.toNat) :
    exec (.fbPeek off) s =
      returningValue (.byte (memGet s.fb.data (ringIndex s.cfg.fbCap s.fb.head off.toNat))) s := by
  simp only [exec, execFbPeek, inContext_main hctx, Nat.not_le.mpr h, if_false, spaceRead_of_lt _ (ringIndex_lt _ _ hcap)]

/-- Settles O22: FB_PEEK reads the ring where the queue lists its byte at the offset, and answers OUT_OF_RANGE past the end of the
list. -/
theorem peekReadsTheQueueAtTheOffset : Obligations.PeekReadsTheQueueAtTheOffset := by
  intro s off ⟨_, hfb, _, _⟩ hctx
  rcases Nat.lt_or_ge off.toNat s.fb.count.toNat with hlt | hge
  · rw [exec_fbPeek_of_lt hctx hlt (Nat.zero_lt_of_lt (head_lt hfb)), getElem?_fbContents_of_lt hlt]
    rfl
  · rw [exec_fbPeek_of_le hctx hge, getElem?_fbContents_of_le hge]
    rfl

/-! ### The queries and FB_CLEAR_OVF (R153 to R157) -/

theorem permits_any_of_main_or_int {c : Ctx} (h : c = .main ∨ c = .int) : permits .any c = true := by
  rcases h with rfl | rfl
  · exact permits_any_main
  · exact permits_any_int

/-- Settles O24: each body only answers a register or clears the flag; only FB_CAPACITY's tag admits both contexts. -/
theorem bufferQueriesAndClear : Obligations.BufferQueriesAndClear :=
  fun _ => ⟨fun hctx => inContext_main hctx, fun hctx => inContext_of_permits (permits_any_of_main_or_int hctx),
    fun hctx => inContext_main hctx, fun hctx => inContext_main hctx, fun hctx => inContext_main hctx⟩

/-! ### Capacity plus one (R158) -/

theorem runFrom_append_singleton {c : Ctx} {ops : List Instr} {i : Instr} {s t u : State} (h : runFrom c ops s = .next t)
    (hi : exec i { t with ctx := c } = .next u) : runFrom c (ops ++ [i]) s = .next u := by
  rw [runFrom_append_of_next h, runFrom_cons_of_next hi, runFrom_nil]

theorem pushFrame_append_singleton (bytes : List Byte) (b : Byte) : pushFrame (bytes ++ [b]) = pushFrame bytes ++ [.fbPush b] :=
  List.map_append

/-- In `s` the FrameBuffer, of capacity `cap`, meets its invariant and stores the bytes `q`, oldest first. -/
structure Queued (cap : Byte) (q : List Byte) (s : State) : Prop where
  capacity : s.cfg.fbCap = cap
  inv : FbInv cap s.fb
  contents : fbContents cap s.fb = q

section Queue
variable {cap : Byte} {q : List Byte} {s : State}

theorem Queued.toNat_count (h : Queued cap q s) : s.fb.count.toNat = q.length := by
  rw [← h.contents, length_fbContents]

theorem Queued.count_eq_cap (h : Queued cap q s) (hfull : q.length = cap.toNat) : s.fb.count = cap :=
  BitVec.eq_of_toNat_eq (h.toNat_count.trans hfull)

theorem Queued.exec_fbPush_of_room (h : Queued cap q s) (hroom : q.length < cap.toNat) (b : Byte) :
    ∃ t, exec (.fbPush b) { s with ctx := .int } = .next t ∧ t.reply = .returned .ok ∧ Queued cap (q ++ [b]) t := by
  have hcount : s.fb.count ≠ cap := fun e => by simp [← h.toNat_count, e] at hroom
  obtain ⟨rfl, hinv, rfl⟩ := h
  exact ⟨_, Machine.exec_fbPush_of_room rfl hcount (tail_lt hinv), rfl, rfl, fbInv_push hinv hcount,
    fbContents_push hinv hcount⟩

theorem Queued.exec_fbPush_of_full (h : Queued cap q s) (hfull : q.length = cap.toNat) (b : Byte) :
    ∃ t, exec (.fbPush b) { s with ctx := .int } = .next t ∧ t.reply = .returned .overflow ∧ t.fb.overflow = true ∧
      Queued cap q t := by
  have hcount := h.count_eq_cap hfull
  obtain ⟨rfl, hinv, rfl⟩ := h
  exact ⟨_, Machine.exec_fbPush_of_full rfl hcount, rfl, rfl, rfl, fbInv_overflow hinv true, rfl⟩

theorem Queued.exec_fbPop_of_cons {b : Byte} (h : Queued cap (b :: q) s) :
    ∃ t, exec .fbPop { s with ctx := .main } = .next t ∧ t.reply = .returned (.value (.byte b)) ∧ Queued cap q t := by
  have hcount : s.fb.count ≠ 0 := fun e => by simpa [e] using h.toNat_count
  obtain ⟨rfl, hinv, hcontents⟩ := h
  rw [fbContents_pop hinv hcount, List.cons.injEq] at hcontents
  obtain ⟨rfl, rfl⟩ := hcontents
  exact ⟨_, exec_fbPop_of_stored rfl hcount (head_lt hinv), rfl, rfl, fbInv_pop hinv hcount, rfl⟩

theorem Queued.exec_fbPop_of_nil (h : Queued cap [] s) :
    ∃ t, exec .fbPop { s with ctx := .main } = .next t ∧ t.reply = .returned .empty := by
  have hcount : s.fb.count = 0 := BitVec.eq_of_toNat_eq h.toNat_count
  exact ⟨_, exec_fbPop_of_empty rfl hcount, rfl⟩

/-- Bytes there is room for are all stored, in order. -/
theorem Queued.runFrom_pushFrame (bytes : List Byte) {q : List Byte} {s : State} (h : Queued cap q s)
    (hroom : q.length + bytes.length ≤ cap.toNat) :
    ∃ t, runFrom .int (pushFrame bytes) s = .next t ∧ Queued cap (q ++ bytes) t := by
  induction bytes generalizing q s with
  | nil => exact ⟨s, rfl, by rwa [List.append_nil]⟩
  | cons b rest ih =>
    rw [List.length_cons] at hroom
    obtain ⟨u, hu, -, hqueued⟩ := h.exec_fbPush_of_room (by omega) b
    obtain ⟨t, ht, hdone⟩ := ih hqueued (by rw [List.length_append, List.length_singleton]; omega)
    rw [List.append_assoc] at hdone
    exact ⟨t, (runFrom_cons_of_next hu _).trans ht, hdone⟩

/-- As many pops as `taken` is long remove exactly the bytes `taken`. -/
theorem Queued.runFrom_pops (taken : List Byte) {s : State} (h : Queued cap (taken ++ q) s) :
    ∃ t, runFrom .main (List.replicate taken.length .fbPop) s = .next t ∧ Queued cap q t := by
  induction taken generalizing s with
  | nil => exact ⟨s, rfl, h⟩
  | cons b rest ih =>
    obtain ⟨u, hu, -, hqueued⟩ := h.exec_fbPop_of_cons
    obtain ⟨t, ht, hdone⟩ := ih hqueued
    exact ⟨t, (runFrom_cons_of_next hu _).trans ht, hdone⟩

/-- A push into room, after bytes there was room for, answers OK. -/
theorem Queued.runFrom_pushes_ok {bytes : List Byte} (h : Queued cap [] s) (hlen : bytes.length ≤ cap.toNat) {k : Nat}
    (hk : k < bytes.length) :
    ∃ t, runFrom .int (pushFrame (bytes.take (k + 1))) s = .next t ∧ t.reply = .returned .ok := by
  obtain ⟨u, hu, hqueued⟩ := h.runFrom_pushFrame (bytes.take k) (by simp; omega)
  obtain ⟨t, ht, hreply, -⟩ := hqueued.exec_fbPush_of_room (by simp; omega) bytes[k]
  rw [List.take_succ_eq_append_getElem hk, pushFrame_append_singleton]
  exact ⟨t, runFrom_append_singleton hu ht, hreply⟩

/-- The pop after `k` others returns the byte at distance `k` from the oldest. -/
theorem Queued.runFrom_pops_byte (h : Queued cap q s) {k : Nat} {b : Byte} (hb : q[k]? = some b) :
    ∃ t, runFrom .main (List.replicate (k + 1) .fbPop) s = .next t ∧ t.reply = .returned (.value (.byte b)) := by
  obtain ⟨hk, rfl⟩ := List.getElem?_eq_some_iff.mp hb
  have hsplit : q = q.take k ++ q[k] :: q.drop (k + 1) := by rw [← List.drop_eq_getElem_cons hk, List.take_append_drop]
  have hlen : (q.take k).length = k := List.length_take_of_le hk.le
  obtain ⟨u, hu, hqueued⟩ := Queued.runFrom_pops (q.take k) (hsplit ▸ h)
  obtain ⟨t, ht, hreply, -⟩ := hqueued.exec_fbPop_of_cons
  rw [hlen] at hu
  rw [List.replicate_succ']
  exact ⟨t, runFrom_append_singleton hu ht, hreply⟩

/-- The pop after the last byte answers EMPTY. -/
theorem Queued.runFrom_pops_empty (h : Queued cap q s) :
    ∃ t, runFrom .main (List.replicate (q.length + 1) .fbPop) s = .next t ∧ t.reply = .returned .empty := by
  obtain ⟨u, hu, hqueued⟩ := Queued.runFrom_pops (q := []) q (by rwa [List.append_nil])
  obtain ⟨t, ht, hreply⟩ := hqueued.exec_fbPop_of_nil
  rw [List.replicate_succ']
  exact ⟨t, runFrom_append_singleton hu ht, hreply⟩

end Queue

/-- Settles O23: the pushes fill the queue with `bytes`, the extra one leaves it so, and the pops take it apart from the front. -/
theorem capacityPlusOneKeepsTheOrder : Obligations.CapacityPlusOneKeepsTheOrder := by
  intro s bytes extra ⟨_, hfb, _, _⟩ hempty hlen
  have hqueued : Queued s.cfg.fbCap [] s := ⟨rfl, hfb, fbContents_eq_nil hempty⟩
  obtain ⟨v, hv, hfilled⟩ := hqueued.runFrom_pushFrame bytes (by simp [hlen])
  obtain ⟨u, hu, hreply, hflag, hkept⟩ := hfilled.exec_fbPush_of_full hlen extra
  refine ⟨fun k hk => hqueued.runFrom_pushes_ok hlen.le hk, u, ?_, hreply, hkept.count_eq_cap hlen, hflag,
    fun k b hb => hkept.runFrom_pops_byte hb, hkept.runFrom_pops_empty⟩
  rw [pushFrame_append_singleton]
  exact runFrom_append_singleton hv hu

/-! ### What removes bytes (R159) -/

/-- Every write of the FrameBuffer but a pop's and RESET's leaves the stored bytes, and at most appends one. -/
theorem FbWrite.contents_kept_or_appended {i : Instr} {s t : State} (w : FbWrite i s t) (h : FbInv s.cfg.fbCap s.fb)
    (hpop : i ≠ .fbPop) (hreset : i ≠ .reset) :
    ∃ added, fbContents s.cfg.fbCap t.fb = fbContents s.cfg.fbCap s.fb ++ added := by
  cases w with
  | kept e => exact ⟨[], by rw [e, List.append_nil]⟩
  | dropped _ _ e | cleared _ e => exact ⟨[], by rw [e, List.append_nil]; rfl⟩
  | stored _ hc b e => exact ⟨[b], by rw [e, fbContents_push h hc]⟩
  | popped hi _ _ => exact absurd hi hpop
  | reset hi _ => exact absurd hi hreset

/-- Settles O25, by what each operation writes of the FrameBuffer; a session timeout writes nothing of it. -/
theorem onlyPopAndResetRemoveBytes : Obligations.OnlyPopAndResetRemoveBytes :=
  fun _ _ _ ⟨_, hfb, _, _⟩ hpop hreset h => (exec_writes h).fb.contents_kept_or_appended hfb hpop hreset

/-! ### TM_TICK (R170, R172, R230, R270) -/

theorem idleExceeds_idleAfter {idle limit : Millis} {ms : BitVec 24} :
    idleExceeds (idleAfter idle ms) limit = decide (limit.toNat < min (idle.toNat + ms.toNat) (2 ^ 32 - 1)) := by
  rw [idleExceeds, idleAfter_toNat]

section Tick
variable {ms : BitVec 24} {s : State}

theorem exec_tmTick_of_unarmed (hctx : s.ctx = .main) (harmed : s.tm.armed = false) :
    exec (.tmTick ms) s = returningValue (.bit false) s := by
  simp only [exec, execTmTick, inContext_main hctx, harmed, Bool.not_false, if_true]

theorem exec_tmTick_of_within (hctx : s.ctx = .main) (harmed : s.tm.armed = true)
    (hidle : idleExceeds (idleAfter s.tm.idle ms) s.cfg.timeoutMs = false) :
    exec (.tmTick ms) s =
      returningValue (.bit false) { s with tm := { idle := idleAfter s.tm.idle ms, armed := true } } := by
  simp only [exec, execTmTick, inContext_main hctx, harmed, hidle, Bool.not_true, Bool.false_eq_true, if_false]

theorem exec_tmTick_of_exceeded (hctx : s.ctx = .main) (harmed : s.tm.armed = true)
    (hidle : idleExceeds (idleAfter s.tm.idle ms) s.cfg.timeoutMs = true) :
    exec (.tmTick ms) s = raising (some .sessionTimeout) (.value (.bit true))
      (sessionTimeout { s with tm := { idle := idleAfter s.tm.idle ms, armed := false } }) := by
  simp only [exec, execTmTick, inContext_main hctx, harmed, hidle, Bool.not_true, Bool.false_eq_true, if_false, if_true]

end Tick

/-- The parser's reset, in the terms of Safety.lean. -/
theorem parserSessionReset_eq (s : State) :
    parserSessionReset s = { s with pp := (parserAfterTimeout s).1, pkt := (parserAfterTimeout s).2 } := by
  unfold parserSessionReset parserAfterTimeout
  cases hr : s.pp.ready with
  | false => simp only [parserCleared, packetCleared, hr, Bool.false_eq_true, if_false]
  | true => rfl

theorem rxSessionReset_eq (s : State) :
    rxSessionReset s = { s with rx := if s.cfg.rxResetOnTimeout then rxClear else s.rx } := by
  unfold rxSessionReset
  cases s.cfg.rxResetOnTimeout with
  | false => rfl
  | true => rfl

/-- A session timeout writes the parser, the Packet register, the run state, the tile's cursor and the receiver alone. -/
theorem sessionTimeout_eq (s : State) :
    sessionTimeout s =
      { s with pp := (parserAfterTimeout s).1
               pkt := (parserAfterTimeout s).2
               dec := { mode := .control, remaining := 0, repeatByte := 0x00, inPos := (parserAfterTimeout s).2.stored }
               tile := if s.tile.cursor.toNat < 16 then { s.tile with cursor := 0 } else s.tile
               rx := if s.cfg.rxResetOnTimeout then rxClear else s.rx } := by
  rw [sessionTimeout, parserSessionReset_eq, rxSessionReset_eq]
  rfl

/-- Settles O26: the monitor and the saturated sum decide between the three forms of TM_TICK. -/
theorem tickCountsAndFires : Obligations.TickCountsAndFires := by
  intro s ms hctx idle
  refine ⟨fun harmed => exec_tmTick_of_unarmed hctx harmed, fun harmed hle => ?_, fun harmed hlt => ?_⟩
  · have hwithin : idleExceeds (idleAfter s.tm.idle ms) s.cfg.timeoutMs = false := by
      rw [idleExceeds_idleAfter, decide_eq_false (Nat.not_lt.mpr hle)]
    exact exec_tmTick_of_within hctx harmed hwithin
  · have hexceeded : idleExceeds (idleAfter s.tm.idle ms) s.cfg.timeoutMs = true := by
      rw [idleExceeds_idleAfter, decide_eq_true hlt]
    rw [exec_tmTick_of_exceeded hctx harmed hexceeded, sessionTimeout_eq]
    rfl

/-! ### What raises a session timeout (R173) -/

/-- Where the operation body `k` answers a next state, it has raised no session timeout. -/
def RaisesNoTimeout (k : Step) : Prop := ∀ t, k = .next t → t.event ≠ some .sessionTimeout

theorem raisesNoTimeout_raising {e : Option Event} {r : Result} {s : State} (he : e ≠ some .sessionTimeout) :
    RaisesNoTimeout (raising e r s) := by
  intro t h
  rw [raising_next] at h
  subst h
  exact he

theorem raisesNoTimeout_returning {r : Result} {s : State} : RaisesNoTimeout (returning r s) := raisesNoTimeout_raising nofun

theorem raisesNoTimeout_fault (f : Fault) : RaisesNoTimeout (.fault f) := fun _ h => nomatch h

/-- A refusal raises nothing, so the body decides. -/
theorem raisesNoTimeout_inContext {g : Tag} {s : State} {k : Step} (hk : RaisesNoTimeout k) :
    RaisesNoTimeout (inContext g s k) := by
  intro t h
  rcases inContext_next h with ⟨-, hn⟩ | ⟨-, rfl⟩
  · exact hk t hn
  · nofun

theorem raisesNoTimeout_processByte (b : Byte) (s : State) : RaisesNoTimeout (processByte b s) := by
  intro t h
  obtain ⟨p, k, d, r, e, rfl, -, -, he⟩ := parserChange_of_processByte h
  exact he

theorem FeedChange.event_eq_none {s t : State} (h : FeedChange s t) : t.event = none := by
  obtain ⟨d, tl, b, rfl, -⟩ := h
  rfl

theorem raisesNoTimeout_feed (s : State) : RaisesNoTimeout (feed s) := by
  intro t h
  rw [(feedChange_of_feed h).event_eq_none]
  nofun

theorem raisesNoTimeout_edge (c d : Bool) (s : State) : RaisesNoTimeout (execEdge c d s) := by
  refine raisesNoTimeout_inContext ?_
  split
  · exact raisesNoTimeout_returning
  · dsimp only
    split
    · split
      · exact raisesNoTimeout_returning
      · exact raisesNoTimeout_raising nofun
      · exact raisesNoTimeout_fault _
    · exact raisesNoTimeout_returning

theorem raisesNoTimeout_fbPush (b : Byte) (s : State) : RaisesNoTimeout (execFbPush b s) := by
  refine raisesNoTimeout_inContext ?_
  split
  · exact raisesNoTimeout_returning
  · exact raisesNoTimeout_raising nofun
  · exact raisesNoTimeout_fault _

theorem raisesNoTimeout_fbPop (s : State) : RaisesNoTimeout (execFbPop s) := by
  refine raisesNoTimeout_inContext ?_
  split
  · exact raisesNoTimeout_returning
  · split
    · exact raisesNoTimeout_fault _
    · exact raisesNoTimeout_returning

theorem raisesNoTimeout_ppTake (s : State) : RaisesNoTimeout (execPpTake s) := by
  refine raisesNoTimeout_inContext ?_
  split
  · exact raisesNoTimeout_returning
  · split
    · exact raisesNoTimeout_fault _
    · exact raisesNoTimeout_returning

theorem raisesNoTimeout_tileTake (s : State) : RaisesNoTimeout (execTileTake s) := by
  refine raisesNoTimeout_inContext ?_
  split
  · exact raisesNoTimeout_returning
  · exact raisesNoTimeout_returning

/-- A query answers and does nothing else, or is refused. -/
theorem raisesNoTimeout_of_query {i : Instr} (hq : isQuery i = true) (s : State) : RaisesNoTimeout (exec i s) := by
  intro t h
  cases hp : permits (tagOf i) s.ctx with
  | true =>
    obtain ⟨r, rfl⟩ := exec_query_answered hq hp h
    nofun
  | false =>
    rw [exec_of_not_permits hp, refuse_next] at h
    subst h
    nofun

/-- The six command rows (log entry 9). -/
theorem raisesNoTimeout_consumeCommand (k : Command) (b : Byte) (s : State) : RaisesNoTimeout (consumeCommand k b s) := by
  refine raisesNoTimeout_inContext ?_
  split
  · exact raisesNoTimeout_returning
  · exact raisesNoTimeout_processByte b s

/-- The four control rows (log entry 9). -/
theorem raisesNoTimeout_consumeControl (p : RleDecode) (r : Run) (s : State) : RaisesNoTimeout (consumeControl p r s) := by
  refine raisesNoTimeout_inContext ?_
  split
  · intro t h
    rw [(feedChange_of_beginRun rfl h).event_eq_none]
    nofun
  · exact raisesNoTimeout_feed s

/-- Of all operations only TM_TICK raises a session timeout. -/
theorem raisesNoTimeout_exec {i : Instr} (hi : ∀ ms, i ≠ .tmTick ms) (s : State) : RaisesNoTimeout (exec i s) := by
  cases i with
  | edge c d => exact raisesNoTimeout_edge c d s
  | fbPush b => exact raisesNoTimeout_fbPush b s
  | fbPop => exact raisesNoTimeout_fbPop s
  | tmTick ms => exact absurd rfl (hi ms)
  | ppProcess b => exact raisesNoTimeout_inContext (raisesNoTimeout_processByte b s)
  | ppTake => exact raisesNoTimeout_ppTake s
  | decFeed => exact raisesNoTimeout_inContext (raisesNoTimeout_feed s)
  | tileTake => exact raisesNoTimeout_tileTake s
  | rleDocLiteral ignored n | rleDocRepeat ignored n | rleGbLiteral n | rleGbRepeat n =>
    exact raisesNoTimeout_consumeControl _ _ s
  | cmdInit | cmdPrint | cmdData | cmdBreak | cmdInquiry | cmdUnknown raw => exact raisesNoTimeout_consumeCommand _ _ s
  | fbPeek off | fbCount | fbCapacity | fbMaxfill | fbOverflow | ppReady | decPending | tileReady | prSheets | prMarginPre
  | prMarginPost | prPalette | prDensity | scEncode f | scDecode v => exact raisesNoTimeout_of_query rfl s
  | fbClearOvf | hsWrite v | reset => exact raisesNoTimeout_inContext raisesNoTimeout_returning

theorem ctx_main_of_permits {c : Ctx} (h : permits .main c = true) : c = .main := by
  cases c with
  | int => cases h
  | main => rfl
  | host => cases h

/-- A tick that raises the timeout found the monitor armed and disarms it. -/
theorem disarmed_of_tmTick_timeout {ms : BitVec 24} {s t : State} (h : exec (.tmTick ms) s = .next t)
    (he : t.event = some .sessionTimeout) : s.tm.armed = true ∧ t.tm.armed = false := by
  rcases inContext_next h with ⟨hp, -⟩ | ⟨-, rfl⟩
  · have hctx := ctx_main_of_permits hp
    cases harmed : s.tm.armed with
    | false =>
      rw [exec_tmTick_of_unarmed hctx harmed] at h
      exact absurd he (raisesNoTimeout_returning t h)
    | true =>
      cases hidle : idleExceeds (idleAfter s.tm.idle ms) s.cfg.timeoutMs with
      | false =>
        rw [exec_tmTick_of_within hctx harmed hidle] at h
        exact absurd he (raisesNoTimeout_returning t h)
      | true =>
        rw [exec_tmTick_of_exceeded hctx harmed hidle, raising_next] at h
        exact ⟨rfl, by simp [h]⟩
  · cases he

theorem disarmed_of_timeout {i : Instr} {s t : State} (h : exec i s = .next t) (he : t.event = some .sessionTimeout) :
    s.tm.armed = true ∧ t.tm.armed = false := by
  by_cases hi : ∃ ms, i = .tmTick ms
  · obtain ⟨ms, rfl⟩ := hi
    exact disarmed_of_tmTick_timeout h he
  · exact absurd he (raisesNoTimeout_exec (not_exists.mp hi) s t h)

/-- An FB_POP returns a byte, or leaves the monitor as it was: it answered EMPTY or was refused. -/
theorem fbPop_returns_byte_or_keeps_tm {s t : State} (h : exec .fbPop s = .next t) :
    (∃ b, t.reply = .returned (.value (.byte b))) ∨ t.tm = s.tm := by
  rcases inContext_next h with ⟨-, hk⟩ | ⟨-, rfl⟩
  · split at hk
    · rw [returning_next] at hk
      exact .inr (by rw [hk])
    · split at hk
      · cases hk
      · rename_i b _
        rw [returningValue_next] at hk
        exact .inl ⟨b, by rw [hk]⟩
  · exact .inr rfl

/-- Settles O27: only a tick of the armed monitor raises the timeout, and it disarms; only FB_POP arms, and where it does it has
returned a byte. -/
theorem oneTimeoutPerIdlePeriod : Obligations.OneTimeoutPerIdlePeriod := by
  intro i s t h
  refine ⟨disarmed_of_timeout h, fun hunarmed harmed => ?_⟩
  obtain ⟨rfl, -⟩ := (exec_writes h).tm.armed_set hunarmed harmed
  rcases fbPop_returns_byte_or_keeps_tm h with hbyte | htm
  · exact ⟨rfl, hbyte⟩
  · rw [htm, hunarmed] at harmed
    cases harmed

end Sys2Proof.Machine

/-! SUPPORT. The PacketParser (42_packet_parser.md): its transition table (rules R190, R195), the byte after DONE, the frame of the
operations that give it a byte (rules R190, R191, R199), and how a packet is taken (rules R196 to R198). -/

namespace Sys2Proof.Machine

/-! ### The transition table (R195) -/

/-- A u16 is 0 when both its bytes are: the test of LENGTH_HIGH, on the byte that arrives and the low byte held. -/
theorem joinBytes_lowByte_eq_zero_iff (b : Byte) (v : Half) :
    joinBytes b (lowByte v) = 0 ↔ b = 0x00 ∧ v.extractLsb' 0 8 = 0x00#8 := by
  have hlow : (lowByte v).toNat = (v.extractLsb' 0 8).toNat := by simp [lowByte]
  simp only [← BitVec.toNat_inj, joinBytes_toNat, hlow, BitVec.ofNat_eq_ofNat, BitVec.toNat_ofNat, Nat.zero_mod]
  omega

/-- In AWAIT_SYNC_0 only SYNC0 moves the parser, and no byte completes a packet. -/
theorem parseSync0_follows_table {s : State} (hs : s.pp.state = .awaitSync0) (b : Byte) :
    ∃ t, parseSync0 b s = .next t ∧ t.pp.state = (if b = 0x88 then .awaitSync1 else .awaitSync0) ∧
      t.reply = .returned (.value (.bit false)) := by
  rw [parseSync0_eq]
  refine ⟨_, rfl, ?_, rfl⟩
  dsimp only
  split
  · rfl
  · exact hs

/-- The body of PP_PROCESS moves the parser by the table and answers 1 on the KEEPALIVE byte alone. -/
theorem processByte_follows_table (b : Byte) (s : State) :
    ∃ t, processByte b s = .next t ∧ t.pp.state = parserNext s.pp s.pkt.length b ∧
      t.reply = .returned (.value (.bit (decide (s.pp.state = .keepalive)))) := by
  unfold processByte parserNext
  cases hs : s.pp.state with
  | awaitSync0 => exact parseSync0_follows_table hs b
  | awaitSync1 =>
    dsimp only
    rw [parseSync1_eq]
    by_cases h1 : b = 0x33
    · rw [if_pos h1, if_pos h1]
      exact ⟨_, rfl, rfl, rfl⟩
    · rw [if_neg h1, if_neg h1]
      exact ⟨_, rfl, rfl, rfl⟩
  | lengthHigh =>
    refine ⟨_, rfl, ?_, rfl⟩
    simp only [sumGoTo_pp, joinBytes_lowByte_eq_zero_iff]
  | done => exact parseSync0_follows_table (s := leaveDone s) rfl b
  | command | compression | lengthLow | payload | checksumLow | checksumHigh | keepalive => exact ⟨_, rfl, rfl, rfl⟩

/-- Settles O28, framing state by framing state. -/
theorem parserFollowsTheTable : Obligations.ParserFollowsTheTable := by
  intro s b hctx
  rw [exec_ppProcess_of_main hctx]
  exact processByte_follows_table b s

/-! ### The byte after DONE (R190, R195) -/

theorem processByte_of_done {b : Byte} {s : State} (hs : s.pp.state = .done) :
    processByte b s = processByte b (leaveDone s) := by
  simp only [processByte, hs, leaveDone_pp]

/-- Settles O33: the state the byte is read in is `leaveDone`'s. -/
theorem byteAfterDoneIsASyncCandidate : Obligations.ByteAfterDoneIsASyncCandidate := by
  intro s b hctx hs
  calc exec (.ppProcess b) s
    _ = processByte b s := exec_ppProcess_of_main hctx
    _ = processByte b (leaveDone s) := processByte_of_done hs
    _ = exec (.ppProcess b) (leaveDone s) := (exec_ppProcess_of_main (s := leaveDone s) hctx).symm

/-! ### The frame of PP_PROCESS and the command rows (R190, R191, R199) -/

theorem main_or_refused_of_inContext {P : Prop} {s t : State} {k : Step} (h : inContext .main s k = .next t)
    (hk : k = .next t → P) :
    (s.ctx = .main ∧ P) ∨ t = { s with reply := .refused .wrongContext, event := none, refused := true } := by
  rcases inContext_next h with ⟨hp, hn⟩ | ⟨-, ht⟩
  · exact .inl ⟨ctx_main_of_permits hp, hk hn⟩
  · exact .inr ht

/-- An operation that gives the parser a byte gives it one from MAIN, and is refused from any other context (R340, log entry 9). -/
theorem parserChange_or_refused_of_process {i : Instr} {s t : State} (hi : isProcess i = true) (h : exec i s = .next t) :
    (s.ctx = .main ∧ ParserChange s t) ∨
      t = { s with reply := .refused .wrongContext, event := none, refused := true } := by
  cases i with
  | ppProcess b => exact main_or_refused_of_inContext h parserChange_of_processByte
  | cmdInit | cmdPrint | cmdData | cmdBreak | cmdInquiry | cmdUnknown b =>
    refine main_or_refused_of_inContext h fun hk => ?_
    split at hk
    · exact parserChange_of_takeCommand hk
    · exact parserChange_of_processByte hk
  | _ => cases hi

/-- Of the payload storage, a processed byte writes at most the byte at `pp_index`, in state PAYLOAD and within the capacity. -/
theorem ParserChange.payload_kept {s t : State} (h : ParserChange s t) (a : Nat)
    (ha : s.pp.state ≠ .payload ∨ a ≠ s.pp.index.toNat ∨ s.cfg.payloadCap.toNat ≤ s.pp.index.toNat) :
    memGet t.pkt.payload a = memGet s.pkt.payload a := by
  obtain ⟨p, k, d, r, e, rfl, -, hkept | ⟨hstate, hlt, b, hwritten⟩, -⟩ := h
  · exact congrArg (memGet · a) hkept
  · have hne : a ≠ s.pp.index.toNat := by
      rcases ha with hs | hne | hle
      · exact absurd hstate hs
      · exact hne
      · omega
    exact (congrArg (memGet · a) hwritten).trans (memGet_memSet_ne _ b hne)

/-- Settles O55: a byte given to the parser changes what `ParserChange` says, and a refusal the answer and the mark alone. -/
theorem processFrame : Obligations.ProcessFrame := by
  intro i s t hrow h
  have hi : isProcess i = true := by
    rcases hrow with ⟨b, rfl⟩ | rfl | rfl | rfl | rfl | rfl | ⟨b, rfl⟩ <;> rfl
  rcases parserChange_or_refused_of_process hi h with ⟨hctx, hchange⟩ | rfl
  · have hpayload := hchange.payload_kept
    obtain ⟨p, k, d, r, e, rfl, hpos, -⟩ := hchange
    refine ⟨rfl, hpos, fun a ha => hpayload a ?_⟩
    simpa only [hctx, ne_eq, not_true_eq_false, or_false] using ha
  · exact ⟨rfl, .inl rfl, fun _ _ => rfl⟩

/-! ### PP_READY and PP_TAKE (R196, R197, R198) -/

theorem exec_ppTake_of_not_ready {s : State} (hctx : s.ctx = .main) (hready : s.pp.ready = false) :
    exec .ppTake s = returning .notReady s := by
  simp only [exec, execPpTake, inContext_main hctx, hready, Bool.not_false, if_true]

/-- The view of the stored bytes lies in the storage, as the invariant of R33 says, so the packet is given. -/
theorem exec_ppTake_of_ready {s : State} (hctx : s.ctx = .main) (hready : s.pp.ready = true)
    (hstored : s.pkt.stored.toNat ≤ s.cfg.payloadCap.toNat) :
    exec .ppTake s = returningValue
      (.packet (packetValue s.pkt ((List.range s.pkt.stored.toNat).map (memGet s.pkt.payload))))
      { s with pp := { s.pp with ready := false } } := by
  simp only [exec, execPpTake, inContext_main hctx, hready, payloadView, spaceRun_of_le _ hstored, Bool.not_true,
    Bool.false_eq_true, if_false]

/-- Settles O35: `pp_ready` decides between the two answers of PP_TAKE. -/
theorem packetIsTakenOnce : Obligations.PacketIsTakenOnce := fun _ hctx =>
  ⟨inContext_main hctx, exec_ppTake_of_not_ready hctx, exec_ppTake_of_ready hctx⟩

end Sys2Proof.Machine

/-! SUPPORT. The TileDecompressor (43_tile_decompressor.md): DEC_FEED by what it finds (rules R250 to R254), DEC_PENDING (R256),
the tile given away (R257, R258), the control rows away from a control byte (log entry 9), and the frame of the operations that feed. -/

namespace Sys2Proof.Machine

/-! ### DEC_FEED with nothing to do (R250) -/

theorem tileFull_iff {t : TileAccumulator} : tileFull t = true ↔ t.cursor = 16 := by
  simp only [tileFull, beq_iff_eq]

theorem tileFull_eq_false_iff {t : TileAccumulator} : tileFull t = false ↔ t.cursor ≠ 16 := by
  simp only [tileFull, beq_eq_false_iff_ne]

theorem inputLeft_iff {s : State} : inputLeft s = true ↔ s.dec.inPos.toNat < s.pkt.stored.toNat := decide_eq_true_iff

theorem inputLeft_of_eq {s : State} (h : s.dec.inPos = s.pkt.stored) : inputLeft s = false := by
  simp only [inputLeft, h, Nat.lt_irrefl, decide_false]

theorem feed_of_tileFull {s : State} (h : tileFull s.tile = true) : feed s = returningValue (.bit true) s := by
  simp only [feed, h, if_true]

theorem feed_of_not_data {s : State} (hfull : tileFull s.tile = false) (hcmd : s.pkt.command ≠ .data) : feed s = noTile s := by
  simp only [feed, hfull, hcmd, Bool.false_eq_true, if_false, ne_eq, not_false_eq_true, if_true]

/-- The pass DEC_FEED makes first in each mode (R250). -/
def feedInMode : DecMode → State → Step
  | .control => feedControl
  | .literal => feedLiteral
  | .repeatByte => feedRepeatByte
  | .repeatEmit => feedRepeatEmit

section Data
variable {s : State} (hfull : tileFull s.tile = false) (hdata : s.pkt.command = .data)
include hfull hdata

theorem feed_of_raw (hcomp : s.pkt.compression = false) : feed s = feedRaw s := by
  simp only [feed, hfull, hdata, hcomp, Bool.not_false, Bool.false_eq_true, if_false, if_true, ne_eq, not_true_eq_false]

theorem feed_of_compressed (hcomp : s.pkt.compression = true) : feed s = feedInMode s.dec.mode s := by
  simp only [feed, hfull, hdata, hcomp, Bool.not_true, Bool.false_eq_true, if_false, ne_eq, not_true_eq_false]
  cases s.dec.mode with
  | control | literal | repeatByte | repeatEmit => rfl

/-- Every place but a repeat run needs an input byte, and waits for it. -/
theorem feed_of_no_input (hpos : s.dec.inPos = s.pkt.stored) (hneeds : s.pkt.compression = false ∨ s.dec.mode ≠ .repeatEmit) :
    feed s = noTile s := by
  cases hcomp : s.pkt.compression with
  | false =>
    rw [feed_of_raw hfull hdata hcomp]
    simp only [feedRaw, inputLeft_of_eq hpos, Bool.not_false, if_true, reportTile, hfull, noTile]
  | true =>
    rw [feed_of_compressed hfull hdata hcomp]
    cases hmode : s.dec.mode with
    | control | literal | repeatByte => exact withInput_of_eq hpos
    | repeatEmit => simp [hcomp, hmode] at hneeds

end Data

/-- Settles O36: the tile is looked at first, then the command, then the input. -/
theorem feedWithNothingToDo : Obligations.FeedWithNothingToDo := by
  intro s hctx
  rw [exec_decFeed_of_main hctx]
  exact ⟨fun h => feed_of_tileFull (tileFull_iff.mpr h), fun h hcmd => feed_of_not_data (tileFull_eq_false_iff.mpr h) hcmd,
    fun h hdata hpos hneeds => feed_of_no_input (tileFull_eq_false_iff.mpr h) hdata hpos hneeds⟩

/-! ### DEC_FEED with a byte to emit (R250 to R254) -/

/-- Settles O37: the stored byte is read and emitted in one pass. -/
theorem feedPassesRawBytesThrough : Obligations.FeedPassesRawBytesThrough := by
  intro s hctx hcursor hdata hcomp hleft hcap
  rw [exec_decFeed_of_main hctx, feed_of_raw (tileFull_false hcursor) hdata hcomp]
  simp only [feedRaw, inputLeft_iff.mpr hleft, Bool.not_true, Bool.false_eq_true, if_false,
    nextIn_of_lt (hleft.trans_le hcap)]
  rw [emit_of_lt (by exact hcursor)]
  simp only [reportTile, tileFull_next _ _ hcursor]
  rfl

/-- Settles O38: each mode inside a run is one emission, after the input byte where it takes one. -/
theorem feedContinuesARun : Obligations.FeedContinuesARun := by
  intro s hctx hcursor hdata hcomp hcap v
  rw [exec_decFeed_of_main hctx, feed_of_compressed (tileFull_false hcursor) hdata hcomp]
  refine ⟨fun hmode hleft => ?_, fun hmode hleft => ?_, fun hmode => ?_⟩
  · rw [hmode, feedInMode, feedLiteral, withInput_of_stored _ hleft hcap, emitOfRun_eq _ _ (by exact hcursor)]
    simp only [hmode]
    rfl
  · rw [hmode, feedInMode, feedRepeatByte, withInput_of_stored _ hleft hcap, feedRepeatEmit, emitOfRun_eq _ _ (by exact hcursor)]
    rfl
  · rw [hmode, feedInMode, feedRepeatEmit, emitOfRun_eq _ _ hcursor, hmode]

/-! ### DEC_PENDING (R256) -/

theorem feedPending_iff {s : State} : feedPending s = true ↔
    tileFull s.tile = true ∨
      (s.pkt.command = .data ∧ (inputLeft s = true ∨ (s.pkt.compression = true ∧ s.dec.mode = .repeatEmit))) := by
  cases hcomp : s.pkt.compression with
  | false => simp [feedPending, hcomp]
  | true => simp [feedPending, hcomp, or_comm]

/-- Where nothing is pending, DEC_FEED answers 0 and changes nothing. -/
theorem feed_of_not_pending {s : State} (hpos : s.dec.inPos.toNat ≤ s.pkt.stored.toNat) (h : ¬feedPending s = true) :
    feed s = noTile s := by
  obtain ⟨hfull, hidle⟩ := not_or.mp (mt feedPending_iff.mpr h)
  rw [Bool.not_eq_true] at hfull
  by_cases hdata : s.pkt.command = .data
  · obtain ⟨hleft, hrepeat⟩ := not_or.mp (not_and.mp hidle hdata)
    rw [inputLeft_iff] at hleft
    have heq : s.dec.inPos = s.pkt.stored := BitVec.eq_of_toNat_eq (by omega)
    refine feed_of_no_input hfull hdata heq ?_
    cases hcomp : s.pkt.compression with
    | false => exact .inl rfl
    | true => exact .inr (not_and.mp hrepeat hcomp)
  · exact feed_of_not_data hfull hdata

theorem cursor_succ_ne (c : BitVec 5) : c + 1 ≠ c := by bv_omega

/-- Where something is pending and a tile is to be filled, DEC_FEED emits a byte, or moves past a control byte that is
the last one stored. -/
theorem feed_progresses {s : State} (hctx : s.ctx = .main) (hcursor : s.tile.cursor.toNat < 16) (hdata : s.pkt.command = .data)
    (hcap : s.pkt.stored.toNat ≤ s.cfg.payloadCap.toNat)
    (hpending : inputLeft s = true ∨ (s.pkt.compression = true ∧ s.dec.mode = .repeatEmit)) :
    ∃ t, exec .decFeed s = .next t ∧ (t.dec.inPos ≠ s.dec.inPos ∨ t.tile.cursor ≠ s.tile.cursor) := by
  rw [inputLeft_iff] at hpending
  cases hcomp : s.pkt.compression with
  | false =>
    have hleft := hpending.resolve_right (by simp [hcomp])
    exact ⟨_, feedPassesRawBytesThrough s hctx hcursor hdata hcomp hleft hcap, .inr (cursor_succ_ne _)⟩
  | true =>
    obtain ⟨hliteral, hrepeatByte, hrepeatEmit⟩ := feedContinuesARun s hctx hcursor hdata hcomp hcap
    cases hmode : s.dec.mode with
    | control =>
      have hleft := hpending.resolve_right (by simp [hmode])
      obtain ⟨hlast, hmoreLiteral, hmoreRepeated⟩ := feedBeginsARun s hctx hcursor hdata hcomp hcap hmode hleft
      by_cases heq : s.dec.inPos.toNat + 1 = s.pkt.stored.toNat
      · exact ⟨_, hlast heq, .inl (show s.dec.inPos + 1 ≠ s.dec.inPos by bv_omega)⟩
      · cases hkind : (rleRun s.cfg.rleDecode (memGet s.pkt.payload s.dec.inPos.toNat)).kind with
        | literal => exact ⟨_, hmoreLiteral (by omega) hkind, .inr (cursor_succ_ne _)⟩
        | repeated => exact ⟨_, hmoreRepeated (by omega) hkind, .inr (cursor_succ_ne _)⟩
    | literal => exact ⟨_, hliteral hmode (hpending.resolve_right (by simp [hmode])), .inr (cursor_succ_ne _)⟩
    | repeatByte => exact ⟨_, hrepeatByte hmode (hpending.resolve_right (by simp [hmode])), .inr (cursor_succ_ne _)⟩
    | repeatEmit => exact ⟨_, hrepeatEmit hmode, .inr (cursor_succ_ne _)⟩

/-- Settles O40: something is pending at a full tile or where DEC_FEED progresses, and elsewhere DEC_FEED changes nothing. -/
theorem pendingMeansFeedMakesProgress : Obligations.PendingMeansFeedMakesProgress := by
  intro s hs hctx
  have hcap := stored_le_of_inv hs
  obtain ⟨-, -, -, hpos, hcursor, -⟩ := hs
  refine ⟨feedPending s, ?_⟩
  have hanswer : exec .decPending s = .next (answered (.value (.bit (feedPending s))) s) := inContext_main hctx
  by_cases hp : feedPending s = true
  · by_cases hfull : tileFull s.tile = true
    · exact ⟨_, hanswer, (exec_decFeed_of_main hctx).trans (feed_of_tileFull hfull),
        iff_of_true hp (.inl (tileFull_iff.mp hfull))⟩
    · obtain ⟨hdata, hpending⟩ := (feedPending_iff.mp hp).resolve_left hfull
      obtain ⟨t, ht, hmoved⟩ := feed_progresses hctx (cursor_lt_of_not_tileFull hcursor hfull) hdata hcap hpending
      exact ⟨t, hanswer, ht, iff_of_true hp (.inr (hmoved.imp_right .inl))⟩
  · have hnotFull : s.tile.cursor ≠ 16 := mt (fun h => feedPending_iff.mpr (.inl (tileFull_iff.mpr h))) hp
    exact ⟨_, hanswer, (exec_decFeed_of_main hctx).trans (feed_of_not_pending hpos hp),
      iff_of_false hp (not_or.mpr ⟨hnotFull, by simp⟩)⟩

/-! ### TILE_READY and TILE_TAKE (R257, R258) -/

theorem exec_tileTake_of_partial {s : State} (hctx : s.ctx = .main) (h : s.tile.cursor < 16) :
    exec .tileTake s = returning .notReady s := by
  simp only [exec, execTileTake, inContext_main hctx, h, if_true]

theorem exec_tileTake_of_not_partial {s : State} (hctx : s.ctx = .main) (h : ¬s.tile.cursor < 16) :
    exec .tileTake s = returningValue (.tile (tileBytes s.tile)) { s with tile := { s.tile with cursor := 0 } } := by
  simp only [exec, execTileTake, inContext_main hctx, h, if_false]

/-- Settles O41: the cursor decides between the two answers of TILE_TAKE. -/
theorem tileIsTakenWhenFull : Obligations.TileIsTakenWhenFull := fun _ hctx =>
  ⟨inContext_main hctx, fun hpartial => exec_tileTake_of_partial hctx (BitVec.lt_def.mpr hpartial),
    fun hfull => exec_tileTake_of_not_partial hctx (by rw [hfull]; decide)⟩

/-! ### The control rows away from a control byte (log entry 9) -/

theorem consumeControl_of_not_at {p : RleDecode} {s : State} (h : ¬(atControlByte s = true ∧ s.cfg.rleDecode = p)) (r : Run) :
    consumeControl p r s = exec .decFeed s := by
  simp only [consumeControl, exec, execDecFeed, h, if_false]

/-- Each way of not being at a control byte of profile `p`. -/
theorem not_atControlByte_of_elsewhere {p : RleDecode} {s : State}
    (h : s.tile.cursor = 16 ∨ s.pkt.command ≠ .data ∨ s.pkt.compression = false ∨ s.dec.mode ≠ .control ∨
      s.dec.inPos = s.pkt.stored ∨ s.cfg.rleDecode ≠ p) : ¬(atControlByte s = true ∧ s.cfg.rleDecode = p) := by
  rintro ⟨hat, hprofile⟩
  obtain ⟨hfull, hdata, hcomp, hmode, hleft⟩ := atControlByte_iff.mp hat
  rcases h with h | h | h | h | h | h
  · exact tileFull_eq_false_iff.mp hfull h
  · exact h hdata
  · simp [h] at hcomp
  · exact h hmode
  · simp [h] at hleft
  · exact h hprofile

/-- Settles O52: every row is `consumeControl` of its run. -/
theorem controlRowsElsewhereFeed : Obligations.ControlRowsElsewhereFeed := fun _ =>
  ⟨fun h _ _ => ⟨consumeControl_of_not_at (not_atControlByte_of_elsewhere h) _,
      consumeControl_of_not_at (not_atControlByte_of_elsewhere h) _⟩,
    fun h _ => ⟨consumeControl_of_not_at (not_atControlByte_of_elsewhere h) _,
      consumeControl_of_not_at (not_atControlByte_of_elsewhere h) _⟩⟩

/-! ### The frame of DEC_FEED and the control rows (R250, R251) -/

/-- An operation that feeds the decompressor feeds it from MAIN, and is refused from any other context (R340, log entry 9). -/
theorem feedChange_or_refused_of_feed {i : Instr} {s t : State} (hi : isFeed i = true) (h : exec i s = .next t) :
    (s.ctx = .main ∧ FeedChange s t) ∨ t = { s with reply := .refused .wrongContext, event := none, refused := true } := by
  cases i with
  | decFeed => exact main_or_refused_of_inContext h feedChange_of_feed
  | rleDocLiteral x n | rleDocRepeat x n | rleGbLiteral n | rleGbRepeat n =>
    refine main_or_refused_of_inContext h fun hk => ?_
    split at hk
    · exact feedChange_of_beginRun rfl hk
    · exact feedChange_of_feed hk
  | _ => cases hi

/-- Of the tile, a feed writes at most the byte at the cursor, which then advances. -/
theorem FeedChange.tile_kept_or_advanced {s t : State} (h : FeedChange s t) :
    (t.tile = s.tile ∨ t.tile.cursor = s.tile.cursor + 1) ∧
      ∀ a, a ≠ s.tile.cursor.toNat → memGet t.tile.buf a = memGet s.tile.buf a := by
  obtain ⟨d, tl, b, rfl, rfl | ⟨-, v, rfl⟩⟩ := h
  · exact ⟨.inl rfl, fun _ _ => rfl⟩
  · exact ⟨.inr rfl, fun _ ha => memGet_memSet_ne _ v ha⟩

/-- Settles O56: a feed changes what `FeedChange` says, and a refusal the answer and the mark alone. -/
theorem feedFrame : Obligations.FeedFrame := by
  intro i s t hrow h
  have hi : isFeed i = true := by
    rcases hrow with rfl | ⟨x, n, rfl⟩ | ⟨x, n, rfl⟩ | ⟨n, rfl⟩ | ⟨n, rfl⟩ <;> rfl
  rcases feedChange_or_refused_of_feed hi h with ⟨-, hchange⟩ | rfl
  · refine ⟨?_, hchange.tile_kept_or_advanced⟩
    obtain ⟨d, tl, b, rfl, -⟩ := hchange
    rfl
  · exact ⟨rfl, .inl rfl, fun _ _ => rfl⟩

end Sys2Proof.Machine

/-! SUPPORT. The StatusCodec and the PRINT accessors (44_status_codec.md): the status byte and its flags (rules R290 to R292), and
each PRINT field as the bits its layout gives it in its own byte of the stored payload (R295 to R302). -/

namespace Sys2Proof.Machine

/-! ### The StatusCodec (R290 to R292) -/

theorem exec_scEncode {s : State} (hctx : s.ctx = .main ∨ s.ctx = .int) (f : StatusFlags) :
    exec (.scEncode f) s = returningValue (.byte (statusPack f)) s :=
  inContext_of_permits (permits_any_of_main_or_int hctx)

theorem exec_scDecode {s : State} (hctx : s.ctx = .main ∨ s.ctx = .int) (v : Byte) :
    exec (.scDecode v) s = returningValue (.flags (statusUnpack v)) s :=
  inContext_of_permits (permits_any_of_main_or_int hctx)

/-- Settles O43: the flags `statusUnpack` reads are the bits of R290, so its inverse places each flag at its own bit. -/
theorem statusCodecPlacesTheFlags : Obligations.StatusCodecPlacesTheFlags := by
  refine ⟨fun s f hctx => ?_, fun s v hctx => ?_⟩
  · have hflags := statusUnpack_statusPack f
    have hdecode := exec_scDecode hctx (statusPack f)
    rw [hflags] at hdecode
    exact ⟨statusPack f, exec_scEncode hctx f, congrArg (·.lowBattery) hflags, congrArg (·.errorOther) hflags,
      congrArg (·.paperJam) hflags, congrArg (·.packetError) hflags, congrArg (·.unprocessedData) hflags,
      congrArg (·.printBufferFull) hflags, congrArg (·.printerBusy) hflags, congrArg (·.checksumError) hflags, hdecode⟩
  · have hencode := exec_scEncode hctx (statusUnpack v)
    rw [statusPack_statusUnpack] at hencode
    exact ⟨statusUnpack v, exec_scDecode hctx v, rfl, hencode⟩

/-! ### The PRINT accessors (R295 to R302) -/

/-- The byte of the payload a PRINT field is read from: 0 where none is stored (R302). -/
def storedByteAt (s : State) (off : Nat) : Byte := if off < s.pkt.stored.toNat then memGet s.pkt.payload off else 0x00

theorem printBits_zero (l : PrintLayout) (f : PrintField) : printBits l f 0 = 0 := by
  cases l <;> cases f <;> rfl

/-- The high nibble of a byte is the byte shifted (R295, R298). -/
theorem printBits_nibbleMargins_marginPre (v : Byte) : printBits .nibbleMargins .marginPre v = v >>> 4 := by
  revert v
  decide

/-- The low nibble of a byte is the byte masked (R295, R299). -/
theorem printBits_nibbleMargins_marginPost (v : Byte) : printBits .nibbleMargins .marginPost v = v &&& 0x0F := by
  revert v
  decide

section Print
variable {s : State} {l : PrintLayout} (hlayout : s.cfg.printLayout = l) (hstored : s.pkt.stored.toNat ≤ s.cfg.payloadCap.toNat)
include hlayout hstored

/-- A field of a byte not stored is 0, which is what the field's bits of a 0 byte are. -/
theorem printField_eq (f : PrintField) : printField f s = some (printBits l f (storedByteAt s (printOffset l f))) := by
  rw [printField, storedByteAt, hlayout]
  split
  · rw [spaceRead_of_lt _ (by omega), Option.map_some]
  · rw [printBits_zero]

theorem readField_eq (hctx : s.ctx = .main) (f : PrintField) :
    readField f s = returningValue (.byte (printBits l f (storedByteAt s (printOffset l f)))) s := by
  rw [readField, inContext_main hctx, printField_eq hlayout hstored]

end Print

/-- Settles O45: the two margins are the nibbles of one byte, every other field is a byte of its own. -/
theorem printFieldsOfNibbleMargins : Obligations.PrintFieldsOfNibbleMargins := by
  intro s hctx hlayout hstored
  have hread := readField_eq hlayout hstored hctx
  have hpre := hread .marginPre
  have hpost := hread .marginPost
  rw [printBits_nibbleMargins_marginPre] at hpre
  rw [printBits_nibbleMargins_marginPost] at hpost
  exact ⟨hread .sheets, hpre, hpost, hread .palette, hread .density⟩

/-- Settles O46: no field of this layout is less than its byte. -/
theorem printFieldsOfByteMargins : Obligations.PrintFieldsOfByteMargins := by
  intro s hctx hlayout hstored
  have hread := readField_eq hlayout hstored hctx
  exact ⟨hread .sheets, hread .marginPre, hread .marginPost, hread .palette, hread .density⟩

end Sys2Proof.Machine

/-! SUPPORT. RESET and the hazards (70_reset_and_hazards.md): the parameters no step writes (rule R361), the step with nothing issued
(R363), and the values RESET loads (R360). -/

namespace Sys2Proof.Machine

/-! ### The parameters (R361) -/

/-- Settles O9: no operation writes a parameter, and neither do the fetch and the refusal of an illegal word. -/
theorem parametersAreFixed : Obligations.ParametersAreFixed := by
  refine ⟨fun _ => rfl, fun s t h => ?_⟩
  have hexec : ∀ i u v, u.cfg = s.cfg → exec i u = .next v → v.cfg = s.cfg :=
    fun _ _ _ hu hv => (exec_writes hv).cfg.trans hu
  exact step_keeps (P := fun u => u.cfg = s.cfg) (fun _ _ _ _ _ _ hu => hu) hexec rfl h

/-! ### Nothing issued (R363) -/

theorem fetchIssue_of_nothing_issued {s : State} (h : s.ops = []) : fetchIssue s = none := by
  simp only [fetchIssue, h]

/-- Settles O6: the fetch gives no operation to run. -/
theorem nothingIssuedNothingHappens : Obligations.NothingIssuedNothingHappens := by
  intro s h
  rw [step, fetchIssue_of_nothing_issued h]

/-! ### RESET (R360) -/

theorem exec_reset {s : State} (hctx : s.ctx = .host) : exec .reset s = returning .ok (resetState s) :=
  inContext_of_permits (by rw [hctx, permits_host_host])

/-- Settles O47: issued from HOST, RESET answers OK over `resetState`, whose values are the reset columns. -/
theorem resetLoadsTheResetValues : Obligations.ResetLoadsTheResetValues := by
  intro s hctx
  rw [exec_reset hctx]
  rfl

end Sys2Proof.Machine
